-- ==== Sys2Proof/Word.lean ====
section
/-! DEFINITION. The word types of POVC-LZW: one name for each width the spec gives a value that is shifted, masked or
read by the host as a field (00_scope.md R9, R11). -/

namespace Sys2Proof

/-- A pixel, a suffix entry, a stack entry, a sub-block byte: 8 bits (R9, R42 to R44). -/
abbrev Byte := BitVec 8

/-- A register of the register map, or a command word: 32 bits (R49, R100). -/
abbrev Word := BitVec 32

/-- A code of the code stream: at most 12 bits, zero-extended (R105). -/
abbrev Code := BitVec 12

/-- An entry of PREFIX, LAST_CODE, RUNNING_CODE: 13 bits, a code or NO_CODE (R27, R28, R41). -/
abbrev Link := BitVec 13

end Sys2Proof
end

