-- ==== Sys2Proof/Config.lean ====
section
/-! DEFINITION. What one implementation of POVC-LZW fixes: the constants of 00_scope.md R9, the open parameter of R10, and
the FREE VALUES, each an opaque constant with no body, so that no proof can see what it is. -/

namespace Sys2Proof

/-- The two values of the open parameter SHORT_READ_POLICY (R10, R162). -/
inductive ShortReadPolicy where
  | fault
  | zeroFill
  deriving DecidableEq, Repr, Inhabited

/-- The RAMs whose contents after a reset are unspecified and hold bytes (R42 to R44). -/
inductive ByteRam where
  | suffix
  | stack
  | sbbuf
  deriving DecidableEq, Repr

namespace Config

/-- MAX_CODE_BITS (R9). -/
abbrev maxCodeBits : Nat := 12
/-- TABLE_SIZE, the number of entries of PREFIX and of SUFFIX (R9). -/
abbrev tableSize : Nat := 4096
/-- STACK_DEPTH (R9). -/
abbrev stackDepth : Nat := 4096
/-- TRACE_LIMIT (R9). -/
abbrev traceLimit : Nat := 4096
/-- SUBBLOCK_MAX, the number of entries of SBBUF (R9, R44). -/
abbrev subBlockMax : Nat := 255
/-- NO_CODE (R9, decision D15). -/
abbrev noCode : Link := 4098#13
/-- MAX_MIN_CODE_SIZE (R9, decision D16). -/
abbrev maxMinCodeSize : Nat := 8
/-- RUNNING_CODE_CAP (R9, decision D14). -/
abbrev runningCodeCap : Nat := 4097

/-- SHORT_READ_POLICY (R10, U1): open, so no proof can see which of the two it is (log 1). -/
opaque shortReadPolicy : ShortReadPolicy

/-- The `pix` of the n-th free draw, used by a skip beat (R61, R180, U2; log 3). -/
opaque freePix : Nat → Byte

/-- The word of the n-th free draw, used by a diagnostic register read while BUSY = 1 (R78, U4; log 4). -/
opaque freeDiag : Nat → Word

/-- What an entry of PREFIX holds after the n-th hardware reset and before INIT (R41, R63, U3; log 5). -/
opaque freePrefix : Nat → Nat → Link

/-- What an entry of SUFFIX, STACK or SBBUF that nothing has written holds after the n-th hardware reset
(R42 to R44, R63, U3; log 5). -/
opaque freeByte : ByteRam → Nat → Nat → Byte

/-- What the byte source will deliver after the n-th hardware reset and before the host positions it (R250, R254; log 6). -/
opaque freeStream : Nat → List Byte

end Config

end Sys2Proof
end

