-- ==== Sys2Proof/Syntax.lean ====
section
/-! DEFINITION. The instructions of POVC-LZW: one constructor for each row of spec/opcode_table.json. The first four are
commands the host writes to CMD (30_encoding.md R100, R101); the other six are the classes of a code of the LZW code
stream, which "plays the part an instruction plays in a processor" (R108). -/

namespace Sys2Proof

/-- POVC-LZW's instructions. A code class carries the code that was read. -/
inductive Instr where
  /-- NOP, CMD word 0x0 (R138). -/
  | nop
  /-- INIT, CMD word 0x1 (R140). -/
  | init
  /-- LINE, CMD word 0x2 (R145). -/
  | line
  /-- A CMD word 0x3 to 0xF: not a command, a CommandError (R101, R102, R131). -/
  | reservedCommand (op : BitVec 4)
  /-- END, `c == end_code` (R180). -/
  | endCode (c : Code)
  /-- CLEAR, `c == clear_code` (R182). -/
  | clear (c : Code)
  /-- PIXEL, `c < clear_code` (R184). -/
  | pixel (c : Code)
  /-- TABLE, KNOWN: `c > end_code` and `prefix[c] != NO_CODE` (R187). -/
  | known (c : Code)
  /-- TABLE, KWKWK: the code that this very code defines (R186). -/
  | kwkwk (c : Code)
  /-- TABLE, INVALID: any other TABLE code (R185). -/
  | invalid (c : Code)
  deriving DecidableEq, Repr

/-- What the class of a code depends on beside the code (R14, R108, R112): the minimum code size, RUNNING_CODE after the
read's own increment, LAST_CODE, and whether `prefix[c] != NO_CODE` for the code read. -/
structure CodeCtx where
  m : BitVec 4
  running : Link
  last : Link
  defined : Bool
  deriving DecidableEq, Repr

/-- clear_code = 2^m (R13, R109). -/
def CodeCtx.clearCode (x : CodeCtx) : Nat := 2 ^ x.m.toNat

/-- end_code = clear_code + 1 (R13, R109). -/
def CodeCtx.endCode (x : CodeCtx) : Nat := x.clearCode + 1

/-- An encoded instruction: a 32-bit word written to CMD (R100), or a code value taken from the code stream (R105). -/
inductive Encoded where
  | command (w : Word)
  | code (c : Code)
  deriving DecidableEq, Repr

end Sys2Proof
end

