-- ==== Sys2Proof/WellFormed.lean ====
section
/-! DEFINITION. Which terms of Instr stand for an encoding of the spec: the reserved opcodes are 0x3 to 0xF (R101), and a
code of a class meets that class's condition in its context (R108). -/

namespace Sys2Proof

/-- The instruction is a command, or a command word the block refuses (R100, R101). -/
def Instr.isCommand : Instr → Bool
  | .nop => true
  | .init => true
  | .line => true
  | .reservedCommand _ => true
  | .endCode _ => false
  | .clear _ => false
  | .pixel _ => false
  | .known _ => false
  | .kwkwk _ => false
  | .invalid _ => false

/-- R108's KWKWK condition on a TABLE code with `prefix[c] == NO_CODE`: `c == RUNNING_CODE - 2` and `LAST_CODE != NO_CODE`. -/
def CodeCtx.isNext (x : CodeCtx) (c : Code) : Bool :=
  decide (c.toNat + 2 = x.running.toNat) && decide (x.last ≠ Config.noCode)

/-- The instruction is an encoding of the spec, in the context its code was read in (R101, R108). -/
def Instr.wellFormed (x : CodeCtx) : Instr → Bool
  | .nop => true
  | .init => true
  | .line => true
  | .reservedCommand op => decide (3 ≤ op.toNat)
  | .endCode c => decide (c.toNat = x.endCode)
  | .clear c => decide (c.toNat = x.clearCode)
  | .pixel c => decide (c.toNat < x.clearCode)
  | .known c => decide (x.endCode < c.toNat) && x.defined
  | .kwkwk c => decide (x.endCode < c.toNat) && !x.defined && x.isNext c
  | .invalid c => decide (x.endCode < c.toNat) && !x.defined && !x.isNext c

end Sys2Proof
end

