-- ==== Sys2Proof/Decode.lean ====
section
/-! DEFINITION. The decoder, total on every CMD word and every code, rejecting by name, and after it the encoder, both from
30_encoding.md: R100 to R102 for command words, R105 and R108 for codes. -/

namespace Sys2Proof

/-- Why a CMD word stands for no row of the opcode table. -/
inductive Reject where
  /-- Bits [31:4] of the word are not all 0: CommandError, cause ReservedBits (R102 test 2). -/
  | reservedBits (w : Word)
  deriving DecidableEq, Repr

/-- The field OPCODE, bits [3:0] of a command word (R100). -/
def opcodeField (w : Word) : BitVec 4 := w.extractLsb' 0 4

/-- The reserved field, bits [31:4] of a command word (R100). -/
def reservedField (w : Word) : BitVec 28 := w.extractLsb' 4 28

/-- The opcode map (R101). -/
def decodeOpcode (op : BitVec 4) : Instr :=
  if op = 0x0#4 then .nop
  else if op = 0x1#4 then .init
  else if op = 0x2#4 then .line
  else .reservedCommand op

/-- R102, tests (2) and (3): the reserved field first, then OPCODE. Test (1), STATE = FAULT, and test (4), legality in the
current STATE, are the machine's. -/
def decodeCommand (w : Word) : Except Reject Instr :=
  if reservedField w ≠ 0#28 then .error (.reservedBits w) else .ok (decodeOpcode (opcodeField w))

/-- The class of a code just read, tested in the order of R108 (R14, R112, R192). -/
def classify (x : CodeCtx) (c : Code) : Instr :=
  if c.toNat = x.endCode then .endCode c
  else if c.toNat = x.clearCode then .clear c
  else if c.toNat < x.clearCode then .pixel c
  else if x.defined then .known c
  else if x.isNext c then .kwkwk c
  else .invalid c

/-- The decoder. -/
def decode (x : CodeCtx) : Encoded → Except Reject Instr
  | .command w => decodeCommand w
  | .code c => .ok (classify x c)

/-- A command word from its two fields: OPCODE in [3:0], bits [31:4] zero (R100). -/
def commandWord (op : BitVec 4) : Word := 0#28 ++ op

/-- The encoder: the CMD word of a command (R101), the code of a code class (R108). -/
def encode : Instr → Encoded
  | .nop => .command (commandWord 0x0#4)
  | .init => .command (commandWord 0x1#4)
  | .line => .command (commandWord 0x2#4)
  | .reservedCommand op => .command (commandWord op)
  | .endCode c => .code c
  | .clear c => .code c
  | .pixel c => .code c
  | .known c => .code c
  | .kwkwk c => .code c
  | .invalid c => .code c

/-- The bits of a code of width w in stream order: least significant bit first (R85, R105). -/
def encodeCodeBits (w : Nat) (c : Code) : List Bool := (List.range w).map c.getLsbD

/-- The value of stream bits, the first bit being bit 0: `sum over k of bit(k) * 2^k` (R105). -/
def bitsValue : List Bool → Nat
  | [] => 0
  | b :: r => b.toNat + 2 * bitsValue r

/-- The instruction the decoder reads from a row's word of spec/opcode_table.json. Every row of the table with bits is a
32-bit CMD word; a shorter row has zeros above (log 10). -/
def decodeTableWord (nbits w : Nat) : Option Instr :=
  match decodeCommand (BitVec.ofNat 32 (w % 2 ^ min nbits 32)) with
  | .ok i => some i
  | .error _ => none

end Sys2Proof
end

