-- ==== Sys2Proof/Machine/State.lean ====
section
/-! DEFINITION. The state of POVC-LZW as plain data (10_state.md R20): the engine registers, the host-written registers, the
internal RAMs, the in-flight transaction of each port, the other agents as data, and the model's own counters of free
values; the reasons a step can stop; and the state after a hardware reset (R63, R250). -/

namespace Sys2Proof.Machine

/-- STATE (R23). Encoding 6 is "never taken", so it has no constructor (U10). -/
inductive EngineState where
  | idle
  | initBusy
  | ready
  | lineBusy
  | drainBusy
  | done
  | fault
  deriving DecidableEq, Repr

/-- The engine registers (R23 to R40). -/
structure Engine where
  /-- STATE (R23). -/
  state : EngineState
  /-- MIN_CODE_SIZE, `m` (R24). -/
  minCodeSize : BitVec 4
  /-- CODE_WIDTH (R25). -/
  codeWidth : BitVec 4
  /-- MAX_CODE1 (R26). -/
  maxCode1 : BitVec 13
  /-- RUNNING_CODE (R27). -/
  runningCode : Link
  /-- LAST_CODE (R28). -/
  lastCode : Link
  /-- SHIFT_ACC (R29). -/
  shiftAcc : BitVec 20
  /-- SHIFT_STATE (R30). -/
  shiftState : BitVec 5
  /-- STACK_PTR (R31). -/
  stackPtr : BitVec 13
  /-- SB_REM (R32). -/
  sbRem : BitVec 8
  /-- SB_POS (R33). -/
  sbPos : BitVec 8
  /-- PIXELS_LEFT (R34). -/
  pixelsLeft : BitVec 32
  /-- CUR_WIDTH (R35). -/
  curWidth : BitVec 16
  /-- CUR_HEIGHT (R35). -/
  curHeight : BitVec 16
  /-- CUR_INTERLACE (R35). -/
  curInterlace : Bool
  /-- ROW (R36). -/
  row : BitVec 17
  /-- PASS (R36). -/
  pass : BitVec 2
  /-- COL (R37). -/
  col : BitVec 16
  /-- LAST_LINE (R38). -/
  lastLine : Bool
  /-- SKIPPED (R40). -/
  skipped : Bool
  /-- FAULT_KIND (R39). -/
  faultKind : BitVec 2
  /-- FAULT_CAUSE (R39). -/
  faultCause : BitVec 4
  /-- FAULT_INFO_REG (R39). -/
  faultInfo : Word
  deriving DecidableEq, Repr

/-- The registers the host writes (R21, R52 to R54, R57, R58). -/
structure HostRegs where
  /-- CTRL.INTERLACE (R52). -/
  interlace : Bool
  /-- IMG_WIDTH (R53). -/
  imgWidth : BitVec 16
  /-- IMG_HEIGHT (R54). -/
  imgHeight : BitVec 16
  /-- IRQ_ENABLE: bit 0 LINE_DONE_EN, 1 IMAGE_DONE_EN, 2 FAULT_EN (R57). -/
  irqEnable : BitVec 3
  /-- IRQ_STATUS: bit 0 LINE_DONE, 1 IMAGE_DONE, 2 FAULT (R58). -/
  irqStatus : BitVec 3
  deriving DecidableEq, Repr

/-- The four internal RAMs (R41 to R44), each a list of the entries it lists, indices strictly rising. An entry of a byte RAM
is listed once it has been written. An entry of PREFIX that is not listed reads NO_CODE after ClearPrefix (R81). Before the
first ClearPrefix it holds what the reset left, as an unlisted entry of a byte RAM does (U3). -/
structure Memory where
  /-- ClearPrefix has run since the last hardware reset (R81). -/
  prefixCleared : Bool
  prefixRam : List (Nat × Link)
  suffixRam : List Host.Cell
  stackRam : List Host.Cell
  sbbuf : List Host.Cell
  deriving DecidableEq, Repr

/-- One beat of the pixel port (R61). -/
structure Beat where
  pix : Byte
  row : BitVec 16
  col : BitVec 16
  skip : Bool
  deriving DecidableEq, Repr

/-- The in-flight transaction of each port (R20, R48), and the reset input (R250). -/
structure Ports where
  /-- A byte request is issued and not yet answered (R60). -/
  byteRequest : Bool
  /-- A beat is offered and not yet accepted (R61). -/
  offeredBeat : Option Beat
  /-- `rst` is asserted (R250). -/
  rst : Bool
  deriving DecidableEq, Repr

/-- The byte source: an in-memory buffer of fixed length with a read cursor (R60, R264). -/
structure Source where
  buffer : List Byte
  cursor : Nat
  /-- How many requests it will still answer; none: every one, as R264 demands; `some 0`: never again (U9). -/
  answersLeft : Option Nat
  /-- How many requests the engine has issued (a record, R273). -/
  requests : Nat
  deriving DecidableEq, Repr

/-- The pixel sink: the beats it has accepted, oldest first (R61, R274). -/
structure Sink where
  accepted : List Beat
  /-- How many beats it will still accept; none: every one, as R266 demands; `some 0`: never again (U8). -/
  acceptsLeft : Option Nat
  deriving DecidableEq, Repr

/-- What the host can do at one instant. A register access carries the word index of its register, so a misaligned or narrow
access cannot be expressed (R49). -/
inductive HostEvent where
  /-- A register read at byte offset `4 * index` (R133). -/
  | read (index : BitVec 6)
  /-- A register write at byte offset `4 * index` (R130, R134). -/
  | write (index : BitVec 6) (w : Word)
  /-- The reset input is asserted or released (R250). -/
  | reset (level : Bool)
  /-- The host positions the byte source at the first of these bytes (R254 step 1). -/
  | position (bytes : List Byte)
  deriving DecidableEq, Repr

/-- A host access still to come, and how many engine actions come before it, counted from the access before it (R228). -/
structure BusItem where
  gap : Nat
  event : HostEvent
  deriving DecidableEq, Repr

/-- What a register read returned (R133). -/
structure BusRead where
  index : BitVec 6
  value : Word
  deriving DecidableEq, Repr

/-- The agents around the engine, as data (R8). -/
structure Env where
  source : Source
  sink : Sink
  bus : List BusItem
  reads : List BusRead
  deriving DecidableEq, Repr

/-- The model's own counters, which pick the next free value, and a record of R79's condition; no register of the spec, and no
rule of the block reads them (log 3, log 5, log 17). -/
structure Free where
  draws : Nat
  resets : Nat
  /-- The set-up of R142 is complete: since the last hardware reset an INIT has started, and the last one finished it (R79). -/
  setUp : Bool
  deriving DecidableEq, Repr

/-- The state of POVC-LZW (R20). -/
structure State where
  eng : Engine
  host : HostRegs
  mem : Memory
  ports : Ports
  env : Env
  free : Free
  deriving DecidableEq, Repr

/-- A RAM of the block, as a reason of `Fault.noSuchEntry` names it. -/
inductive RamName where
  | prefixRam
  | suffixRam
  | stackRam
  | sbbuf
  deriving DecidableEq, Repr

/-- Why a step stops. POVC-LZW's own faults are next states (R226); these are what the spec gives no behaviour. -/
inductive Fault where
  /-- Raised by a step when the engine waits for the sink to accept a beat, the sink never will, and no host access is left:
  "stuck" (U8, R266). Safe. -/
  | sinkNeverAccepts
  /-- Raised by a step when the engine waits for the byte source to answer, it never will, and no host access is left:
  "stuck" (U9, R264). Safe. -/
  | sourceNeverAnswers
  /-- Raised where the host positions the byte source while an image is in progress: "this spec does not define the block's
  behaviour after one" (R263, U6). Safe. -/
  | streamChangedInImage
  /-- Raised by an engine action that indexes a RAM outside its entries, which no rule does (R80, R83); only in states no INIT
  reaches. Safe. -/
  | noSuchEntry (ram : RamName) (index : Nat)
  deriving DecidableEq, Repr

/-- Why an instruction has no meaning. -/
inductive Refusal where
  /-- Raised by exec's arm of an instruction whose meaning is not written; no arm does now. Safe. -/
  | notModelled (mnemonic : String)
  deriving DecidableEq, Repr

/-- The engine registers after a hardware reset: every one 0, STATE IDLE (R63). -/
def Engine.reset : Engine where
  state := .idle
  minCodeSize := 0
  codeWidth := 0
  maxCode1 := 0
  runningCode := 0
  lastCode := 0
  shiftAcc := 0
  shiftState := 0
  stackPtr := 0
  sbRem := 0
  sbPos := 0
  pixelsLeft := 0
  curWidth := 0
  curHeight := 0
  curInterlace := false
  row := 0
  pass := 0
  col := 0
  lastLine := false
  skipped := false
  faultKind := 0
  faultCause := 0
  faultInfo := 0

/-- The host-written registers after a hardware reset: every one 0 (R63). -/
def HostRegs.reset : HostRegs where
  interlace := false
  imgWidth := 0
  imgHeight := 0
  irqEnable := 0
  irqStatus := 0

/-- The RAMs after a hardware reset: no entry written, contents unspecified (R63, U3). -/
def Memory.unwritten : Memory where
  prefixCleared := false
  prefixRam := []
  suffixRam := []
  stackRam := []
  sbbuf := []

/-- The ports after a hardware reset: none in flight, `rst` released (R63, R250). -/
def Ports.reset : Ports where
  byteRequest := false
  offeredBeat := none
  rst := false

/-- The machine right after a hardware reset (R63, R250, R251). The agents around it have done nothing yet: an empty byte
source (log 6) that answers every request, a sink that accepts every beat (log 7), no host access to come (log 12). -/
def State.reset : State where
  eng := Engine.reset
  host := HostRegs.reset
  mem := Memory.unwritten
  ports := Ports.reset
  env :=
    { source := { buffer := [], cursor := 0, answersLeft := none, requests := 0 }
      sink := { accepted := [], acceptsLeft := none }
      bus := []
      reads := [] }
  free := { draws := 0, resets := 0, setUp := false }

end Sys2Proof.Machine
end

