-- ==== Sys2Proof/Machine/Flags.lean ====
section
/-! DEFINITION. The status flags of POVC-LZW: BUSY and FAULT as functions of STATE (R45, R56), the STATUS word, the pending
bits of IRQ_STATUS and the interrupt line (R57, R58, R62, R231). POVC-LZW has no condition codes (R45). -/

namespace Sys2Proof.Machine

/-- The encoding of STATE (R23). -/
def stateBits : EngineState → BitVec 3
  | .idle => 0
  | .initBusy => 1
  | .ready => 2
  | .lineBusy => 3
  | .drainBusy => 4
  | .done => 5
  | .fault => 7

/-- STATUS.BUSY: "1 iff STATE is INIT_BUSY, LINE_BUSY or DRAIN_BUSY" (R56). -/
def isBusy : EngineState → Bool
  | .idle => false
  | .initBusy => true
  | .ready => false
  | .lineBusy => true
  | .drainBusy => true
  | .done => false
  | .fault => false

/-- An image is in progress: from INIT until STATE is DONE or FAULT (R96, R263). -/
def imageInProgress : EngineState → Bool
  | .idle => false
  | .initBusy => true
  | .ready => true
  | .lineBusy => true
  | .drainBusy => true
  | .done => false
  | .fault => false

/-- One bit of a word. -/
def bit (b : Bool) : BitVec 1 := BitVec.ofBool b

/-- The STATUS word: STATE [2:0], BUSY [3], FAULT [4], SKIPPED [5], FAULT_KIND [9:8], FAULT_CAUSE [15:12] (R56). -/
def statusWord (e : Engine) : Word :=
  0#16 ++ e.faultCause ++ 0#2 ++ e.faultKind ++ 0#2 ++ bit e.skipped ++ bit (decide (e.state = .fault))
    ++ bit (isBusy e.state) ++ stateBits e.state

/-- The interrupt sources, by their bit of IRQ_STATUS and IRQ_ENABLE (R58, R231). -/
inductive IrqBit where
  | lineDone
  | imageDone
  | fault
  deriving DecidableEq, Repr

/-- The mask of an interrupt source (R58). -/
def irqMask : IrqBit → BitVec 3
  | .lineDone => 0b001
  | .imageDone => 0b010
  | .fault => 0b100

/-- `SetIrq(bit)`: set the pending bit, enabled or not (R231). -/
def setPending (b : IrqBit) (h : HostRegs) : HostRegs := { h with irqStatus := h.irqStatus ||| irqMask b }

/-- The interrupt output: `irq = ((IRQ_STATUS & IRQ_ENABLE) != 0)` (R62). -/
def irq (h : HostRegs) : Bool := decide (h.irqStatus &&& h.irqEnable ≠ 0#3)

end Sys2Proof.Machine
end

