-- ==== Sys2Proof/Machine/Operands.lean ====
section
/-! DEFINITION. What the rules read: the quantities derived from registers (R13), the register map with each register's
fields as the host reads them (R50 to R59, R74 to R78, R133), and what a register write changes (R134). -/

namespace Sys2Proof.Machine

/-- clear_code = 2^m (R13). -/
def clearCode (e : Engine) : Nat := 2 ^ e.minCodeSize.toNat

/-- end_code = clear_code + 1 (R13). -/
def endCode (e : Engine) : Nat := clearCode e + 1

/-- The registers of the register map (R50). -/
inductive Reg where
  | ctrl
  | imgWidth
  | imgHeight
  | cmd
  | status
  | irqEnable
  | irqStatus
  | faultInfo
  | pixelsLeft
  | position
  | column
  | diagWidth
  | diagCodes
  | diagRun
  | diagStack
  | diagShift
  deriving DecidableEq, Repr

/-- The register at byte offset `4 * index`; none: a reserved offset, 0x40 to 0xFC (R50, R51). -/
def regAt (index : BitVec 6) : Option Reg :=
  match index.toNat with
  | 0 => some .ctrl
  | 1 => some .imgWidth
  | 2 => some .imgHeight
  | 3 => some .cmd
  | 4 => some .status
  | 5 => some .irqEnable
  | 6 => some .irqStatus
  | 7 => some .faultInfo
  | 8 => some .pixelsLeft
  | 9 => some .position
  | 10 => some .column
  | 11 => some .diagWidth
  | 12 => some .diagCodes
  | 13 => some .diagRun
  | 14 => some .diagStack
  | 15 => some .diagShift
  | _ => none

/-- The word index of CMD, offset 0x0C (R50). -/
def cmdIndex : BitVec 6 := 3#6

/-- The word a read returns when every field reads exactly; reserved fields are 0 and CMD reads 0 (R51 to R59, R74 to R78). -/
def exactValue (r : Reg) (e : Engine) (h : HostRegs) : Word :=
  match r with
  | .ctrl => 0#31 ++ bit h.interlace
  | .imgWidth => 0#16 ++ h.imgWidth
  | .imgHeight => 0#16 ++ h.imgHeight
  | .cmd => 0#32
  | .status => statusWord e
  | .irqEnable => 0#29 ++ h.irqEnable
  | .irqStatus => 0#29 ++ h.irqStatus
  | .faultInfo => e.faultInfo
  | .pixelsLeft => e.pixelsLeft
  | .position => 0#13 ++ e.pass ++ e.row
  | .column => 0#16 ++ e.col
  | .diagWidth => 0#3 ++ e.maxCode1 ++ 0#4 ++ e.codeWidth ++ 0#4 ++ e.minCodeSize
  | .diagCodes => 0#7 ++ BitVec.ofNat 9 (endCode e) ++ 0#7 ++ BitVec.ofNat 9 (clearCode e)
  | .diagRun => 0#3 ++ e.lastCode ++ 0#3 ++ e.runningCode
  | .diagStack => e.sbPos ++ e.sbRem ++ 0#3 ++ e.stackPtr
  | .diagShift => 0#3 ++ e.shiftState ++ 0#4 ++ e.shiftAcc

/-- The defined fields of a diagnostic register, the ones that read as unspecified values while BUSY = 1 (R78, U4); none: the
register reads exactly at every instant (R56, R270, decision D27; STATUS.SKIPPED among them, log 13). -/
def busyMask : Reg → Option Word
  | .ctrl => none
  | .imgWidth => none
  | .imgHeight => none
  | .cmd => none
  | .status => none
  | .irqEnable => none
  | .irqStatus => none
  | .faultInfo => none
  | .pixelsLeft => some 0xFFFFFFFF#32
  | .position => some 0x0007FFFF#32
  | .column => some 0x0000FFFF#32
  | .diagWidth => some 0x1FFF0F0F#32
  | .diagCodes => some 0x01FF01FF#32
  | .diagRun => some 0x1FFF1FFF#32
  | .diagStack => some 0xFFFF1FFF#32
  | .diagShift => some 0x1F0FFFFF#32

/-- What a register write other than a CMD write changes; reserved bits of the word are ignored (R51, R58, R134). -/
def writeHostReg (r : Reg) (w : Word) (h : HostRegs) : HostRegs :=
  match r with
  | .ctrl => { h with interlace := w.getLsbD 0 }
  | .imgWidth => { h with imgWidth := w.extractLsb' 0 16 }
  | .imgHeight => { h with imgHeight := w.extractLsb' 0 16 }
  | .cmd => h
  | .status => h
  | .irqEnable => { h with irqEnable := w.extractLsb' 0 3 }
  | .irqStatus => { h with irqStatus := h.irqStatus &&& ~~~(w.extractLsb' 0 3) }
  | .faultInfo => h
  | .pixelsLeft => h
  | .position => h
  | .column => h
  | .diagWidth => h
  | .diagCodes => h
  | .diagRun => h
  | .diagStack => h
  | .diagShift => h

end Sys2Proof.Machine
end

