-- ==== Sys2Proof/Machine/Ops.lean ====
section
/-! DEFINITION. The named operations over the state: the parts of State updated one at a time, the RAM access primitives
(20_memory.md R80 to R84), and TAKING A FAULT as one shared operation (60_exceptions.md R226). There is no return from a
fault: "STATE = FAULT holds until a hardware reset" (R229). -/

namespace Sys2Proof.Machine

/-- Update the engine registers. -/
def State.mapEng (f : Engine → Engine) (s : State) : State := { s with eng := f s.eng }
/-- Update the host-written registers. -/
def State.mapHost (f : HostRegs → HostRegs) (s : State) : State := { s with host := f s.host }
/-- Update the RAMs. -/
def State.mapMem (f : Memory → Memory) (s : State) : State := { s with mem := f s.mem }
/-- Update the ports. -/
def State.mapPorts (f : Ports → Ports) (s : State) : State := { s with ports := f s.ports }
/-- Update the other agents. -/
def State.mapEnv (f : Env → Env) (s : State) : State := { s with env := f s.env }
/-- Update the model's own counters and its record. -/
def State.mapFree (f : Free → Free) (s : State) : State := { s with free := f s.free }
/-- Advance the counter of free draws (log 3, log 4). -/
def State.drawn (s : State) : State := { s with free := { s.free with draws := s.free.draws + 1 } }

/-! ## RAM cells: a list of entries, indices strictly rising -/

/-- The entry listed at an index. -/
def cellGet {w : Nat} : List (Nat × BitVec w) → Nat → Option (BitVec w)
  | [], _ => none
  | (j, v) :: r, i => if j = i then some v else cellGet r i

/-- List a value at an index, in place. -/
def cellSet {w : Nat} : List (Nat × BitVec w) → Nat → BitVec w → List (Nat × BitVec w)
  | [], i, v => [(i, v)]
  | (j, u) :: r, i, v =>
    if i < j then (i, v) :: (j, u) :: r
    else if i = j then (i, v) :: r
    else (j, u) :: cellSet r i v

/-- Take the entry at an index off the list. -/
def cellErase {w : Nat} : List (Nat × BitVec w) → Nat → List (Nat × BitVec w)
  | [], _ => []
  | (j, u) :: r, i => if j = i then r else (j, u) :: cellErase r i

/-- Every index is at least `lo` and below `depth`, and the indices rise strictly. -/
def cellsRise {w : Nat} (depth : Nat) : Nat → List (Nat × BitVec w) → Bool
  | _, [] => true
  | lo, (i, _) :: r => decide (lo ≤ i) && decide (i < depth) && cellsRise depth (i + 1) r

/-- No listed entry holds a value. -/
def cellsAvoid {w : Nat} (x : BitVec w) : List (Nat × BitVec w) → Bool
  | [] => true
  | (_, v) :: r => decide (v ≠ x) && cellsAvoid x r

/-- The RAMs are in canonical form: indices rise inside each RAM's size, and after ClearPrefix no listed entry of PREFIX is
NO_CODE, which is what an unlisted one reads as. So equal RAMs are equal lists. -/
def Memory.wf (m : Memory) : Bool :=
  cellsRise Config.tableSize 0 m.prefixRam && (!m.prefixCleared || cellsAvoid Config.noCode m.prefixRam)
    && cellsRise Config.tableSize 0 m.suffixRam && cellsRise Config.stackDepth 0 m.stackRam
    && cellsRise Config.subBlockMax 0 m.sbbuf

/-! ## RAM access primitives (R80 to R84) -/

/-- What an unlisted entry of PREFIX reads as: NO_CODE after ClearPrefix, else what the reset left (R63, R81, U3). -/
def prefixUnlisted (s : State) (j : Nat) : Link :=
  bif s.mem.prefixCleared then Config.noCode else Config.freePrefix s.free.resets j

/-- `prefix[j]` (R80). -/
def prefixAt (s : State) (j : Nat) : Link := (cellGet s.mem.prefixRam j).getD (prefixUnlisted s j)

/-- `prefix[j] <- v` (R80), in canonical form. -/
def setPrefix (j : Nat) (v : Link) (m : Memory) : Memory :=
  if m.prefixCleared ∧ v = Config.noCode then { m with prefixRam := cellErase m.prefixRam j }
  else { m with prefixRam := cellSet m.prefixRam j v }

/-- `ClearPrefix()`: NO_CODE in every entry, in one action (R81). -/
def clearPrefix (m : Memory) : Memory := { m with prefixCleared := true, prefixRam := [] }

/-- `suffix[j]` (R80). -/
def suffixAt (s : State) (j : Nat) : Byte :=
  (cellGet s.mem.suffixRam j).getD (Config.freeByte .suffix s.free.resets j)

/-- `suffix[j] <- v` (R80). -/
def setSuffix (j : Nat) (v : Byte) (m : Memory) : Memory := { m with suffixRam := cellSet m.suffixRam j v }

/-- `stack[j]` (R82). -/
def stackAt (s : State) (j : Nat) : Byte :=
  (cellGet s.mem.stackRam j).getD (Config.freeByte .stack s.free.resets j)

/-- `stack[j] <- v` (R82). -/
def setStack (j : Nat) (v : Byte) (m : Memory) : Memory := { m with stackRam := cellSet m.stackRam j v }

/-- `sbbuf[k]` (R83). -/
def sbbufAt (s : State) (k : Nat) : Byte :=
  (cellGet s.mem.sbbuf k).getD (Config.freeByte .sbbuf s.free.resets k)

/-- `sbbuf[k] <- b` (R83). -/
def setSbbuf (k : Nat) (b : Byte) (m : Memory) : Memory := { m with sbbuf := cellSet m.sbbuf k b }

/-! ## Taking a fault (R221, R222, R226) -/

/-- The causes of a fault (R222). -/
inductive Cause where
  | minCodeSizeByte
  | subBlockLength
  | subBlockContent
  | drainLength
  | drainContent
  | badMinCodeSize
  | zeroLengthSubBlock
  | invalidCode
  | earlyEndCode
  | badChain
  | traceRunaway
  | widthOverflow
  | reservedBits
  | reservedOpcode
  | illegalInState
  deriving DecidableEq, Repr

/-- FAULT_KIND of a cause: 1 TruncatedInput, 2 ImageDefect, 3 CommandError (R221, R222). -/
def causeKind : Cause → BitVec 2
  | .minCodeSizeByte => 1
  | .subBlockLength => 1
  | .subBlockContent => 1
  | .drainLength => 1
  | .drainContent => 1
  | .badMinCodeSize => 2
  | .zeroLengthSubBlock => 2
  | .invalidCode => 2
  | .earlyEndCode => 2
  | .badChain => 2
  | .traceRunaway => 2
  | .widthOverflow => 2
  | .reservedBits => 3
  | .reservedOpcode => 3
  | .illegalInState => 3

/-- FAULT_CAUSE of a cause, numbered per kind (R222). -/
def causeCode : Cause → BitVec 4
  | .minCodeSizeByte => 1
  | .subBlockLength => 2
  | .subBlockContent => 3
  | .drainLength => 4
  | .drainContent => 5
  | .badMinCodeSize => 1
  | .zeroLengthSubBlock => 2
  | .invalidCode => 3
  | .earlyEndCode => 4
  | .badChain => 5
  | .traceRunaway => 6
  | .widthOverflow => 7
  | .reservedBits => 1
  | .reservedOpcode => 2
  | .illegalInState => 3

/-- The engine registers a fault entry writes: the record and STATE, nothing else (R226). -/
def recordFault (c : Cause) (info : Word) (e : Engine) : Engine :=
  { e with faultKind := causeKind c, faultCause := causeCode c, faultInfo := info, state := .fault }

/-- `raise Fault(kind, cause, info)`, one atomic action; nothing happens in FAULT (R226). -/
def takeFault (c : Cause) (info : Word) (s : State) : State :=
  if s.eng.state = .fault then s
  else (s.mapEng (recordFault c info)).mapHost (setPending .fault)

end Sys2Proof.Machine
end

