-- ==== Sys2Proof/Machine/Commands.lean ====
section
/-! DEFINITION. The commands (40_commands.md): what the CMD write itself does, "atomically with the write, before any other
action of the engine" (R130). The rest of INIT and LINE are engine steps (Machine/Engine.lean, log 11). -/

namespace Sys2Proof.Machine

/-- What a command is in a STATE (R132). -/
inductive Legality where
  | legal
  | illegalInState
  | ignored
  deriving DecidableEq, Repr

/-- R132's column NOP. -/
def nopIn : EngineState → Legality
  | .idle => .legal
  | .initBusy => .legal
  | .ready => .legal
  | .lineBusy => .legal
  | .drainBusy => .legal
  | .done => .legal
  | .fault => .ignored

/-- R132's column INIT. -/
def initIn : EngineState → Legality
  | .idle => .legal
  | .initBusy => .illegalInState
  | .ready => .illegalInState
  | .lineBusy => .illegalInState
  | .drainBusy => .illegalInState
  | .done => .legal
  | .fault => .ignored

/-- R132's column LINE. -/
def lineIn : EngineState → Legality
  | .idle => .illegalInState
  | .initBusy => .illegalInState
  | .ready => .legal
  | .lineBusy => .illegalInState
  | .drainBusy => .illegalInState
  | .done => .illegalInState
  | .fault => .ignored

/-- The end of R102 for a command that decoded: it starts, it is refused as IllegalInState, or it is ignored (R131, R132). -/
def startCommand (l : Legality) (word : Word) (start : State → State) (s : State) : State :=
  match l with
  | .legal => start s
  | .illegalInState => takeFault .illegalInState word s
  | .ignored => s

/-- The entry actions of INIT (R141). Its set-up is still to come (log 17). -/
def enterInit (s : State) : State :=
  (s.mapEng fun e =>
    { e with
      curWidth := s.host.imgWidth
      curHeight := s.host.imgHeight
      curInterlace := s.host.interlace
      skipped := false
      state := .initBusy }).mapFree fun f => { f with setUp := false }

/-- The entry actions of LINE (R146). -/
def enterLine (s : State) : State :=
  s.mapEng fun e =>
    let left := e.pixelsLeft - e.curWidth.setWidth 32
    { e with
      state := .lineBusy
      pixelsLeft := left
      lastLine := decide (left = 0#32)
      col := 0 }

/-- The CMD write of NOP (R138). -/
def writeNop (s : State) : State := startCommand (nopIn s.eng.state) (commandWord 0x0#4) id s

/-- The CMD write of INIT (R141). -/
def writeInit (s : State) : State := startCommand (initIn s.eng.state) (commandWord 0x1#4) enterInit s

/-- The CMD write of LINE (R146). -/
def writeLine (s : State) : State := startCommand (lineIn s.eng.state) (commandWord 0x2#4) enterLine s

/-- A CMD write the decoder or the opcode map refuses; ignored in FAULT (R102, R131, R229). -/
def refuseWord (c : Cause) (w : Word) (s : State) : State := takeFault c w s

/-- NOP: no effect; ignored in FAULT (R132, R138). -/
def execNop (s : State) : Host.Outcome State Fault Refusal := .next (writeNop s)

/-- INIT: latch the geometry, STATE INIT_BUSY (R140, R141); IllegalInState outside IDLE and DONE (R132). -/
def execInit (s : State) : Host.Outcome State Fault Refusal := .next (writeInit s)

/-- LINE: STATE LINE_BUSY, the pixel count, LAST_LINE and COL (R145, R146); IllegalInState outside READY (R132). -/
def execLine (s : State) : Host.Outcome State Fault Refusal := .next (writeLine s)

/-- A reserved opcode: CommandError, cause ReservedOpcode, info the word (R102, R131). -/
def execReservedCommand (op : BitVec 4) (s : State) : Host.Outcome State Fault Refusal :=
  .next (refuseWord .reservedOpcode (commandWord op) s)

/-- A CMD write as one action of the register bus (R130, R131): R102's tests in order. It is what `exec` does with the
decoded word; the accesses that land inside an engine step use it. -/
def writeCmd (w : Word) (s : State) : State :=
  match decodeCommand w with
  | .error (.reservedBits v) => refuseWord .reservedBits v s
  | .ok .nop => writeNop s
  | .ok .init => writeInit s
  | .ok .line => writeLine s
  | .ok (.reservedCommand op) => refuseWord .reservedOpcode (commandWord op) s
  | .ok (.endCode _) => s
  | .ok (.clear _) => s
  | .ok (.pixel _) => s
  | .ok (.known _) => s
  | .ok (.kwkwk _) => s
  | .ok (.invalid _) => s

end Sys2Proof.Machine
end

