-- ==== Sys2Proof/Machine/Bus.lean ====
section
/-! DEFINITION. The host's accesses (R49, R133, R134), the reset input (R250), and the engine's elementary actions: before
each of them the accesses that are due land (R92, R228, log 2). -/

namespace Sys2Proof.Machine

/-! ## The engine's thread of actions -/

/-- Why a thread of engine actions ends early. -/
inductive Stop where
  /-- The command in progress has ended: a fault entry or a hardware reset (R226, R227, R250). -/
  | ended
  /-- The engine waits for a port whose other side never completes the transaction (U8, U9). -/
  | waiting
  /-- The spec gives no behaviour from here. -/
  | undefined (f : Fault)
  deriving DecidableEq, Repr

/-- A thread of engine actions: from a state, how it ends and in which state, and the states it goes through, one after each
action and each host access that lands (R8, R92). -/
abbrev Eng (α : Type) := ExceptT Stop (StateT State (WriterT (List State) Id)) α

/-- A thread that takes no action: what it does to the state is not an instant of its own. -/
def Eng.of {α : Type} (f : State → EStateM.Result Stop State α) : Eng α :=
  ExceptT.mk fun s => WriterT.mk <|
    match f s with
    | .ok a t => ((.ok a, t), [])
    | .error e t => ((.error e, t), [])

/-- One action, or one host access: it takes effect at one instant. One the machine stops before is none. -/
def Eng.did {α : Type} (f : State → EStateM.Result Stop State α) : Eng α :=
  ExceptT.mk fun s => WriterT.mk <|
    match f s with
    | .ok a t => ((.ok a, t), [t])
    | .error .ended t => ((.error .ended, t), [t])
    | .error e t => ((.error e, t), [])

/-- How a thread ends. -/
def Eng.run {α : Type} (x : Eng α) (s : State) : EStateM.Result Stop State α :=
  match (WriterT.run (StateT.run (ExceptT.run x) s)).1 with
  | (.ok a, t) => .ok a t
  | (.error e, t) => .error e t

/-- The states a thread goes through, in order. -/
def Eng.passed {α : Type} (x : Eng α) (s : State) : List State := (WriterT.run (StateT.run (ExceptT.run x) s)).2

/-- The outcome of a step that runs a thread: a command that has ended and an engine that waits are next states. -/
def Eng.outcome (x : Eng Unit) (s : State) : Host.Outcome State Fault Refusal :=
  match x.run s with
  | .ok _ t => .next t
  | .error .ended t => .next t
  | .error .waiting t => .next t
  | .error (.undefined f) _ => .fault f

/-- The state, read without an action. -/
def look : Eng State := Eng.of fun s => .ok s s

/-! ## Host accesses -/

/-- The value a register read returns, and the state after it: unspecified fields are free draws while BUSY = 1 (R78, R133). -/
def readReg (index : BitVec 6) (s : State) : Word × State :=
  match regAt index with
  | none => (0#32, s)
  | some r =>
    match isBusy s.eng.state, busyMask r with
    | true, some mask => (Config.freeDiag s.free.draws &&& mask, s.drawn)
    | _, _ => (exactValue r s.eng s.host, s)

/-- A register read: the value goes to the host, nothing else changes (R49, R133). -/
def doRead (index : BitVec 6) (s : State) : State :=
  (readReg index s).2.mapEnv fun v => { v with reads := v.reads ++ [{ index := index, value := (readReg index s).1 }] }

/-- A register write other than to CMD; no effect at a reserved offset (R51, R134). -/
def writeReg (index : BitVec 6) (w : Word) (s : State) : State :=
  match regAt index with
  | none => s
  | some r => s.mapHost (writeHostReg r w)

/-- A register write (R130, R134). While `rst` is asserted every register holds its reset value (R250). -/
def doWrite (index : BitVec 6) (w : Word) (s : State) : State :=
  if s.ports.rst then s
  else if index = cmdIndex then writeCmd w s
  else writeReg index w s

/-- A hardware reset: R63's values, transactions abandoned on both sides, RAM contents and the source's next bytes
unspecified (R250, log 5, log 6). What the sink has accepted, what reads have returned and the request count are records and
stay (log 17). DESIGN CHOICE (log 7): answersLeft and acceptsLeft stay too, so an agent that has stopped completing
transactions does not start again, although R250 resets both agents with the block. -/
def hardReset (s : State) : State :=
  { eng := Engine.reset
    host := HostRegs.reset
    mem := Memory.unwritten
    ports := { Ports.reset with rst := true }
    env := { s.env with source := { s.env.source with buffer := Config.freeStream (s.free.resets + 1), cursor := 0 } }
    free := { s.free with resets := s.free.resets + 1, setUp := false } }

/-- The reset input changes level: asserted, the block resets; at its release it stands at the reset values (R250, log 9). -/
def doReset (level : Bool) (s : State) : State :=
  if level then hardReset s else s.mapPorts fun p => { p with rst := false }

/-- The byte source is positioned at new bytes (R254). DESIGN CHOICE (log 8): in FAULT this can happen while a byte request the
faulted command left is in flight (R227), and that request is then answered from the new bytes, even where the source had answered
Exhausted before (R264, U7). -/
def positionSource (bytes : List Byte) (s : State) : State :=
  s.mapEnv fun v => { v with source := { v.source with buffer := bytes, cursor := 0 } }

/-- One host access lands, `rest` being the accesses still to come. It ends the command in progress when it faults the block
or resets it (R227, R250). DESIGN CHOICE (log 9): the host can position the byte source while `rst` is asserted, and the new
bytes stay after its release, although R250 resets the source with the block. -/
def land (event : HostEvent) (rest : List BusItem) : Eng Unit := Eng.did fun s0 =>
  let s := s0.mapEnv fun v => { v with bus := rest }
  match event with
  | .read index => .ok () (doRead index s)
  | .write index w =>
    let t := doWrite index w s
    if t.eng.state = .fault then .error .ended t else .ok () t
  | .reset true => .error .ended (doReset true s)
  | .reset false => .ok () (doReset false s)
  | .position bytes =>
    if imageInProgress s.eng.state then .error (.undefined .streamChangedInImage) s
    else .ok () (positionSource bytes s)

/-- Every access that is due before the next engine action lands; the one after them is one action nearer. -/
def landDue : List BusItem → Eng Unit
  | [] => pure ()
  | it :: rest =>
    if it.gap = 0 then do
      land it.event rest
      landDue rest
    else Eng.of fun s => .ok () (s.mapEnv fun v => { v with bus := { it with gap := it.gap - 1 } :: rest })

/-- The point before an engine action, where host accesses land (R228). -/
def tick : Eng Unit := do
  let s ← look
  landDue s.env.bus

/-! ## Elementary engine actions -/

/-- One engine action that always succeeds. -/
def act (f : State → State) : Eng Unit := do
  tick
  Eng.did fun s => .ok () (f s)

/-- `r <- v` on an engine register, or on the registers of one action: those that an equation of R79 ties together change at
one instant, since R79 holds in FAULT, which a CommandError between them would enter (log 16). -/
def wr (f : Engine → Engine) : Eng Unit := act (State.mapEng f)

/-- A RAM write. An index outside the RAM is no entry (R80, R83). -/
def wrRam (ram : RamName) (depth index : Nat) (f : Memory → Memory) : Eng Unit := do
  tick
  Eng.did fun s => if index < depth then .ok () (s.mapMem f) else .error (.undefined (.noSuchEntry ram index)) s

/-- The check that a RAM read names an entry of the RAM (R80, R83). -/
def inRam (ram : RamName) (depth index : Nat) : Eng Unit := Eng.of fun s =>
  if index < depth then .ok () s else .error (.undefined (.noSuchEntry ram index)) s

/-- `SetIrq(bit)` (R231). -/
def setIrq (b : IrqBit) : Eng Unit := act (State.mapHost (setPending b))

/-- `raise Fault(kind, cause, info)`: the fault entry, and the end of the command in progress (R226). -/
def raise {α : Type} (c : Cause) (info : Word) : Eng α := do
  tick
  Eng.did fun s => .error .ended (takeFault c info s)

/-- One transaction less in the other side's patience; none: it never completes another (U8, U9). -/
def spend : Option Nat → Option (Option Nat)
  | none => some none
  | some 0 => none
  | some (n + 1) => some (some n)

/-- The byte source answers the request in flight: `Byte(b)` and the cursor moves, or `Exhausted` and it does not (R60). The
outer option: whether it answers at all (U9). -/
def sourceAnswers (s : State) : Option (Option Byte × State) :=
  match spend s.env.source.answersLeft with
  | none => none
  | some left =>
    let byte := s.env.source.buffer[s.env.source.cursor]?
    let moved := if byte.isSome then s.env.source.cursor + 1 else s.env.source.cursor
    some (byte, (s.mapEnv fun v => { v with source := { v.source with cursor := moved, answersLeft := left } }).mapPorts
      fun p => { p with byteRequest := false })

/-- The sink accepts the beat in flight, if it ever does (R61, U8). -/
def sinkAccepts (s : State) : Option State :=
  match s.ports.offeredBeat, spend s.env.sink.acceptsLeft with
  | some beat, some left =>
    some ((s.mapEnv fun v => { v with sink := { accepted := v.sink.accepted ++ [beat], acceptsLeft := left } }).mapPorts
      fun p => { p with offeredBeat := none })
  | _, _ => none

/-- `ReadSource()`: one transaction on the byte-source port, none for `Exhausted` (R12, R60). -/
def readSource : Eng (Option Byte) := do
  act fun s => (s.mapEnv fun v => { v with source := { v.source with requests := v.source.requests + 1 } }).mapPorts
    fun p => { p with byteRequest := true }
  tick
  Eng.did fun s =>
    match sourceAnswers s with
    | some (byte, t) => .ok byte t
    | none => .error .waiting s

/-- One transaction on the pixel port: a beat is offered, then accepted when the sink chooses (R61). -/
def offerWith (offer : State → State) : Eng Unit := do
  act offer
  tick
  Eng.did fun s =>
    match sinkAccepts s with
    | some t => .ok () t
    | none => .error .waiting s

/-- The beat of `EmitPixel(pix, row, col, 0)` (R12, R61). -/
def offerBeat (beat : Beat) : Eng Unit := offerWith (State.mapPorts fun p => { p with offeredBeat := some beat })

/-- The offer of the beat `EmitPixel(<unspecified>, ROW[15:0], COL, 1)`: its pixel is a free draw (R61, R180, U2; log 3). -/
def offerSkip (s : State) : State :=
  (s.mapPorts fun p =>
    { p with
      offeredBeat :=
        some { pix := Config.freePix s.free.draws, row := s.eng.row.setWidth 16, col := s.eng.col, skip := true } }).drawn

end Sys2Proof.Machine
end

