-- ==== Sys2Proof/Machine/CodeReader.lean ====
section
/-! DEFINITION. The code reader (41_code_reader.md): the block-aware byte reader, ReadCode, which fetches the engine's next
code, and one round of the drain. -/

namespace Sys2Proof.Machine

/-- The bytes `k .. k + n - 1` of `FetchSubBlock(L, cause)`; `exhausted` as in R162's loop. -/
def fetchBytes (policy : ShortReadPolicy) (len : Nat) (cause : Cause) : Nat → Nat → Bool → Eng Unit
  | 0, _, _ => pure ()
  | n + 1, k, true => do
    wrRam .sbbuf Config.subBlockMax k (setSbbuf k 0)
    fetchBytes policy len cause n (k + 1) true
  | n + 1, k, false => do
    match ← readSource with
    | some b => do
      wrRam .sbbuf Config.subBlockMax k (setSbbuf k b)
      fetchBytes policy len cause n (k + 1) false
    | none =>
      match policy with
      | .fault => raise cause (BitVec.ofNat 32 (len * 256 + k))
      | .zeroFill => do
        wrRam .sbbuf Config.subBlockMax k (setSbbuf k 0)
        fetchBytes policy len cause n (k + 1) true

/-- `FetchSubBlock(L, cause)` under a short-read policy (R162). -/
def fetchSubBlockUnder (policy : ShortReadPolicy) (len : Byte) (cause : Cause) : Eng Unit :=
  fetchBytes policy len.toNat cause len.toNat 0 false

/-- `FetchSubBlock(L, cause)` under this machine's SHORT_READ_POLICY (R10, R162). -/
def fetchSubBlock (len : Byte) (cause : Cause) : Eng Unit := fetchSubBlockUnder Config.shortReadPolicy len cause

/-- `NextDataByte()`, a new sub-block (R161). -/
def newSubBlock : Eng Unit := do
  match ← readSource with
  | none => raise .subBlockLength 0
  | some len =>
    if len = 0 then raise .zeroLengthSubBlock 0
    else do
      fetchSubBlock len .subBlockContent
      wr fun e => { e with sbRem := len, sbPos := 0 }

/-- `NextDataByte()` (R161, R163). -/
def nextDataByte : Eng Byte := do
  let s ← look
  if s.eng.sbRem = 0 then newSubBlock else pure ()
  let s ← look
  inRam .sbbuf Config.subBlockMax s.eng.sbPos.toNat
  let b := sbbufAt s s.eng.sbPos.toNat
  wr fun e => { e with sbPos := e.sbPos + 1, sbRem := e.sbRem - 1 }
  pure b

/-- `Fill()` (R164): at most n data bytes, until CODE_WIDTH bits are buffered. -/
def fill : Nat → Eng Unit
  | 0 => pure ()
  | n + 1 => do
    let s ← look
    if s.eng.shiftState.toNat < s.eng.codeWidth.toNat then do
      let b ← nextDataByte
      wr fun e =>
        { e with shiftAcc := e.shiftAcc ||| (b.setWidth 20 <<< e.shiftState.toNat), shiftState := e.shiftState + 8 }
      fill n
    else pure ()

/-- "At most two bytes are read per code (CODE_WIDTH ≤ 12 ≤ 16)" (R164). -/
abbrev maxBytesPerCode : Nat := 2

/-- `BumpRunningCode()` with the width growth inside it (R166, R167). -/
def bumpRunningCode : Eng Unit := do
  let s ← look
  if s.eng.runningCode.toNat < Config.runningCodeCap then do
    wr fun e => { e with runningCode := e.runningCode + 1 }
    let s ← look
    if s.eng.maxCode1 < s.eng.runningCode ∧ s.eng.codeWidth.toNat < Config.maxCodeBits then do
      wr fun e => { e with maxCode1 := e.maxCode1 <<< 1, codeWidth := e.codeWidth + 1 }
    else pure ()
  else pure ()

/-- `SHIFT_ACC[w-1:0]` as a code, w at most 12 (R105, R165). -/
def lowBits (acc : BitVec 20) (w : Nat) : Code := BitVec.ofNat 12 (acc.toNat % 2 ^ w)

/-- `ReadCode()` (R165): the next code of the stream. -/
def readCode : Eng Code := do
  let s ← look
  if Config.maxCodeBits < s.eng.codeWidth.toNat then raise .widthOverflow (s.eng.codeWidth.setWidth 32)
  else do
    fill maxBytesPerCode
    let s ← look
    let w := s.eng.codeWidth
    let c := lowBits s.eng.shiftAcc w.toNat
    wr fun e => { e with shiftAcc := e.shiftAcc >>> w.toNat }
    wr fun e => { e with shiftState := e.shiftState - w.setWidth 5 }
    bumpRunningCode
    pure c

/-- What a code's class depends on, read from the state just after the code was read (R108, R112). -/
def codeCtx (s : State) (c : Code) : CodeCtx where
  m := s.eng.minCodeSize
  running := s.eng.runningCode
  last := s.eng.lastCode
  defined := decide (prefixAt s c.toNat ≠ Config.noCode)

/-- The start of `Drain()` (R172). -/
def startDrain : Eng Unit := do
  wr fun e => { e with state := .drainBusy }
  wr fun e => { e with sbRem := 0 }
  wr fun e => { e with sbPos := 0 }

/-- The command that drained is complete: STATE becomes DONE, which sets IMAGE_DONE (R143, R149, R231), at one instant, so that
no host access finds BUSY = 0 before the command's last effect (R92, R271; log 14). -/
def finishImage : Eng Unit :=
  act fun s => (s.mapEng fun e => { e with state := .done }).mapHost (setPending .imageDone)

/-- One round of `Drain()`'s loop (R172): a length byte, and the terminator ends the command. -/
def drainRound : Eng Unit := do
  match ← readSource with
  | none => raise .drainLength 0
  | some len => if len = 0 then finishImage else fetchSubBlock len .drainContent

end Sys2Proof.Machine
end

