-- ==== Sys2Proof/Machine/Codes.lean ====
section
/-! DEFINITION. The code classes (42_code_classes.md) over the shared operations: pixel beats, the trace-back stack, the chain
walks, the table append. One definition for each class. -/

namespace Sys2Proof.Machine

/-- `EmitPixel(pix, ROW[15:0], COL, 0)` (R12, R61). -/
def emitPixel (pix : Byte) : Eng Unit := do
  let s ← look
  offerBeat { pix := pix, row := s.eng.row.setWidth 16, col := s.eng.col, skip := false }

/-- `EmitPixel(<unspecified>, ROW[15:0], COL, 1)` (R180). -/
def emitSkip : Eng Unit := offerWith offerSkip

/-- `COL <- COL + 1`. -/
def nextCol : Eng Unit := wr fun e => { e with col := e.col + 1 }

/-- `Push(v)` while tracing a code (R82). -/
def push (code : Code) (v : Byte) : Eng Unit := do
  let s ← look
  if s.eng.stackPtr.toNat = Config.stackDepth then raise .traceRunaway (code.setWidth 32)
  else do
    wrRam .stackRam Config.stackDepth s.eng.stackPtr.toNat (setStack s.eng.stackPtr.toNat v)
    wr fun e => { e with stackPtr := e.stackPtr + 1 }

/-- `Pop()` (R82). -/
def pop : Eng Byte := do
  wr fun e => { e with stackPtr := e.stackPtr - 1 }
  let s ← look
  inRam .stackRam Config.stackDepth s.eng.stackPtr.toNat
  pure (stackAt s s.eng.stackPtr.toNat)

/-- The loop of `PopString()`, at most n times: one pixel of the stack, while there is one and the row has room (R147, R189). -/
def popPixels : Nat → Eng Unit
  | 0 => pure ()
  | n + 1 => do
    let s ← look
    if s.eng.stackPtr ≠ 0 ∧ s.eng.col < s.eng.curWidth then do
      let v ← pop
      emitPixel v
      nextCol
      popPixels n
    else pure ()

/-- `PopString()` (R189), and the same loop at the start of a LINE (R147): STACK_PTR falls at each round. -/
def popString : Eng Unit := do
  let s ← look
  popPixels s.eng.stackPtr.toNat

/-- The walk of `Trace(start, code)` with n steps left of TRACE_LIMIT: each suffix is pushed, then the root (R188). -/
def traceFrom (code : Code) : Nat → Link → Eng Link
  | n, p => do
    let s ← look
    if p.toNat < clearCode s.eng then do
      push code (p.setWidth 8)
      pure p
    else if p.toNat = clearCode s.eng then raise .badChain (code.setWidth 32)
    else if 4095 < p.toNat ∨ prefixAt s p.toNat = Config.noCode then raise .badChain (code.setWidth 32)
    else
      match n with
      | 0 => raise .traceRunaway (code.setWidth 32)
      | n + 1 => do
        push code (suffixAt s p.toNat)
        traceFrom code n (prefixAt s p.toNat)

/-- `Trace(start, code)` (R188). -/
def trace (start : Link) (code : Code) : Eng Link := traceFrom code Config.traceLimit start

/-- The walk of `Root(start, code)` with n steps left of TRACE_LIMIT (R188). -/
def rootFrom (code : Code) : Nat → Link → Eng Link
  | n, p => do
    let s ← look
    if p.toNat < clearCode s.eng then pure p
    else if p.toNat = clearCode s.eng then raise .badChain (code.setWidth 32)
    else if 4095 < p.toNat ∨ prefixAt s p.toNat = Config.noCode then raise .badChain (code.setWidth 32)
    else
      match n with
      | 0 => raise .traceRunaway (code.setWidth 32)
      | n + 1 => rootFrom code n (prefixAt s p.toNat)

/-- `Root(start, code)` (R188). -/
def root (start : Link) (code : Code) : Eng Link := rootFrom code Config.traceLimit start

/-- The entry a code read defines: `RUNNING_CODE - 2` (R27, R190). -/
def appendIndex (e : Engine) : Nat := (e.runningCode - 2#13).toNat

/-- `Append(root)`: the table append with its guard (R190). -/
def append (rootPix : Byte) : Eng Unit := do
  let s ← look
  inRam .prefixRam Config.tableSize (appendIndex s.eng)
  if s.eng.lastCode ≠ Config.noCode ∧ prefixAt s (appendIndex s.eng) = Config.noCode then do
    wrRam .prefixRam Config.tableSize (appendIndex s.eng) (setPrefix (appendIndex s.eng) s.eng.lastCode)
    wrRam .suffixRam Config.tableSize (appendIndex s.eng) (setSuffix (appendIndex s.eng) rootPix)
  else pure ()

/-- `LAST_CODE <- c` (R192). -/
def setLast (c : Code) : Eng Unit := wr fun e => { e with lastCode := c.setWidth 13 }

/-! ## The actions of each class -/

/-- END (R180): a skip beat on the last pixel of the last scanline, a fault anywhere else. -/
def endActions : Eng Unit := do
  let s ← look
  if s.eng.col.toNat + 1 = s.eng.curWidth.toNat ∧ s.eng.lastLine then do
    emitSkip
    nextCol
    wr fun e => { e with skipped := true }
  else raise .earlyEndCode (s.eng.col.setWidth 32)

/-- CLEAR (R182). The four registers are written at one instant (log 16). -/
def clearActions : Eng Unit := do
  act (State.mapMem clearPrefix)
  wr fun e =>
    { e with
      runningCode := BitVec.ofNat 13 (clearCode e + 2)
      codeWidth := e.minCodeSize + 1
      maxCode1 := BitVec.ofNat 13 (2 ^ (e.minCodeSize.toNat + 1))
      lastCode := Config.noCode }

/-- PIXEL (R184). -/
def pixelActions (c : Code) : Eng Unit := do
  emitPixel (c.setWidth 8)
  nextCol
  append (c.setWidth 8)
  setLast c

/-- TABLE, KNOWN (R187). -/
def knownActions (c : Code) : Eng Unit := do
  let r ← trace (c.setWidth 13) c
  popString
  append (r.setWidth 8)
  setLast c

/-- TABLE, KWKWK, the examine-tail case (R186). -/
def kwkwkActions (c : Code) : Eng Unit := do
  let s ← look
  let first ← root s.eng.lastCode c
  wrRam .suffixRam Config.tableSize c.toNat (setSuffix c.toNat (first.setWidth 8))
  push c (first.setWidth 8)
  let r ← trace s.eng.lastCode c
  popString
  append (r.setWidth 8)
  setLast c

/-- TABLE, INVALID (R185). -/
def invalidActions (c : Code) : Eng Unit := raise .invalidCode (c.setWidth 32)

/-! ## The meanings -/

/-- END (R180). -/
def execEndCode (_c : Code) (s : State) : Host.Outcome State Fault Refusal := Eng.outcome endActions s

/-- CLEAR (R182). -/
def execClear (_c : Code) (s : State) : Host.Outcome State Fault Refusal := Eng.outcome clearActions s

/-- PIXEL (R184). -/
def execPixel (c : Code) (s : State) : Host.Outcome State Fault Refusal := Eng.outcome (pixelActions c) s

/-- TABLE, KNOWN (R187). -/
def execKnown (c : Code) (s : State) : Host.Outcome State Fault Refusal := Eng.outcome (knownActions c) s

/-- TABLE, KWKWK (R186). -/
def execKwkwk (c : Code) (s : State) : Host.Outcome State Fault Refusal := Eng.outcome (kwkwkActions c) s

/-- TABLE, INVALID (R185). -/
def execInvalid (c : Code) (s : State) : Host.Outcome State Fault Refusal := Eng.outcome (invalidActions c) s

end Sys2Proof.Machine
end

