-- ==== Sys2Proof/Machine/RowSequencer.lean ====
section
/-! DEFINITION. The row sequencer (43_row_sequencer.md): which image row the next LINE produces. -/

namespace Sys2Proof.Machine

/-- INTERLACE_OFFSET (R9, R210). -/
def passOffset (p : BitVec 2) : BitVec 17 :=
  match p.toNat with
  | 0 => 0
  | 1 => 4
  | 2 => 2
  | _ => 1

/-- INTERLACE_STRIDE (R9, R210). -/
def passStride (p : BitVec 2) : BitVec 17 :=
  match p.toNat with
  | 0 => 8
  | 1 => 8
  | 2 => 4
  | _ => 2

/-- The loop of `AdvanceRow()`: a pass with no row left is left for the next (R212), at most n times. -/
def skipPasses : Nat → Eng Unit
  | 0 => pure ()
  | n + 1 => do
    let s ← look
    if s.eng.curHeight.toNat ≤ s.eng.row.toNat ∧ s.eng.pass.toNat < 3 then do
      wr fun e => { e with pass := e.pass + 1 }
      wr fun e => { e with row := passOffset e.pass }
      skipPasses n
    else pure ()

/-- PASS rises from at least 0 to at most 3, so the loop of R212 runs at most three times. -/
abbrev maxPassSkips : Nat := 3

/-- `AdvanceRow()` (R212). -/
def advanceRow : Eng Unit := do
  let s ← look
  if s.eng.curInterlace then do
    wr fun e => { e with row := e.row + passStride e.pass }
    skipPasses maxPassSkips
  else wr fun e => { e with row := e.row + 1 }

end Sys2Proof.Machine
end

