-- ==== Sys2Proof/Machine/Engine.lean ====
section
/-! DEFINITION. The engine's steps that are not a code: the rest of INIT after its CMD write (R142, R143), the end of a LINE
(R149), a port transaction that completes after a fault (R227), and which of them a state is due (R22, R147, R148). -/

namespace Sys2Proof.Machine

/-- INIT, minimum code size and set-up (R142). -/
def setUpDecoder (m : Byte) : Eng Unit := do
  wr fun e => { e with minCodeSize := m.setWidth 4 }
  wr fun e => { e with codeWidth := e.minCodeSize + 1 }
  wr fun e => { e with maxCode1 := BitVec.ofNat 13 (2 ^ (e.minCodeSize.toNat + 1)) }
  wr fun e => { e with runningCode := BitVec.ofNat 13 (clearCode e + 2) }
  act (State.mapMem clearPrefix)
  wr fun e => { e with lastCode := Config.noCode }
  wr fun e => { e with stackPtr := 0 }
  wr fun e => { e with shiftAcc := 0 }
  wr fun e => { e with shiftState := 0 }
  wr fun e => { e with sbRem := 0 }
  wr fun e => { e with sbPos := 0 }
  wr fun e => { e with pixelsLeft := e.curWidth.setWidth 32 * e.curHeight.setWidth 32 }
  wr fun e => { e with row := 0 }
  wr fun e => { e with pass := 0 }
  wr fun e => { e with col := 0 }
  act fun s => (s.mapEng fun e => { e with lastLine := false }).mapFree fun f => { f with setUp := true }

/-- INIT, completion (R143). -/
def finishInit : Eng Unit := do
  let s ← look
  if s.eng.pixelsLeft = 0 then startDrain else wr fun e => { e with state := .ready }

/-- INIT after its CMD write (R142, R143). -/
def initBody : Eng Unit := do
  match ← readSource with
  | none => raise .minCodeSizeByte 0
  | some b =>
    if Config.maxMinCodeSize < b.toNat then raise .badMinCodeSize (b.setWidth 32)
    else do
      setUpDecoder b
      finishInit

/-- LINE, completion (R149). -/
def finishLine : Eng Unit := do
  advanceRow
  setIrq .lineDone
  let s ← look
  if s.eng.lastLine then startDrain else wr fun e => { e with state := .ready }

/-- A port transaction is in flight (R20). -/
def inFlight (p : Ports) : Bool := p.byteRequest || p.offeredBeat.isSome

/-- A port completes the transaction a faulted engine left in flight: the byte is discarded although the cursor moves, the
beat is accepted (R48, R227). None: nothing is in flight, or the other side never completes it. -/
def portCompletes (s : State) : Option State :=
  if s.ports.byteRequest then (sourceAnswers s).map Prod.snd else sinkAccepts s

/-- What the engine is due to do next; its position is held by STATE, COL and STACK_PTR, as R22 says. -/
inductive EngineTask where
  /-- Nothing until a CMD write or a reset (R239). -/
  | wait
  /-- The rest of INIT (R142, R143). -/
  | init
  /-- Pixels left on the trace-back stack (R147). -/
  | carryOver
  /-- The next code (R148). -/
  | code
  /-- The end of the LINE (R149). -/
  | lineEnd
  /-- A round of the drain (R172). -/
  | drain
  deriving DecidableEq, Repr

/-- The task a state is due (R22, R147 to R149). -/
def engineTask (e : Engine) : EngineTask :=
  match e.state with
  | .idle => .wait
  | .initBusy => .init
  | .ready => .wait
  | .lineBusy =>
    if e.curWidth ≤ e.col then .lineEnd
    else if e.stackPtr ≠ 0 then .carryOver
    else .code
  | .drainBusy => .drain
  | .done => .wait
  | .fault => .wait

/-- Whether a host access lands before anything else: one is due (R228), or nothing but the host can move: the engine has no
task and no port completes one, or the engine waits for a port that is still in flight (U8, U9). -/
def hostMoves (s : State) : Bool :=
  match s.env.bus with
  | [] => false
  | it :: _ =>
    decide (it.gap = 0)
      || (if isBusy s.eng.state then inFlight s.ports else !(portCompletes s).isSome)

/-- The fault of an engine that waits for a port for ever, with no host access left (U8, U9). -/
def waitsFor (p : Ports) : Fault := if p.byteRequest then .sourceNeverAnswers else .sinkNeverAccepts

end Sys2Proof.Machine
end

