-- ==== Sys2Proof/Machine/Dispatch.lean ====
section
/-! DEFINITION. One arm for each constructor of Instr, each one direct call of its meaning. -/

namespace Sys2Proof.Machine

def exec (i : Instr) (s : State) : Host.Outcome State Fault Refusal :=
  match i with
  | .nop => Sys2Proof.Machine.execNop s
  | .init => Sys2Proof.Machine.execInit s
  | .line => Sys2Proof.Machine.execLine s
  | .reservedCommand op => Sys2Proof.Machine.execReservedCommand op s
  | .endCode c => Sys2Proof.Machine.execEndCode c s
  | .clear c => Sys2Proof.Machine.execClear c s
  | .pixel c => Sys2Proof.Machine.execPixel c s
  | .known c => Sys2Proof.Machine.execKnown c s
  | .kwkwk c => Sys2Proof.Machine.execKwkwk c s
  | .invalid c => Sys2Proof.Machine.execInvalid c s

end Sys2Proof.Machine
end

