-- ==== Sys2Proof/Machine/Step.lean ====
section
/-! DEFINITION. One step of the machine: a host access, a port that completes after a fault, or the engine's next task. A CMD
write and a code of the stream are the two places where an instruction is fetched, decoded and executed. -/

namespace Sys2Proof.Machine

/-- A CMD write as a step: ignored in FAULT and while `rst` is asserted, else decoded and executed (R102, R130, R131). -/
def stepCmd (w : Word) (s : State) : Host.Outcome State Fault Refusal :=
  if s.ports.rst then .next s
  else if s.eng.state = .fault then .next s
  else
    match decodeCommand w with
    | .ok i => exec i s
    | .error (.reservedBits v) => .next (refuseWord .reservedBits v s)

/-- A host access as a step, `rest` being the accesses still to come. -/
def stepHost (event : HostEvent) (rest : List BusItem) (s : State) : Host.Outcome State Fault Refusal :=
  match event with
  | .write index w =>
    if index = cmdIndex then stepCmd w (s.mapEnv fun v => { v with bus := rest })
    else Eng.outcome (land event rest) s
  | _ => Eng.outcome (land event rest) s

/-- The next code of a LINE: read, classified in its context, executed (R148, R192). -/
def stepCode (s : State) : Host.Outcome State Fault Refusal :=
  match readCode.run s with
  | .ok c t =>
    match decode (codeCtx t c) (.code c) with
    | .ok i => exec i t
    | .error _ => .next t
  | .error e t => Eng.outcome (Eng.of fun _ => .error e t) t

/-- The engine's next task. -/
def stepEngine (s : State) : Host.Outcome State Fault Refusal :=
  match engineTask s.eng with
  | .wait => .next s
  | .init => Eng.outcome initBody s
  | .carryOver => Eng.outcome popString s
  | .code => stepCode s
  | .lineEnd => Eng.outcome finishLine s
  | .drain => Eng.outcome drainRound s

/-- What happens when no host access lands: the engine's task; or an engine that waits for a port for ever; or, with no
command in progress, a port that completes a transaction left in flight, else nothing (R227, R239). -/
def stepBlock (s : State) : Host.Outcome State Fault Refusal :=
  if isBusy s.eng.state then
    if inFlight s.ports then .fault (waitsFor s.ports) else stepEngine s
  else
    match portCompletes s with
    | some t => .next t
    | none => .next s

/-- One step. -/
def step (s : State) : Host.Outcome State Fault Refusal :=
  match s.env.bus with
  | [] => stepBlock s
  | it :: rest => if hostMoves s then stepHost it.event rest s else stepBlock s

/-- The state in which the next step executes a CMD write of this word: the write is the host's next access and is due, and
`rst` is released (log 10, log 12). -/
def State.withFetchWord (s : State) (nbits w : Nat) : State :=
  { s with
    env :=
      { s.env with
        bus := { gap := 0, event := .write cmdIndex (BitVec.ofNat 32 (w % 2 ^ min nbits 32)) } :: s.env.bus }
    ports := { s.ports with rst := false } }

end Sys2Proof.Machine
end

