-- ==== Sys2Proof/Machine/ActionRun.lean ====
section
/-! DEFINITION. The same machine one action at a time (R8, R92). A step of `step` runs an instruction or another task of the
engine; here are the states it goes through, one after each action of the pseudocode and each host access, and the machine whose
steps are those actions (log 11). -/

namespace Sys2Proof.Machine

/-- The actions of an instruction the engine reads from the stream; a command's are its CMD write, one instant (R130). -/
def instrActions : Instr → Eng Unit
  | .nop => pure ()
  | .init => pure ()
  | .line => pure ()
  | .reservedCommand _ => pure ()
  | .endCode _ => endActions
  | .clear _ => clearActions
  | .pixel c => pixelActions c
  | .known c => knownActions c
  | .kwkwk c => kwkwkActions c
  | .invalid c => invalidActions c

/-- The actions of the next code of a LINE: those of ReadCode, then those of its class (R148, R192). -/
def codeActions : Eng Unit := do
  let c ← readCode
  let s ← look
  match decode (codeCtx s c) (.code c) with
  | .ok i => instrActions i
  | .error _ => pure ()

/-- The actions of the task a state is due. -/
def taskActions (s : State) : Eng Unit :=
  match engineTask s.eng with
  | .wait => pure ()
  | .init => initBody
  | .carryOver => popString
  | .code => codeActions
  | .lineEnd => finishLine
  | .drain => drainRound

/-- The states the block goes through in a step in which no host access lands before anything else. -/
def blockInstants (s : State) : List State :=
  if isBusy s.eng.state then
    if inFlight s.ports then [] else (taskActions s).passed s
  else (portCompletes s).toList

/-- The states a step goes through, in order, one for each action and each host access. A host access that lands before
anything else is one instant, the step's own end. -/
def instants (s : State) : List State :=
  match s.env.bus with
  | [] => blockInstants s
  | _ :: _ => if hostMoves s then [] else blockInstants s

/-- The machine between two actions: its state, the states its task still goes through, and the stop the task runs into. -/
structure AtAction where
  now : State
  ahead : List State
  stop : Option Fault
  deriving DecidableEq, Repr

/-- Between two tasks. -/
def atTask (s : State) : AtAction := { now := s, ahead := [], stop := none }

/-- The first of the states that a task goes through; with none, the task's end. -/
def enterTask (last : State) (stop : Option Fault) : List State → AtAction
  | [] => { now := last, ahead := [], stop := stop }
  | u :: r => { now := u, ahead := r ++ [last], stop := stop }

/-- One action of the machine. The last state a task goes through is the state its step ends in. -/
def actionStep (a : AtAction) : Host.Outcome AtAction Fault Refusal :=
  match a.ahead, a.stop with
  | u :: r, stop => .next { now := u, ahead := r, stop := stop }
  | [], some f => .fault f
  | [], none =>
    match step a.now with
    | .next t => .next (enterTask t none (instants a.now).dropLast)
    | .refused r => .refused r
    | .fault f =>
      match instants a.now with
      | [] => .fault f
      | u :: r => .next { now := u, ahead := r, stop := some f }

/-- The machine whose steps are the actions (R8). -/
def actionCore : Host.Core where
  State := AtAction
  Fault := Fault
  Refusal := Refusal
  step := actionStep
  reset := atTask State.reset

end Sys2Proof.Machine
end

