-- ==== Sys2Proof/Safety.lean ====
section
/-! DEFINITION. The terms in which claims about POVC-LZW are stated: the string of a code (00_scope.md R16), the bits of the
code stream still to come (30_encoding.md R105), the beats of a row, the links of a chain (R188), what one action is (R8, R92),
and what a safe state is: the ranges of R79, the table invariant of R194 and the position of a LINE (R146, R180). -/

namespace Sys2Proof.Machine

/-! ## The agents around the block -/

/-- No host access is still to come, so none lands inside the command. -/
abbrev Quiet (s : State) : Prop := s.env.bus = []

/-- The byte source answers every request and the sink accepts every beat (R264, R266). -/
abbrev Fair (s : State) : Prop := s.env.source.answersLeft = none ∧ s.env.sink.acceptsLeft = none

/-- The bytes the source has still to deliver. -/
abbrev unread (s : State) : List Byte := s.env.source.buffer.drop s.env.source.cursor

/-! ## What a command leaves alone -/

/-- The host-written registers, the free-value counters, the host's accesses and what its reads returned are as before. -/
def SameHostSide (s t : State) : Prop :=
  t.host = s.host ∧ t.free = s.free ∧ t.env.bus = s.env.bus ∧ t.env.reads = s.env.reads

/-- Every entry of SBBUF reads as before. -/
def SameSbbuf (s t : State) : Prop := ∀ k, sbbufAt t k = sbbufAt s k

/-- Every entry of STACK reads as before. -/
def SameStack (s t : State) : Prop := ∀ k, stackAt t k = stackAt s k

/-- Every entry of PREFIX and of SUFFIX reads as before. -/
def SameTable (s t : State) : Prop := ∀ j, prefixAt t j = prefixAt s j ∧ suffixAt t j = suffixAt s j

/-- Every entry of every RAM reads as before. -/
def SameRams (s t : State) : Prop := SameTable s t ∧ SameStack s t ∧ SameSbbuf s t

/-- R190's append of the entry `RUNNING_CODE - 2`: (LAST_CODE, root), if LAST_CODE is a code and the entry is undefined;
every other entry of PREFIX and SUFFIX reads as before. -/
def Appends (rootPix : Byte) (s t : State) : Prop :=
  ∀ j,
    (prefixAt t j =
      if j + 2 = s.eng.runningCode.toNat ∧ s.eng.lastCode ≠ Config.noCode ∧ prefixAt s j = Config.noCode then s.eng.lastCode
      else prefixAt s j) ∧
    (suffixAt t j =
      if j + 2 = s.eng.runningCode.toNat ∧ s.eng.lastCode ≠ Config.noCode ∧ prefixAt s j = Config.noCode then rootPix
      else suffixAt s j)

/-! ## Strings and beats -/

/-- The string of a code (R16): for a PIXEL code the one pixel, for a defined TABLE entry the string of its PREFIX entry
followed by its SUFFIX entry. -/
inductive StringOf (s : State) : Link → List Byte → Prop where
  | pixel (p : Link) (h : p.toNat < clearCode s.eng) : StringOf s p [p.setWidth 8]
  | entry (p : Link) (l : List Byte) (hc : clearCode s.eng < p.toNat) (hp : p.toNat ≤ 4095)
      (hd : prefixAt s p.toNat ≠ Config.noCode) (hl : StringOf s (prefixAt s p.toNat) l) :
      StringOf s p (l ++ [suffixAt s p.toNat])

/-- The link that k steps along PREFIX lead to from a start code (R188). -/
def linkAfter (s : State) (start : Link) : Nat → Link
  | 0 => start
  | k + 1 => prefixAt s (linkAfter s start k).toNat

/-- The first n links from a start code are defined TABLE entries, so the walk passes through them (R188). -/
def DefinedChain (s : State) (start : Link) (n : Nat) : Prop :=
  ∀ k, k < n → clearCode s.eng < (linkAfter s start k).toNat ∧ (linkAfter s start k).toNat ≤ 4095 ∧
    prefixAt s (linkAfter s start k).toNat ≠ Config.noCode

/-- A link at which R188 raises BadChain: the clear code, a value above 4095, or an entry that is not defined. -/
def BrokenLink (s : State) (p : Link) : Prop :=
  p.toNat = clearCode s.eng ∨ (clearCode s.eng < p.toNat ∧ (4095 < p.toNat ∨ prefixAt s p.toNat = Config.noCode))

/-- The beats of these pixels in one row, from a column on (R61, R189). -/
def rowBeats (row col : BitVec 16) : List Byte → List Beat
  | [] => []
  | p :: r => { pix := p, row := row, col := col, skip := false } :: rowBeats row (col + 1) r

/-- The pixels on the trace-back stack, the top one first (R31, R82). -/
def stackPixels (s : State) : List Byte := ((List.range s.eng.stackPtr.toNat).map (stackAt s)).reverse

/-! ## The code stream -/

/-- The bits of a data byte in stream order (R85). -/
def byteBits (b : Byte) : List Bool := (List.range 8).map b.getLsbD

/-- The data bytes of the complete sub-blocks that stand next in a stream, up to a zero length or an incomplete one (R103);
at most n sub-blocks are looked at. -/
def dataBytes : Nat → List Byte → List Byte
  | 0, _ => []
  | _, [] => []
  | n + 1, len :: r =>
    if len = 0 ∨ r.length < len.toNat then []
    else r.take len.toNat ++ dataBytes n (r.drop len.toNat)

/-- What stands in a stream after the complete sub-blocks of `dataBytes`: nothing, a zero length, or a sub-block of which the
stream does not hold every byte (R161, R162). -/
def afterDataBytes : Nat → List Byte → List Byte
  | 0, l => l
  | _, [] => []
  | n + 1, len :: r =>
    if len = 0 ∨ r.length < len.toNat then len :: r
    else afterDataBytes n (r.drop len.toNat)

/-- What stands in the source after the complete sub-blocks still to come. -/
def streamAfterData (s : State) : List Byte := afterDataBytes (unread s).length (unread s)

/-- The data bytes still to come: those of the current sub-block in SBBUF, then those of the complete sub-blocks that follow
(R163). -/
def dataToCome (s : State) : List Byte :=
  ((List.range s.eng.sbRem.toNat).map fun k => sbbufAt s (s.eng.sbPos.toNat + k)) ++ dataBytes (unread s).length (unread s)

/-- The bits of the code stream still to come: those buffered in SHIFT_ACC, then those of the data bytes (R85, R105, R164). -/
def pendingBits (s : State) : List Bool :=
  (List.range s.eng.shiftState.toNat).map s.eng.shiftAcc.getLsbD ++ (dataToCome s).flatMap byteBits

/-- The registers once a code read has been counted: RUNNING_CODE is incremented below 4097, and MAX_CODE1 is doubled and
CODE_WIDTH incremented when the new RUNNING_CODE exceeds MAX_CODE1 and CODE_WIDTH is below 12 (R166, R167). -/
def counted (e : Engine) : Engine :=
  { e with
    runningCode := if e.runningCode.toNat < 4097 then e.runningCode + 1 else e.runningCode
    maxCode1 :=
      if e.runningCode.toNat < 4097 ∧ e.maxCode1.toNat < e.runningCode.toNat + 1 ∧ e.codeWidth.toNat < 12
      then e.maxCode1 <<< 1 else e.maxCode1
    codeWidth :=
      if e.runningCode.toNat < 4097 ∧ e.maxCode1.toNat < e.runningCode.toNat + 1 ∧ e.codeWidth.toNat < 12
      then e.codeWidth + 1 else e.codeWidth }

/-- A ReadCode from s that runs out of data ends in this fault: the bits it found are in SHIFT_ACC, no byte of a sub-block is left,
and nothing but the reader's registers, SBBUF, the source and the fault record has changed (R161, R162, R226). -/
def ReadCodeStops (s : State) (kind : BitVec 2) (cause : BitVec 4) (info : Word) (bits : List Bool) (left : List Byte) : Prop :=
  ∃ t, readCode.run s = .error .ended t ∧
    t.eng = { s.eng with
      state := .fault, faultKind := kind, faultCause := cause, faultInfo := info
      shiftAcc := t.eng.shiftAcc, shiftState := t.eng.shiftState, sbRem := 0, sbPos := t.eng.sbPos } ∧
    (List.range t.eng.shiftState.toNat).map t.eng.shiftAcc.getLsbD = bits ∧
    t.host = { s.host with irqStatus := s.host.irqStatus ||| 4#3 } ∧ unread t = left ∧
    SameTable s t ∧ SameStack s t ∧ t.env.sink = s.env.sink

/-- `BumpRunningCode()` k times: what k code reads do to RUNNING_CODE, CODE_WIDTH and MAX_CODE1 (R106, R166, R167). -/
def bumpTimes : Nat → Eng Unit
  | 0 => pure ()
  | k + 1 => do
    bumpTimes k
    bumpRunningCode

/-- The rows that n LINEs from a state are tagged with, the row sequencer advancing after each (R213, R216). -/
def rowsVisited : Nat → State → List Nat
  | 0, _ => []
  | n + 1, s =>
    s.eng.row.toNat ::
      match advanceRow.run s with
      | .ok _ t => rowsVisited n t
      | .error _ _ => []

/-! ## One action -/

/-- The engine registers one assignment of the pseudocode writes: one register, or the registers that change together (log 16).
Only the last assignment of INIT's set-up, the fault entry and the end of an image write more than engine registers, and they
are actions of their own. -/
inductive Assigns (e : Engine) : Engine → Prop where
  | ready : Assigns e { e with state := .ready }
  | drainBusy : Assigns e { e with state := .drainBusy }
  | minCodeSize (v : BitVec 4) : Assigns e { e with minCodeSize := v }
  | codeWidth (v : BitVec 4) : Assigns e { e with codeWidth := v }
  | maxCode1 (v : BitVec 13) : Assigns e { e with maxCode1 := v }
  | runningCode (v : Link) : Assigns e { e with runningCode := v }
  | lastCode (v : Link) : Assigns e { e with lastCode := v }
  | stackPtr (v : BitVec 13) : Assigns e { e with stackPtr := v }
  | shiftAcc (v : BitVec 20) : Assigns e { e with shiftAcc := v }
  | shiftState (v : BitVec 5) : Assigns e { e with shiftState := v }
  | sbRem (v : BitVec 8) : Assigns e { e with sbRem := v }
  | sbPos (v : BitVec 8) : Assigns e { e with sbPos := v }
  | pixelsLeft (v : BitVec 32) : Assigns e { e with pixelsLeft := v }
  | row (v : BitVec 17) : Assigns e { e with row := v }
  | pass (v : BitVec 2) : Assigns e { e with pass := v }
  | col (v : BitVec 16) : Assigns e { e with col := v }
  | skipped : Assigns e { e with skipped := true }
  | subBlock (remaining position : BitVec 8) : Assigns e { e with sbRem := remaining, sbPos := position }
  | shift (acc : BitVec 20) (bits : BitVec 5) : Assigns e { e with shiftAcc := acc, shiftState := bits }
  | growth (ceiling : BitVec 13) (width : BitVec 4) : Assigns e { e with maxCode1 := ceiling, codeWidth := width }
  | cleared (running : Link) (width : BitVec 4) (ceiling : BitVec 13) (last : Link) :
      Assigns e { e with runningCode := running, codeWidth := width, maxCode1 := ceiling, lastCode := last }

/-- The RAM write of one action: one entry of one RAM, or ClearPrefix (R80, R81). -/
inductive WritesRam (m : Memory) : Memory → Prop where
  | prefixEntry (j : Nat) (v : Link) (h : j < Config.tableSize) : WritesRam m (setPrefix j v m)
  | suffixEntry (j : Nat) (v : Byte) (h : j < Config.tableSize) : WritesRam m (setSuffix j v m)
  | stackEntry (j : Nat) (v : Byte) (h : j < Config.stackDepth) : WritesRam m (setStack j v m)
  | sbbufEntry (k : Nat) (v : Byte) (h : k < Config.subBlockMax) : WritesRam m (setSbbuf k v m)
  | clear : WritesRam m (clearPrefix m)

/-- One action of the engine (R8, R92): one assignment, RAM write or pending bit, a fault entry by a check of its own (R226),
or one side of a port transaction (R60, R61). -/
inductive EngineAction (s : State) : State → Prop where
  | assign {e : Engine} (h : Assigns s.eng e) : EngineAction s { s with eng := e }
  | ram {m : Memory} (h : WritesRam s.mem m) : EngineAction s { s with mem := m }
  /-- The last assignment of INIT's set-up, LAST_LINE; the record of R79's condition becomes true (R142, log 17). -/
  | setUpDone : EngineAction s { s with eng := { s.eng with lastLine := false }, free := { s.free with setUp := true } }
  | lineDone : EngineAction s { s with host := setPending .lineDone s.host }
  /-- The end of an image (log 14). -/
  | imageDone : EngineAction s { s with eng := { s.eng with state := .done }, host := setPending .imageDone s.host }
  | fault (c : Cause) (info : Word) (own : causeKind c ≠ 3) : EngineAction s (takeFault c info s)
  | request : EngineAction s { s with
      env := { s.env with source := { s.env.source with requests := s.env.source.requests + 1 } }
      ports := { s.ports with byteRequest := true } }
  | answer {byte : Option Byte} {t : State} (h : sourceAnswers s = some (byte, t)) : EngineAction s t
  | offer (pix : Byte) : EngineAction s { s with
      ports := { s.ports with
        offeredBeat := some { pix := pix, row := s.eng.row.setWidth 16, col := s.eng.col, skip := false } } }
  | offerSkip : EngineAction s (offerSkip s)
  | accept {t : State} (h : sinkAccepts s = some t) : EngineAction s t

/-- No host access lands before the next engine action (R228). -/
def NothingDue (s : State) : Prop := ∀ it rest, s.env.bus = it :: rest → it.gap ≠ 0

/-- The next host access is one engine action nearer (log 2). -/
def nearer (s : State) : State :=
  match s.env.bus with
  | [] => s
  | it :: rest => s.mapEnv fun v => { v with bus := { it with gap := it.gap - 1 } :: rest }

/-- From one instant to the next inside a step (R92, R228): a host access that is due lands while a command is in progress; or
none is due and the engine takes one action; or, with no command in progress, a port completes a transaction (R227). -/
inductive NextInstant (s : State) : State → Prop where
  | access {it : BusItem} {rest : List BusItem} {t : State} (busy : isBusy s.eng.state = true)
      (next : s.env.bus = it :: rest) (due : it.gap = 0)
      (lands : (land it.event rest).run s = .ok () t ∨ (land it.event rest).run s = .error .ended t) : NextInstant s t
  | action {t : State} (busy : isBusy s.eng.state = true) (none : NothingDue s) (does : EngineAction (nearer s) t) :
      NextInstant s t
  | port {t : State} (idle : isBusy s.eng.state = false) (completes : portCompletes s = some t) : NextInstant s t

/-- The states the machine of single actions stands in, one after each of its first k actions. -/
def statesOfRun : Nat → AtAction → List State
  | 0, _ => []
  | k + 1, a =>
    match actionStep a with
    | .next b => b.now :: statesOfRun k b
    | .fault _ => []
    | .refused _ => []

/-! ## Safe states -/

/-- STATE is one of those an INIT's completed set-up leads to; a FAULT may come before or after it (R79). -/
def isSetUp : EngineState → Bool
  | .idle => false
  | .initBusy => false
  | .ready => true
  | .lineBusy => true
  | .drainBusy => true
  | .done => true
  | .fault => false

/-- The ranges of R79. -/
structure Ranges (e : Engine) : Prop where
  m_le : e.minCodeSize.toNat ≤ 8
  width_ge : e.minCodeSize.toNat + 1 ≤ e.codeWidth.toNat
  width_le : e.codeWidth.toNat ≤ 12
  ceiling : e.maxCode1.toNat = 2 ^ e.codeWidth.toNat
  running_ge : clearCode e + 2 ≤ e.runningCode.toNat
  running_le : e.runningCode.toNat ≤ 4097
  last : e.lastCode = Config.noCode ∨ e.lastCode.toNat < clearCode e ∨
    (clearCode e + 2 ≤ e.lastCode.toNat ∧ e.lastCode.toNat + 2 ≤ e.runningCode.toNat)
  shift_le : e.shiftState.toNat ≤ 19
  acc_lt : e.shiftAcc.toNat < 2 ^ e.shiftState.toNat
  stack_le : e.stackPtr.toNat ≤ 4096
  sub_block : e.sbPos.toNat + e.sbRem.toNat ≤ 255
  col_le : e.col ≤ e.curWidth
  left_le : e.pixelsLeft.toNat ≤ e.curWidth.toNat * e.curHeight.toNat

/-- The table invariant of R194, and what R166 adds to it: once there is a last code, RUNNING_CODE has passed 2^m + 2. -/
structure TableInv (s : State) : Prop where
  started : s.eng.lastCode ≠ Config.noCode → clearCode s.eng + 2 < s.eng.runningCode.toNat
  fresh : s.eng.lastCode = Config.noCode →
    s.eng.runningCode.toNat = clearCode s.eng + 2 ∧ ∀ e, e < 4096 → prefixAt s e = Config.noCode
  defined : s.eng.lastCode ≠ Config.noCode →
    ∀ e, e < 4096 → (prefixAt s e ≠ Config.noCode ↔ clearCode s.eng + 2 ≤ e ∧ e + 2 ≤ s.eng.runningCode.toNat)
  last : s.eng.lastCode ≠ Config.noCode →
    s.eng.lastCode.toNat < clearCode s.eng ∨
      (s.eng.lastCode.toNat < 4096 ∧ prefixAt s s.eng.lastCode.toNat ≠ Config.noCode)
  below : ∀ e, e < 4096 → prefixAt s e ≠ Config.noCode →
    (prefixAt s e).toNat < e ∧
      ((prefixAt s e).toNat < clearCode s.eng ∨ prefixAt s (prefixAt s e).toNat ≠ Config.noCode)

/-- Where an image stands: INIT has cleared SKIPPED, READY has rows left, a LINE's LAST_LINE tells whether it is the last, and
a LINE that took its skip beat has its row full (R141, R146, R149, R180). -/
structure LinePosition (e : Engine) : Prop where
  init : e.state = .initBusy → e.skipped = false
  ready : e.state = .ready →
    e.curWidth ≠ 0 ∧ e.pixelsLeft ≠ 0 ∧ e.curWidth.toNat ∣ e.pixelsLeft.toNat ∧ e.skipped = false
  busy : e.state = .lineBusy →
    e.curWidth ≠ 0 ∧ e.curWidth.toNat ∣ e.pixelsLeft.toNat ∧ e.lastLine = decide (e.pixelsLeft = 0) ∧
      (e.skipped = true → e.col = e.curWidth ∧ e.lastLine = true)

/-- Between two codes: "STATE is READY or a LINE is between Execute calls", no port transaction in flight and no END taken
(R194; log 16). -/
def betweenCodes (s : State) : Bool :=
  (decide (s.eng.state = .ready) || (decide (s.eng.state = .lineBusy) && !s.eng.skipped)) && !inFlight s.ports

/-- The safe states: R79, in FAULT too when the fault came after the set-up, which an INIT in INIT_BUSY has not done; R194; the
position of an image; no port transaction in flight once a command has ended without a fault (R93, R227); and a command in
progress with a transaction in flight waits for an agent that never completes it (U8, U9, log 7). -/
structure Safe (s : State) : Prop where
  ports : isBusy s.eng.state = false → s.eng.state ≠ .fault → inFlight s.ports = false
  waits : isBusy s.eng.state = true →
    (s.ports.byteRequest = true → s.env.source.answersLeft = some 0) ∧
      (s.ports.offeredBeat.isSome = true → s.env.sink.acceptsLeft = some 0)
  setUp : isSetUp s.eng.state = true → s.free.setUp = true
  notYet : s.eng.state = .initBusy → s.free.setUp = false
  ranges : s.free.setUp = true → Ranges s.eng
  position : LinePosition s.eng
  table : betweenCodes s = true → TableInv s

/-- A fault the checks of R195 raise, which no run that starts with INIT reaches: BadChain, TraceRunaway, WidthOverflow. -/
def isUnreachableFault (e : Engine) : Bool :=
  decide (e.faultKind = 2) && (decide (e.faultCause = 5) || decide (e.faultCause = 6) || decide (e.faultCause = 7))

end Sys2Proof.Machine
end

