-- ==== Sys2Proof/Certificates/Slice0/Obligations.lean ====
section
/-! DEFINITION. The statements for the provers, from the spec's numbered rules. -/

open Sys2Proof Sys2Proof.Machine

/-! ## Reset, the registers and the host's accesses -/

/-- R63, R76, R13: after a hardware reset every register of the map reads 0 but DIAG_CODES, which is computed from m = 0 and
reads 0x00020001, and the registers outside the map are 0; `irq` is 0; no port transaction is in flight. The last clause, that
each RAM entry is the free value of its RAM, reset and index, is the model's choice (log 5): R63 says "unspecified". -/
def Obligations.ResetRegistersReadSpecValues : Prop :=
  (∀ index : BitVec 6,
    (readReg index State.reset).1 = if index = 12#6 then 0x00020001#32 else 0#32) ∧
  irq State.reset.host = false ∧ State.reset.eng.state = .idle ∧ State.reset.eng.lastLine = false ∧
  State.reset.eng.curWidth = 0 ∧ State.reset.eng.curHeight = 0 ∧ State.reset.eng.curInterlace = false ∧
  State.reset.ports.byteRequest = false ∧ State.reset.ports.offeredBeat = none ∧
  (∀ j, prefixAt State.reset j = Config.freePrefix 0 j ∧ suffixAt State.reset j = Config.freeByte .suffix 0 j ∧
    stackAt State.reset j = Config.freeByte .stack 0 j ∧ sbbufAt State.reset j = Config.freeByte .sbbuf 0 j)

/-- R250: an assertion of `rst` that lands gives every register its reset value and abandons the transactions in flight; while
`rst` is asserted, and at its release, every register keeps its reset value, whatever the step is, and a register write, a CMD
write among them, does nothing. The model's choices beside it: that such a write does nothing in every state, not only where the
registers are at reset (log 9); the RAMs list no entry, so each reads a free value (log 5); the record of accepted beats, what reads
returned (log 17) and whether the sink still accepts (log 7) stay; and the release of `rst`, in every state, changes only the
level (log 9). -/
def Obligations.HardwareResetFromAnyState : Prop :=
  ∀ (s : State) (rest : List BusItem),
    (s.env.bus = { gap := 0, event := .reset true } :: rest →
      ∃ t, step s = .next t ∧ t.eng = State.reset.eng ∧ t.host = State.reset.host ∧ t.mem = Memory.unwritten ∧
        t.ports.byteRequest = false ∧ t.ports.offeredBeat = none ∧ t.ports.rst = true ∧ irq t.host = false ∧
        t.env.bus = rest ∧ t.env.sink = s.env.sink ∧ t.env.reads = s.env.reads) ∧
    (s.env.bus = { gap := 0, event := .reset false } :: rest →
      ∃ t, step s = .next t ∧ t.eng = s.eng ∧ t.host = s.host ∧ t.mem = s.mem ∧ t.ports = { s.ports with rst := false } ∧
        t.env = { s.env with bus := rest } ∧ t.free = s.free) ∧
    (s.ports.rst = true → s.eng = State.reset.eng → s.host = State.reset.host →
      ∃ t, step s = .next t ∧ t.eng = State.reset.eng ∧ t.host = State.reset.host ∧ irq t.host = false) ∧
    (∀ index w, s.ports.rst = true → s.env.bus = { gap := 0, event := .write index w } :: rest →
      step s = .next { s with env := { s.env with bus := rest } })

/-- R56, R59, R74 to R78, R133: a register read that lands while BUSY = 0 returns the register's fields at their places, every
reserved bit 0, and changes nothing else. -/
def Obligations.IdleRegisterReadsLayOutFields : Prop :=
  ∀ (s : State) (index : BitVec 6) (rest : List BusItem),
    s.env.bus = { gap := 0, event := .read index } :: rest → isBusy s.eng.state = false →
    ∃ t v, step s = .next t ∧ t.eng = s.eng ∧ t.host = s.host ∧ t.mem = s.mem ∧ t.ports = s.ports ∧ t.free = s.free ∧
      t.env = { s.env with bus := rest, reads := s.env.reads ++ [{ index := index, value := v }] } ∧
      v.toNat =
        match index.toNat with
        | 0 => s.host.interlace.toNat
        | 1 => s.host.imgWidth.toNat
        | 2 => s.host.imgHeight.toNat
        | 4 => (stateBits s.eng.state).toNat + 2 ^ 4 * (decide (s.eng.state = .fault)).toNat + 2 ^ 5 * s.eng.skipped.toNat +
            2 ^ 8 * s.eng.faultKind.toNat + 2 ^ 12 * s.eng.faultCause.toNat
        | 5 => s.host.irqEnable.toNat
        | 6 => s.host.irqStatus.toNat
        | 7 => s.eng.faultInfo.toNat
        | 8 => s.eng.pixelsLeft.toNat
        | 9 => s.eng.row.toNat + 2 ^ 17 * s.eng.pass.toNat
        | 10 => s.eng.col.toNat
        | 11 => s.eng.minCodeSize.toNat + 2 ^ 8 * s.eng.codeWidth.toNat + 2 ^ 16 * s.eng.maxCode1.toNat
        | 12 => 2 ^ s.eng.minCodeSize.toNat % 2 ^ 9 + 2 ^ 16 * ((2 ^ s.eng.minCodeSize.toNat + 1) % 2 ^ 9)
        | 13 => s.eng.runningCode.toNat + 2 ^ 16 * s.eng.lastCode.toNat
        | 14 => s.eng.stackPtr.toNat + 2 ^ 16 * s.eng.sbRem.toNat + 2 ^ 24 * s.eng.sbPos.toNat
        | 15 => s.eng.shiftAcc.toNat + 2 ^ 24 * s.eng.shiftState.toNat
        | _ => 0

/-- R56, R78, R270: a read that lands while BUSY = 1 returns STATUS, FAULT_INFO and the host-written registers exactly (STATUS
with BUSY set), and of a diagnostic register only its defined fields can be nonzero; no register changes. STATUS.SKIPPED
reading exactly is log 13's reading of D27. -/
def Obligations.BusyReadsKeepStatusExact : Prop :=
  ∀ (s : State) (index : BitVec 6) (rest : List BusItem),
    s.env.bus = { gap := 0, event := .read index } :: rest → isBusy s.eng.state = true →
    ∃ t v, step s = .next t ∧ t.eng = s.eng ∧ t.host = s.host ∧ t.mem = s.mem ∧ t.ports = s.ports ∧
      t.free.resets = s.free.resets ∧
      t.env = { s.env with bus := rest, reads := s.env.reads ++ [{ index := index, value := v }] } ∧
      (index.toNat = 0 → v.toNat = s.host.interlace.toNat) ∧
      (index.toNat = 1 → v.toNat = s.host.imgWidth.toNat) ∧
      (index.toNat = 2 → v.toNat = s.host.imgHeight.toNat) ∧
      (index.toNat = 3 → v = 0) ∧
      (index.toNat = 4 → v.toNat = (stateBits s.eng.state).toNat + 2 ^ 3 + 2 ^ 5 * s.eng.skipped.toNat +
        2 ^ 8 * s.eng.faultKind.toNat + 2 ^ 12 * s.eng.faultCause.toNat) ∧
      (index.toNat = 5 → v.toNat = s.host.irqEnable.toNat) ∧
      (index.toNat = 6 → v.toNat = s.host.irqStatus.toNat) ∧
      (index.toNat = 7 → v = s.eng.faultInfo) ∧
      (index.toNat = 9 → v &&& 0xFFF80000#32 = 0) ∧
      (index.toNat = 10 → v &&& 0xFFFF0000#32 = 0) ∧
      (index.toNat = 11 → v &&& 0xE000F0F0#32 = 0) ∧
      (index.toNat = 12 → v &&& 0xFE00FE00#32 = 0) ∧
      (index.toNat = 13 → v &&& 0xE000E000#32 = 0) ∧
      (index.toNat = 14 → v &&& 0x0000E000#32 = 0) ∧
      (index.toNat = 15 → v &&& 0xE0F00000#32 = 0) ∧
      (16 ≤ index.toNat → v = 0)

/-- R134, R51, R52 to R54, R57, R58: a register write other than to CMD that lands in any STATE changes the one host-written
register at its offset, in its defined bits, IRQ_STATUS by clearing the bits written as 1; a read-only register or a reserved
offset has no effect; no engine register, RAM or port changes. R268, R239: when nothing but the host can move, because no
command is in progress and no port completes a transaction, or because the engine waits for a port, the next host access, of
whatever kind, takes effect as one that is due, whatever its gap (log 12). -/
def Obligations.RegisterWritesChangeOnlyTheirRegister : Prop :=
  (∀ (s : State) (index : BitVec 6) (w : Word) (rest : List BusItem),
    s.env.bus = { gap := 0, event := .write index w } :: rest → index ≠ 3#6 → s.ports.rst = false →
    ∃ t, step s = .next t ∧ t.eng = s.eng ∧ t.mem = s.mem ∧ t.ports = s.ports ∧ t.free = s.free ∧
      t.env = { s.env with bus := rest } ∧
      t.host.interlace = (if index = 0#6 then w.getLsbD 0 else s.host.interlace) ∧
      t.host.imgWidth = (if index = 1#6 then w.setWidth 16 else s.host.imgWidth) ∧
      t.host.imgHeight = (if index = 2#6 then w.setWidth 16 else s.host.imgHeight) ∧
      t.host.irqEnable = (if index = 5#6 then w.setWidth 3 else s.host.irqEnable) ∧
      t.host.irqStatus = (if index = 6#6 then s.host.irqStatus &&& ~~~(w.setWidth 3) else s.host.irqStatus)) ∧
  ∀ (s : State) (gap : Nat) (event : HostEvent) (rest : List BusItem), s.env.bus = { gap := gap, event := event } :: rest →
    (isBusy s.eng.state = true ∧ (s.ports.byteRequest = true ∨ s.ports.offeredBeat.isSome = true) ∨
      isBusy s.eng.state = false ∧ (s.ports.byteRequest = true → s.env.source.answersLeft = some 0) ∧
        (s.ports.offeredBeat.isSome = true → s.env.sink.acceptsLeft = some 0)) →
    step s = step { s with env := { s.env with bus := { gap := 0, event := event } :: rest } }

/-- R62: `irq` is 1 iff some pending bit is enabled. -/
def Obligations.IrqIsAnEnabledPendingBit : Prop :=
  ∀ h : HostRegs, irq h = true ↔ ∃ k, k < 3 ∧ h.irqStatus.getLsbD k = true ∧ h.irqEnable.getLsbD k = true

/-! ## Decoding, fetching and executing -/

/-- R100, R101: the CMD words of the opcode map, written out, decode to their instructions; R102: a word with a reserved bit
set is rejected by name. -/
def Obligations.CommandWordsDecodeAsTheOpcodeMap : Prop :=
  decodeCommand 0x00000000#32 = .ok .nop ∧ decodeCommand 0x00000001#32 = .ok .init ∧
  decodeCommand 0x00000002#32 = .ok .line ∧ decodeCommand 0x00000003#32 = .ok (.reservedCommand 3) ∧
  decodeCommand 0x0000000F#32 = .ok (.reservedCommand 15) ∧
  decodeCommand 0x00000012#32 = .error (.reservedBits 0x00000012#32) ∧
  decodeCommand 0x80000002#32 = .error (.reservedBits 0x80000002#32)

/-- R100, R101, R108: decoding the encoding of a well-formed instruction gives it back; and an instruction the decoder gives
is well-formed, with its class condition of R108. -/
def Obligations.DecodeAndEncodeAgree : Prop :=
  ∀ x : CodeCtx,
    (∀ i : Instr, i.wellFormed x = true → decode x (encode i) = .ok i) ∧
    (∀ (e : Encoded) (i : Instr), decode x e = .ok i → i.wellFormed x = true ∧ encode i = e)

/-- R102, R130, R131: when the host's next access is a CMD write, it is due, `rst` is released and STATE is not FAULT, then a
word that decodes is executed, and a word with a reserved bit set is a CommandError ReservedBits, info the word. -/
def Obligations.StepExecutesTheCommandWord : Prop :=
  ∀ (s : State) (w : Word) (rest : List BusItem),
    s.env.bus = { gap := 0, event := .write 3#6 w } :: rest → s.ports.rst = false → s.eng.state ≠ .fault →
    (∀ i, decodeCommand w = .ok i → step s = exec i { s with env := { s.env with bus := rest } }) ∧
    (16 ≤ w.toNat → step s = .next { s with
        env := { s.env with bus := rest }
        eng := { s.eng with state := .fault, faultKind := 3, faultCause := 1, faultInfo := w }
        host := { s.host with irqStatus := s.host.irqStatus ||| 4#3 } })

/-- R148, R192: in LINE_BUSY with the row not full, the stack empty, no host access due and no port in flight, a step reads
the next code, and executes the instruction that code decodes to in the context just after the read. -/
def Obligations.StepExecutesTheNextCode : Prop :=
  ∀ (s t : State) (c : Code) (i : Instr),
    s.eng.state = .lineBusy → s.eng.col < s.eng.curWidth → s.eng.stackPtr = 0 →
    (∀ it rest, s.env.bus = it :: rest → it.gap ≠ 0) → s.ports.byteRequest = false → s.ports.offeredBeat = none →
    readCode.run s = .ok c t → decode (codeCtx t c) (.code c) = .ok i → step s = exec i t

/-! ## Commands -/

/-- R138, R132: the CMD word 0 is NOP, and NOP changes no register, RAM or port, in every STATE. -/
def Obligations.NopChangesNothing : Prop :=
  decodeCommand 0x00000000#32 = .ok .nop ∧ ∀ s : State, exec .nop s = .next s

/-- R102, R131, R132: a CMD write that lands is decoded by the tests of R102 in their order. In FAULT it is ignored; else a
nonzero reserved field is ReservedBits, an opcode 3 to 15 ReservedOpcode, INIT outside IDLE and DONE or LINE outside READY
IllegalInState, each with the word as info and nothing changed but the fault record, STATE and IRQ_STATUS.FAULT; otherwise the
command starts: NOP without effect, INIT in INIT_BUSY, LINE in LINE_BUSY, with no fault. -/
def Obligations.CmdWritesAreDecodedInOrder : Prop :=
  ∀ (s u : State) (w : Word) (rest : List BusItem),
    s.env.bus = { gap := 0, event := .write 3#6 w } :: rest → s.ports.rst = false →
    u = { s with env := { s.env with bus := rest } } →
    ∃ t, step s = .next t ∧
      (s.eng.state = .fault → t = u) ∧
      (s.eng.state ≠ .fault →
        let refused (cause : BitVec 4) := t = { u with
          eng := { s.eng with state := .fault, faultKind := 3, faultCause := cause, faultInfo := w }
          host := { s.host with irqStatus := s.host.irqStatus ||| 4#3 } }
        if 16 ≤ w.toNat then refused 1
        else if 3 ≤ w.toNat then refused 2
        else if w = 0#32 then t = u
        else if w = 1#32 then
          if s.eng.state = .idle ∨ s.eng.state = .done then t.eng.state = .initBusy ∧ t.host = s.host else refused 3
        else if s.eng.state = .ready then t.eng.state = .lineBusy ∧ t.host = s.host else refused 3)

/-- R141: INIT in IDLE or DONE latches IMG_WIDTH, IMG_HEIGHT and CTRL.INTERLACE, clears SKIPPED, makes STATE INIT_BUSY, and
changes nothing else. The model's record setUp of R79's condition becomes false (log 17). -/
def Obligations.InitEntryLatchesGeometry : Prop :=
  ∀ s : State, s.eng.state = .idle ∨ s.eng.state = .done →
    exec .init s = .next { s with
      eng := { s.eng with
        curWidth := s.host.imgWidth, curHeight := s.host.imgHeight, curInterlace := s.host.interlace, skipped := false,
        state := .initBusy }
      free := { s.free with setUp := false } }

/-- R146: LINE in READY makes STATE LINE_BUSY, takes CUR_WIDTH off PIXELS_LEFT, sets LAST_LINE when none is left, clears COL,
and changes nothing else. -/
def Obligations.LineEntryTakesOneRow : Prop :=
  ∀ s : State, s.eng.state = .ready → s.eng.curWidth.toNat ≤ s.eng.pixelsLeft.toNat →
    ∃ t, exec .line s = .next t ∧ t = { s with eng := { s.eng with
        state := .lineBusy, col := 0, pixelsLeft := t.eng.pixelsLeft, lastLine := t.eng.lastLine } } ∧
      t.eng.pixelsLeft.toNat = s.eng.pixelsLeft.toNat - s.eng.curWidth.toNat ∧
      (t.eng.lastLine = true ↔ s.eng.pixelsLeft.toNat = s.eng.curWidth.toNat)

/-- R131, R132: INIT outside IDLE and DONE, LINE outside READY (FAULT left out of both) is a CommandError IllegalInState, info
the word; the fault entry is all that changes. -/
def Obligations.IllegalCommandsFault : Prop :=
  ∀ s : State, s.eng.state ≠ .fault →
    (s.eng.state ≠ .idle → s.eng.state ≠ .done → exec .init s = .next { s with
      eng := { s.eng with state := .fault, faultKind := 3, faultCause := 3, faultInfo := 1 }
      host := { s.host with irqStatus := s.host.irqStatus ||| 4#3 } }) ∧
    (s.eng.state ≠ .ready → exec .line s = .next { s with
      eng := { s.eng with state := .fault, faultKind := 3, faultCause := 3, faultInfo := 2 }
      host := { s.host with irqStatus := s.host.irqStatus ||| 4#3 } })

/-- R101, R131: a reserved opcode is a CommandError ReservedOpcode, info the word; the fault entry is all that changes. -/
def Obligations.ReservedOpcodeFaults : Prop :=
  ∀ (s : State) (op : BitVec 4), s.eng.state ≠ .fault → 3 ≤ op.toNat →
    exec (.reservedCommand op) s = .next { s with
      eng := { s.eng with state := .fault, faultKind := 3, faultCause := 2, faultInfo := op.setWidth 32 }
      host := { s.host with irqStatus := s.host.irqStatus ||| 4#3 } }

/-- R132, R229: in FAULT every CMD write is ignored: every command and every CMD word leaves the state as it is. -/
def Obligations.CommandsAreIgnoredInFault : Prop :=
  ∀ s : State, s.eng.state = .fault →
    (∀ i : Instr, i.isCommand = true → exec i s = .next s) ∧
    (∀ (w : Word) (rest : List BusItem), s.env.bus = { gap := 0, event := .write 3#6 w } :: rest →
      step s = .next { s with env := { s.env with bus := rest } })

/-- R227, R228, V-CMD9: an INIT, LINE or refused CMD word that is due at the point before an engine action, STATE being a BUSY
state, ends the command there: the fault entry is made, the action is not, and no other register, RAM or port changes. And R92,
R133, R134, R138, R250: every host access that is due there does exactly what it does as a step of its own. A register read, a
write to a register other than CMD and a NOP let the command go on, and the action is taken from the state they leave; a NOP
leaves everything as it is; an access that ends the command, a CommandError or a reset, ends it there. -/
def Obligations.CommandErrorEndsTheCommandInProgress : Prop :=
  (∀ (s : State) (w : Word) (rest : List BusItem) (f : State → State),
    isBusy s.eng.state = true → s.ports.rst = false → w ≠ 0#32 →
    s.env.bus = { gap := 0, event := .write 3#6 w } :: rest →
    (act f).run s = .error .ended { s with
      env := { s.env with bus := rest }
      eng := { s.eng with
        state := .fault, faultKind := 3, faultInfo := w
        faultCause := if 16 ≤ w.toNat then 1 else if 3 ≤ w.toNat then 2 else 3 }
      host := { s.host with irqStatus := s.host.irqStatus ||| 4#3 } }) ∧
  ∀ (s : State) (event : HostEvent) (rest : List BusItem),
    isBusy s.eng.state = true → s.env.bus = { gap := 0, event := event } :: rest →
    (∀ t, step s = .next t → isBusy t.eng.state = true →
      tick.passed s = t :: tick.passed t ∧ tick.run s = tick.run t ∧ ∀ f, (act f).run s = (act f).run t) ∧
    (∀ t, step s = .next t → isBusy t.eng.state = false →
      tick.passed s = [t] ∧ tick.run s = .error .ended t ∧ ∀ f, (act f).run s = .error .ended t) ∧
    (∀ why, step s = .fault why → ∃ t, tick.run s = .error (.undefined why) t) ∧
    (∀ index, event = .read index →
      ∃ t, step s = .next t ∧ t.eng = s.eng ∧ t.mem = s.mem ∧ t.host = s.host ∧ t.ports = s.ports) ∧
    (∀ index w, event = .write index w → index ≠ 3#6 →
      ∃ t, step s = .next t ∧ t = { s with host := t.host, env := { s.env with bus := rest } }) ∧
    (event = .write 3#6 0#32 →
      ∀ f, (act f).run s = (act f).run { s with env := { s.env with bus := rest } })

/-! ## INIT after its CMD write -/

/-- R142, R143: the engine's step in INIT_BUSY reads the minimum code size m, at most 8, sets up every decoder register,
clears PREFIX, and ends in READY when the image has a pixel; nothing else changes. The model's record setUp of R79's condition
becomes true (log 17). -/
def Obligations.InitSetsUpTheDecoder : Prop :=
  ∀ (s : State) (m : Byte) (more : List Byte),
    s.eng.state = .initBusy → Quiet s → Fair s → s.ports.byteRequest = false → s.ports.offeredBeat = none →
    unread s = m :: more → m.toNat ≤ 8 → s.eng.curWidth ≠ 0 → s.eng.curHeight ≠ 0 →
    ∃ t, step s = .next t ∧
      t.eng = { s.eng with
        state := .ready, minCodeSize := m.setWidth 4, codeWidth := BitVec.ofNat 4 (m.toNat + 1)
        maxCode1 := BitVec.ofNat 13 (2 ^ (m.toNat + 1)), runningCode := BitVec.ofNat 13 (2 ^ m.toNat + 2), lastCode := 4098#13
        stackPtr := 0, shiftAcc := 0, shiftState := 0, sbRem := 0, sbPos := 0, pixelsLeft := t.eng.pixelsLeft, row := 0
        pass := 0, col := 0, lastLine := false } ∧
      t.eng.pixelsLeft.toNat = s.eng.curWidth.toNat * s.eng.curHeight.toNat ∧
      (∀ j, prefixAt t j = 4098#13 ∧ suffixAt t j = suffixAt s j) ∧ SameStack s t ∧ SameSbbuf s t ∧
      unread t = more ∧ t.env.sink = s.env.sink ∧ t.ports = s.ports ∧
      SameHostSide { s with free := { s.free with setUp := true } } t

/-- R142, R143, R172: an INIT of an image with no pixel reads the minimum code size m, at most 8, sets up every decoder register
and clears PREFIX as any INIT does, and goes on to DRAIN_BUSY, SB_REM and SB_POS 0; nothing else changes. The model's record
setUp of R79's condition becomes true (log 17). -/
def Obligations.InitOfAnEmptyImageDrains : Prop :=
  ∀ (s : State) (m : Byte) (more : List Byte),
    s.eng.state = .initBusy → Quiet s → Fair s → s.ports.byteRequest = false → s.ports.offeredBeat = none →
    unread s = m :: more → m.toNat ≤ 8 → (s.eng.curWidth = 0 ∨ s.eng.curHeight = 0) →
    ∃ t, step s = .next t ∧
      t.eng = { s.eng with
        state := .drainBusy, minCodeSize := m.setWidth 4, codeWidth := BitVec.ofNat 4 (m.toNat + 1)
        maxCode1 := BitVec.ofNat 13 (2 ^ (m.toNat + 1)), runningCode := BitVec.ofNat 13 (2 ^ m.toNat + 2), lastCode := 4098#13
        stackPtr := 0, shiftAcc := 0, shiftState := 0, sbRem := 0, sbPos := 0, pixelsLeft := 0, row := 0, pass := 0, col := 0
        lastLine := false } ∧
      (∀ j, prefixAt t j = 4098#13 ∧ suffixAt t j = suffixAt s j) ∧ SameStack s t ∧ SameSbbuf s t ∧
      unread t = more ∧ t.env.sink = s.env.sink ∧ t.ports = s.ports ∧
      SameHostSide { s with free := { s.free with setUp := true } } t

/-- R142, R222, R233: an exhausted source at the first byte is TruncatedInput MinCodeSizeByte, info 0; a byte above 8 is
ImageDefect BadMinCodeSize, info the byte; the set-up is not done. -/
def Obligations.InitFaultsOnTheCodeSizeByte : Prop :=
  ∀ s : State, s.eng.state = .initBusy → Quiet s → Fair s → s.ports.byteRequest = false → s.ports.offeredBeat = none →
    (unread s = [] → ∃ t, step s = .next t ∧
      t.eng = { s.eng with state := .fault, faultKind := 1, faultCause := 1, faultInfo := 0 } ∧ t.mem = s.mem ∧
      t.host = { s.host with irqStatus := s.host.irqStatus ||| 4#3 } ∧ t.env.sink = s.env.sink) ∧
    (∀ (b : Byte) (more : List Byte), unread s = b :: more → 8 < b.toNat → ∃ t, step s = .next t ∧
      t.eng = { s.eng with state := .fault, faultKind := 2, faultCause := 1, faultInfo := b.setWidth 32 } ∧ t.mem = s.mem ∧
      t.host = { s.host with irqStatus := s.host.irqStatus ||| 4#3 } ∧ t.env.sink = s.env.sink ∧ unread t = more)

/-! ## The code reader -/

/-- R85, R103, R105, R163 to R167: when the next CODE_WIDTH bits of the stream, least significant bit first and across
sub-block boundaries, are those of a code, ReadCode returns that code and consumes exactly those bits, whether they are buffered
or bytes and sub-blocks have to be fetched for them; RUNNING_CODE is incremented below 4097, and MAX_CODE1 doubled and CODE_WIDTH
incremented when the new RUNNING_CODE exceeds MAX_CODE1 and CODE_WIDTH is below 12; the registers it does not write (R160) are
as before. -/
def Obligations.ReadCodeTakesTheNextBitsOfTheStream : Prop :=
  ∀ (s : State) (c : Code) (more : List Bool),
    Quiet s → Fair s → s.eng.codeWidth.toNat ≤ 12 → s.eng.shiftAcc.toNat < 2 ^ s.eng.shiftState.toNat →
    s.eng.sbPos.toNat + s.eng.sbRem.toNat ≤ 255 → c.toNat < 2 ^ s.eng.codeWidth.toNat →
    pendingBits s = encodeCodeBits s.eng.codeWidth.toNat c ++ more →
    ∃ t, readCode.run s = .ok c t ∧ pendingBits t = more ∧ t.eng.shiftAcc.toNat < 2 ^ t.eng.shiftState.toNat ∧
      t.eng.sbPos.toNat + t.eng.sbRem.toNat ≤ 255 ∧
      t.eng = { counted s.eng with
        shiftAcc := t.eng.shiftAcc, shiftState := t.eng.shiftState, sbRem := t.eng.sbRem, sbPos := t.eng.sbPos } ∧
      SameTable s t ∧ SameStack s t ∧ t.env.sink = s.env.sink ∧ SameHostSide s t

/-- R165 to R167: a ReadCode that finds CODE_WIDTH bits buffered reads no byte; it increments RUNNING_CODE below 4097, and
doubles MAX_CODE1 and increments CODE_WIDTH when the new RUNNING_CODE exceeds MAX_CODE1 and CODE_WIDTH is below 12; nothing
else changes. -/
def Obligations.ReadCodeFromBufferedBits : Prop :=
  ∀ s : State, Quiet s → s.eng.codeWidth.toNat ≤ 12 → s.eng.codeWidth.toNat ≤ s.eng.shiftState.toNat →
    ∃ c t, readCode.run s = .ok c t ∧ c.toNat = s.eng.shiftAcc.toNat % 2 ^ s.eng.codeWidth.toNat ∧
      t = { s with eng := { s.eng with
        shiftAcc := s.eng.shiftAcc >>> s.eng.codeWidth.toNat
        shiftState := BitVec.ofNat 5 (s.eng.shiftState.toNat - s.eng.codeWidth.toNat)
        runningCode := if s.eng.runningCode.toNat < 4097 then s.eng.runningCode + 1 else s.eng.runningCode
        maxCode1 :=
          if s.eng.runningCode.toNat < 4097 ∧ s.eng.maxCode1.toNat < s.eng.runningCode.toNat + 1 ∧ s.eng.codeWidth.toNat < 12
          then s.eng.maxCode1 <<< 1 else s.eng.maxCode1
        codeWidth :=
          if s.eng.runningCode.toNat < 4097 ∧ s.eng.maxCode1.toNat < s.eng.runningCode.toNat + 1 ∧ s.eng.codeWidth.toNat < 12
          then s.eng.codeWidth + 1 else s.eng.codeWidth } }

/-- R106: from the registers an INIT or a CLEAR leaves, BumpRunningCode() k times, which is what k code reads do to them (one
read does one: ReadCodeTakesTheNextBitsOfTheStream for every read, ReadCodeFromBufferedBits for one from buffered bits), makes
RUNNING_CODE the lesser of 4097 and 2^m + 2 + k, and, for k at least 1, CODE_WIDTH the least width from m + 1 to 12 whose codes
reach that RUNNING_CODE, or 12; MAX_CODE1 is 2^CODE_WIDTH. -/
def Obligations.CodeWidthFollowsTheSchedule : Prop :=
  ∀ (s : State) (k : Nat), Quiet s → s.eng.minCodeSize.toNat ≤ 8 →
    s.eng.codeWidth.toNat = s.eng.minCodeSize.toNat + 1 → s.eng.maxCode1.toNat = 2 ^ (s.eng.minCodeSize.toNat + 1) →
    s.eng.runningCode.toNat = 2 ^ s.eng.minCodeSize.toNat + 2 →
    ∃ t, (bumpTimes k).run s = .ok () t ∧
      t.eng.runningCode.toNat = min 4097 (2 ^ s.eng.minCodeSize.toNat + 2 + k) ∧
      t.eng.maxCode1.toNat = 2 ^ t.eng.codeWidth.toNat ∧ t.eng.codeWidth.toNat ≤ 12 ∧
      (k = 0 → t.eng.codeWidth = s.eng.codeWidth) ∧
      (1 ≤ k → (2 ^ s.eng.minCodeSize.toNat + 2 + k ≤ 2 ^ t.eng.codeWidth.toNat ∨ t.eng.codeWidth.toNat = 12) ∧
        (t.eng.codeWidth.toNat = s.eng.minCodeSize.toNat + 1 ∨
          2 ^ (t.eng.codeWidth.toNat - 1) < 2 ^ s.eng.minCodeSize.toNat + 2 + k))

/-- R161, R162, R164, R165, R222: a ReadCode with CODE_WIDTH above 12 is WidthOverflow, info CODE_WIDTH, with no byte requested. One
that needs a sub-block is TruncatedInput SubBlockLength on an exhausted source and ZeroLengthSubBlock on a zero length. One whose
CODE_WIDTH bits are not all in SHIFT_ACC and the complete sub-blocks takes every bit there is, and then asks for a sub-block: the
same two faults follow; and of a sub-block of L bytes of which the source has only k, policy Fault makes TruncatedInput
SubBlockContent, info L * 256 + k, while under ZeroFill the missing bytes are zeros: the code is read from them, or, if they are
not enough either, the next length byte is TruncatedInput SubBlockLength. -/
def Obligations.ReadCodeFaults : Prop :=
  ∀ s : State, Quiet s → Fair s → s.eng.state = .lineBusy →
    (12 < s.eng.codeWidth.toNat → ∃ t, readCode.run s = .error .ended t ∧
      t.eng = { s.eng with state := .fault, faultKind := 2, faultCause := 7, faultInfo := s.eng.codeWidth.setWidth 32 } ∧
      t.env = s.env ∧ t.mem = s.mem) ∧
    (s.eng.codeWidth.toNat ≤ 12 → s.eng.shiftState.toNat < s.eng.codeWidth.toNat → s.eng.sbRem = 0 →
      (unread s = [] → ∃ t, readCode.run s = .error .ended t ∧
        t.eng = { s.eng with state := .fault, faultKind := 1, faultCause := 2, faultInfo := 0 } ∧ t.mem = s.mem) ∧
      (∀ more, unread s = 0#8 :: more → ∃ t, readCode.run s = .error .ended t ∧
        t.eng = { s.eng with state := .fault, faultKind := 2, faultCause := 2, faultInfo := 0 } ∧ t.mem = s.mem ∧
        unread t = more)) ∧
    (s.eng.codeWidth.toNat ≤ 12 → s.eng.shiftAcc.toNat < 2 ^ s.eng.shiftState.toNat →
      s.eng.sbPos.toNat + s.eng.sbRem.toNat ≤ 255 → (pendingBits s).length < s.eng.codeWidth.toNat →
      (streamAfterData s = [] → ReadCodeStops s 1 2 0 (pendingBits s) []) ∧
      (∀ more, streamAfterData s = 0#8 :: more → ReadCodeStops s 2 2 0 (pendingBits s) more) ∧
      (∀ (len : Byte) (held : List Byte), streamAfterData s = len :: held → held.length < len.toNat →
        match Config.shortReadPolicy with
        | .fault => ReadCodeStops s 1 3 (BitVec.ofNat 32 (len.toNat * 256 + held.length)) (pendingBits s) []
        | .zeroFill =>
          let bits := pendingBits s ++ (held ++ List.replicate (len.toNat - held.length) 0#8).flatMap byteBits
          (bits.length < s.eng.codeWidth.toNat → ReadCodeStops s 1 2 0 bits []) ∧
          (∀ (c : Code) (more : List Bool), c.toNat < 2 ^ s.eng.codeWidth.toNat →
            bits = encodeCodeBits s.eng.codeWidth.toNat c ++ more →
            ∃ t, readCode.run s = .ok c t ∧ pendingBits t = more ∧ unread t = [] ∧
              t.eng = { counted s.eng with
                shiftAcc := t.eng.shiftAcc, shiftState := t.eng.shiftState, sbRem := t.eng.sbRem, sbPos := t.eng.sbPos } ∧
              SameTable s t ∧ SameStack s t ∧ t.env.sink = s.env.sink ∧ SameHostSide s t)))

/-- R162, R10, U1: a sub-block of L bytes of which the source has only k: under Fault, TruncatedInput with info L * 256 + k;
under ZeroFill, SBBUF gets the k bytes and zeros up to L. Either policy stores all L bytes of a complete sub-block, and leaves
the other entries of SBBUF alone. -/
def Obligations.SubBlockFetchUnderBothPolicies : Prop :=
  ∀ (s : State) (len : Byte) (cause : Cause), Quiet s → Fair s → s.eng.state ≠ .fault →
    (∀ policy, len.toNat ≤ (unread s).length → ∃ t, (fetchSubBlockUnder policy len cause).run s = .ok () t ∧
      (∀ k, sbbufAt t k = if k < len.toNat then (unread s).getD k 0 else sbbufAt s k) ∧
      unread t = (unread s).drop len.toNat ∧ t.eng = s.eng ∧ t.host = s.host ∧ SameTable s t ∧ SameStack s t) ∧
    ((unread s).length < len.toNat → ∃ t, (fetchSubBlockUnder .fault len cause).run s = .error .ended t ∧
      t.eng = { s.eng with
        state := .fault, faultKind := causeKind cause, faultCause := causeCode cause
        faultInfo := BitVec.ofNat 32 (len.toNat * 256 + (unread s).length) } ∧ unread t = []) ∧
    ((unread s).length < len.toNat → ∃ t, (fetchSubBlockUnder .zeroFill len cause).run s = .ok () t ∧
      (∀ k, sbbufAt t k = if k < len.toNat then (unread s).getD k 0 else sbbufAt s k) ∧ unread t = [] ∧ t.eng = s.eng ∧
      t.host = s.host ∧ SameTable s t ∧ SameStack s t)

/-! ## The code classes -/

/-- R180: END on the last pixel of the last scanline emits one beat with skip = 1 at that position, whatever its pixel, counts
the column and sets SKIPPED; no other register and no RAM changes. -/
def Obligations.EndOnTheLastPixelSkips : Prop :=
  ∀ (s : State) (c : Code), Quiet s → s.env.sink.acceptsLeft = none →
    s.eng.col.toNat + 1 = s.eng.curWidth.toNat → s.eng.lastLine = true →
    ∃ t pix, exec (.endCode c) s = .next t ∧ t.eng = { s.eng with col := s.eng.curWidth, skipped := true } ∧ t.mem = s.mem ∧
      t.env = { s.env with sink := { s.env.sink with
        accepted := s.env.sink.accepted ++ [{ pix := pix, row := s.eng.row.setWidth 16, col := s.eng.col, skip := true }] } } ∧
      t.host = s.host ∧ t.ports = { s.ports with offeredBeat := none } ∧ t.free.resets = s.free.resets ∧ SameRams s t

/-- R180, R222: END anywhere else is ImageDefect EarlyEndCode, info the column; the fault entry is all that changes. -/
def Obligations.EarlyEndFaults : Prop :=
  ∀ (s : State) (c : Code), Quiet s → s.eng.state ≠ .fault →
    ¬(s.eng.col.toNat + 1 = s.eng.curWidth.toNat ∧ s.eng.lastLine = true) →
    exec (.endCode c) s = .next { s with
      eng := { s.eng with state := .fault, faultKind := 2, faultCause := 4, faultInfo := s.eng.col.setWidth 32 }
      host := { s.host with irqStatus := s.host.irqStatus ||| 4#3 } }

/-- R182: CLEAR makes every PREFIX entry NO_CODE, RUNNING_CODE 2^m + 2, CODE_WIDTH m + 1, MAX_CODE1 2^(m+1) and LAST_CODE
NO_CODE; it emits nothing, and no other register and no entry of SUFFIX, STACK or SBBUF changes. -/
def Obligations.ClearResetsTheDecoder : Prop :=
  ∀ (s : State) (c : Code), Quiet s → s.eng.minCodeSize.toNat ≤ 8 →
    ∃ t, exec (.clear c) s = .next t ∧
      t.eng = { s.eng with
        runningCode := BitVec.ofNat 13 (2 ^ s.eng.minCodeSize.toNat + 2)
        codeWidth := BitVec.ofNat 4 (s.eng.minCodeSize.toNat + 1)
        maxCode1 := BitVec.ofNat 13 (2 ^ (s.eng.minCodeSize.toNat + 1)), lastCode := 4098#13 } ∧
      (∀ j, prefixAt t j = 4098#13 ∧ suffixAt t j = suffixAt s j) ∧ SameStack s t ∧ SameSbbuf s t ∧
      t.env = s.env ∧ t.host = s.host ∧ t.ports = s.ports ∧ t.free = s.free

/-- R184, R190, R192: PIXEL emits one beat, its pixel the code, at ROW and COL; COL is counted; the entry RUNNING_CODE - 2 is
appended under R190's guard; LAST_CODE is the code; nothing else changes. -/
def Obligations.PixelEmitsItsCode : Prop :=
  ∀ (s : State) (c : Code), Quiet s → s.env.sink.acceptsLeft = none →
    2 ≤ s.eng.runningCode.toNat → s.eng.runningCode.toNat ≤ 4097 →
    ∃ t, exec (.pixel c) s = .next t ∧ t.eng = { s.eng with col := s.eng.col + 1, lastCode := c.setWidth 13 } ∧
      t.env = { s.env with sink := { s.env.sink with
        accepted := s.env.sink.accepted ++
          [{ pix := c.setWidth 8, row := s.eng.row.setWidth 16, col := s.eng.col, skip := false }] } } ∧
      Appends (c.setWidth 8) s t ∧ SameStack s t ∧ SameSbbuf s t ∧
      t.host = s.host ∧ t.ports = { s.ports with offeredBeat := none } ∧ t.free = s.free

/-- R187 to R190, R192, R16: KNOWN emits its code's string, first pixel first, until the row is full; the pixels left stay on
the stack for the next LINE; the entry RUNNING_CODE - 2 is appended with the string's first pixel, by R190's words, which the
model follows where R183's example gives another entry (log 18); LAST_CODE is the code; nothing else changes. -/
def Obligations.KnownEmitsItsString : Prop :=
  ∀ (s : State) (c : Code) (first : Byte) (tail : List Byte), Quiet s → s.env.sink.acceptsLeft = none →
    s.eng.stackPtr = 0 → s.eng.col ≤ s.eng.curWidth → 2 ≤ s.eng.runningCode.toNat → s.eng.runningCode.toNat ≤ 4097 →
    StringOf s (c.setWidth 13) (first :: tail) → tail.length + 1 ≤ 4096 →
    ∃ t n, exec (.known c) s = .next t ∧ n = min (tail.length + 1) (s.eng.curWidth.toNat - s.eng.col.toNat) ∧
      t.env = { s.env with sink := { s.env.sink with
        accepted := s.env.sink.accepted ++ rowBeats (s.eng.row.setWidth 16) s.eng.col ((first :: tail).take n) } } ∧
      stackPixels t = (first :: tail).drop n ∧
      t.eng = { s.eng with
        col := s.eng.col + BitVec.ofNat 16 n, stackPtr := BitVec.ofNat 13 (tail.length + 1 - n), lastCode := c.setWidth 13 } ∧
      Appends first s t ∧ SameSbbuf s t ∧ (∀ k, tail.length + 1 ≤ k → stackAt t k = stackAt s k) ∧
      t.host = s.host ∧ t.ports.byteRequest = s.ports.byteRequest ∧ t.ports.rst = s.ports.rst ∧ t.free = s.free

/-- R186, R188 to R190, R192: KWKWK, the code being the entry RUNNING_CODE - 2 that is not yet defined, emits the previous
code's string followed by that string's first pixel, until the row is full; it defines that entry as (LAST_CODE, first pixel);
LAST_CODE is the code; nothing else changes. -/
def Obligations.KwkwkEmitsThePreviousStringAndItsFirstPixel : Prop :=
  ∀ (s : State) (c : Code) (first : Byte) (tail : List Byte), Quiet s → s.env.sink.acceptsLeft = none →
    s.eng.stackPtr = 0 → s.eng.col ≤ s.eng.curWidth → c.toNat + 2 = s.eng.runningCode.toNat →
    prefixAt s c.toNat = Config.noCode → s.eng.lastCode ≠ Config.noCode →
    StringOf s s.eng.lastCode (first :: tail) → tail.length + 2 ≤ 4096 →
    ∃ t n, exec (.kwkwk c) s = .next t ∧ n = min (tail.length + 2) (s.eng.curWidth.toNat - s.eng.col.toNat) ∧
      t.env = { s.env with sink := { s.env.sink with
        accepted := s.env.sink.accepted ++
          rowBeats (s.eng.row.setWidth 16) s.eng.col ((first :: tail ++ [first]).take n) } } ∧
      stackPixels t = (first :: tail ++ [first]).drop n ∧
      t.eng = { s.eng with
        col := s.eng.col + BitVec.ofNat 16 n, stackPtr := BitVec.ofNat 13 (tail.length + 2 - n), lastCode := c.setWidth 13 } ∧
      (∀ j, prefixAt t j = (if j = c.toNat then s.eng.lastCode else prefixAt s j) ∧
        suffixAt t j = (if j = c.toNat then first else suffixAt s j)) ∧
      SameSbbuf s t ∧ (∀ k, tail.length + 2 ≤ k → stackAt t k = stackAt s k) ∧
      t.host = s.host ∧ t.ports.byteRequest = s.ports.byteRequest ∧ t.ports.rst = s.ports.rst ∧ t.free = s.free

/-- R185, R222: INVALID is ImageDefect InvalidCode, info the code; nothing is emitted and the fault entry is all that changes. -/
def Obligations.InvalidCodeFaults : Prop :=
  ∀ (s : State) (c : Code), Quiet s → s.eng.state ≠ .fault →
    exec (.invalid c) s = .next { s with
      eng := { s.eng with state := .fault, faultKind := 2, faultCause := 3, faultInfo := c.setWidth 32 }
      host := { s.host with irqStatus := s.host.irqStatus ||| 4#3 } }

/-- R188, R82, R222: a chain walk that has passed through n defined entries and meets the clear code, a value above 4095 or an
undefined entry is BadChain, info the code being executed. In KNOWN the walk starts at the code itself, and the n suffixes it
has pushed, with room for them, stay on the stack; in KWKWK the walk of Root starts at LAST_CODE and pushes nothing. Nothing
else changes but the record, STATE and IRQ_STATUS.FAULT. -/
def Obligations.BrokenChainFaults : Prop :=
  ∀ (s : State) (c : Code) (n : Nat), Quiet s → s.eng.state ≠ .fault → n ≤ 4096 →
    (DefinedChain s (c.setWidth 13) n → BrokenLink s (linkAfter s (c.setWidth 13) n) → s.eng.stackPtr.toNat + n ≤ 4096 →
      ∃ t, exec (.known c) s = .next t ∧
        t.eng = { s.eng with
          stackPtr := s.eng.stackPtr + BitVec.ofNat 13 n
          state := .fault, faultKind := 2, faultCause := 5, faultInfo := c.setWidth 32 } ∧
        t.host = { s.host with irqStatus := s.host.irqStatus ||| 4#3 } ∧
        (∀ k, stackAt t k =
          if s.eng.stackPtr.toNat ≤ k ∧ k < s.eng.stackPtr.toNat + n
          then suffixAt s (linkAfter s (c.setWidth 13) (k - s.eng.stackPtr.toNat)).toNat else stackAt s k) ∧
        SameTable s t ∧ SameSbbuf s t ∧ t.ports = s.ports ∧ t.env = s.env ∧ t.free = s.free) ∧
    (DefinedChain s s.eng.lastCode n → BrokenLink s (linkAfter s s.eng.lastCode n) →
      exec (.kwkwk c) s = .next { s with
        eng := { s.eng with state := .fault, faultKind := 2, faultCause := 5, faultInfo := c.setWidth 32 }
        host := { s.host with irqStatus := s.host.irqStatus ||| 4#3 } })

/-! ## The rest of a LINE, the row sequencer, the drain -/

/-- R147, R189: with pixels left on the stack, a step in LINE_BUSY emits them, top first, until the stack is empty or the row
is full; the rest stay; nothing else changes. -/
def Obligations.LeftoverPixelsComeFirst : Prop :=
  ∀ s : State, s.eng.state = .lineBusy → s.eng.col < s.eng.curWidth → s.eng.stackPtr ≠ 0 → s.eng.stackPtr.toNat ≤ 4096 →
    Quiet s → s.env.sink.acceptsLeft = none → s.ports.byteRequest = false → s.ports.offeredBeat = none →
    ∃ t n, step s = .next t ∧ n = min s.eng.stackPtr.toNat (s.eng.curWidth.toNat - s.eng.col.toNat) ∧
      t.env = { s.env with sink := { s.env.sink with
        accepted := s.env.sink.accepted ++ rowBeats (s.eng.row.setWidth 16) s.eng.col ((stackPixels s).take n) } } ∧
      stackPixels t = (stackPixels s).drop n ∧
      t.eng = { s.eng with
        col := s.eng.col + BitVec.ofNat 16 n, stackPtr := BitVec.ofNat 13 (s.eng.stackPtr.toNat - n) } ∧
      t.mem = s.mem ∧ t.host = s.host ∧ t.ports = s.ports ∧ t.free = s.free

/-- R149, R172: with the row full, a step runs AdvanceRow, sets LINE_DONE and, with rows left, makes STATE READY; on the last line
it goes on to DRAIN_BUSY with SB_REM and SB_POS 0. ROW and PASS are those that AdvanceRow gives, in a plain and in an interlaced
image (what it gives is RowAdvancesByPass). No other register, no RAM and no beat changes. -/
def Obligations.LineEndsReadyOrDraining : Prop :=
  ∀ s : State, s.eng.state = .lineBusy → s.eng.col = s.eng.curWidth → Quiet s → s.ports.byteRequest = false →
    s.ports.offeredBeat = none →
    ∃ t u, step s = .next t ∧ advanceRow.run s = .ok () u ∧ t.host = { s.host with irqStatus := s.host.irqStatus ||| 1#3 } ∧
      (s.eng.lastLine = false → t.eng = { s.eng with state := .ready, row := u.eng.row, pass := u.eng.pass }) ∧
      (s.eng.lastLine = true →
        t.eng = { s.eng with state := .drainBusy, row := u.eng.row, pass := u.eng.pass, sbRem := 0, sbPos := 0 }) ∧
      t.mem = s.mem ∧ t.env = s.env ∧ t.ports = s.ports ∧ t.free = s.free

/-- R212: AdvanceRow adds 1 in a non-interlaced image, else the stride of the pass; while the row is at or beyond the height
and the pass is below 3 it takes the next pass's offset. Written out for each pass; no other register changes. -/
def Obligations.RowAdvancesByPass : Prop :=
  ∀ s : State, Quiet s → s.eng.row.toNat < 65536 →
    ∃ t, advanceRow.run s = .ok () t ∧ t = { s with eng := { s.eng with row := t.eng.row, pass := t.eng.pass } } ∧
      (s.eng.curInterlace = false → t.eng.pass = s.eng.pass ∧ t.eng.row.toNat = s.eng.row.toNat + 1) ∧
      (s.eng.curInterlace = true →
        (s.eng.pass.toNat ≤ 1 → s.eng.row.toNat + 8 < s.eng.curHeight.toNat →
          t.eng.pass = s.eng.pass ∧ t.eng.row.toNat = s.eng.row.toNat + 8) ∧
        (s.eng.pass.toNat = 2 → s.eng.row.toNat + 4 < s.eng.curHeight.toNat →
          t.eng.pass = s.eng.pass ∧ t.eng.row.toNat = s.eng.row.toNat + 4) ∧
        (s.eng.pass.toNat = 3 → t.eng.pass = s.eng.pass ∧ t.eng.row.toNat = s.eng.row.toNat + 2) ∧
        (s.eng.pass.toNat = 0 → s.eng.curHeight.toNat ≤ s.eng.row.toNat + 8 →
          if 4 < s.eng.curHeight.toNat then t.eng.pass = 1 ∧ t.eng.row = 4
          else if 2 < s.eng.curHeight.toNat then t.eng.pass = 2 ∧ t.eng.row = 2
          else t.eng.pass = 3 ∧ t.eng.row = 1) ∧
        (s.eng.pass.toNat = 1 → s.eng.curHeight.toNat ≤ s.eng.row.toNat + 8 →
          if 2 < s.eng.curHeight.toNat then t.eng.pass = 2 ∧ t.eng.row = 2 else t.eng.pass = 3 ∧ t.eng.row = 1) ∧
        (s.eng.pass.toNat = 2 → s.eng.curHeight.toNat ≤ s.eng.row.toNat + 4 → t.eng.pass = 3 ∧ t.eng.row = 1))

/-- R213: for every height from 1 and either interlace setting, ROW, taken before each of CUR_HEIGHT successive runs of
AdvanceRow from ROW = 0 and PASS = 0, is every row from 0 to CUR_HEIGHT - 1 exactly once. A LINE's beats carry ROW
(BeatsOfALineFollowItsColumns) and its end is one run of AdvanceRow (LineEndsReadyOrDraining). -/
def Obligations.EveryRowIsVisitedOnce : Prop :=
  ∀ s : State, Quiet s → s.eng.row = 0 → s.eng.pass = 0 → s.eng.curHeight ≠ 0 →
    (rowsVisited s.eng.curHeight.toNat s).Perm (List.range s.eng.curHeight.toNat)

/-- R172, R143, R149, R231: a round of the drain that reads the zero length ends the command: STATE is DONE and IMAGE_DONE is
pending; no other register, no RAM and no beat changes. -/
def Obligations.DrainEndsAtTheTerminator : Prop :=
  ∀ (s : State) (more : List Byte), s.eng.state = .drainBusy → Quiet s → Fair s → s.ports.byteRequest = false →
    s.ports.offeredBeat = none → unread s = 0#8 :: more →
    ∃ t, step s = .next t ∧ t.eng = { s.eng with state := .done } ∧
      t.host = { s.host with irqStatus := s.host.irqStatus ||| 2#3 } ∧ unread t = more ∧ t.mem = s.mem ∧
      t.env.sink = s.env.sink ∧ t.ports = s.ports ∧ t.free = s.free

/-- R172, R162, R173: a round of the drain that reads a nonzero length takes that many bytes and no code: STATE stays DRAIN_BUSY;
an exhausted source at the length byte is TruncatedInput DrainLength; and of a sub-block of L bytes of which the source has only
k, policy Fault makes TruncatedInput DrainContent, info L * 256 + k, while under ZeroFill the round ends as for a complete
sub-block and the next one is TruncatedInput DrainLength. -/
def Obligations.DrainDiscardsSubBlocks : Prop :=
  ∀ s : State, s.eng.state = .drainBusy → Quiet s → Fair s → s.ports.byteRequest = false → s.ports.offeredBeat = none →
    (∀ (len : Byte) (more : List Byte), unread s = len :: more → len ≠ 0 → len.toNat ≤ more.length →
      ∃ t, step s = .next t ∧ t.eng = s.eng ∧ t.host = s.host ∧ unread t = more.drop len.toNat ∧ SameTable s t ∧
        SameStack s t ∧ t.env.sink = s.env.sink) ∧
    (unread s = [] → ∃ t, step s = .next t ∧
      t.eng = { s.eng with state := .fault, faultKind := 1, faultCause := 4, faultInfo := 0 } ∧
      t.host = { s.host with irqStatus := s.host.irqStatus ||| 4#3 } ∧ t.mem = s.mem) ∧
    (∀ (len : Byte) (held : List Byte), unread s = len :: held → held.length < len.toNat →
      ∃ t, step s = .next t ∧ unread t = [] ∧ SameTable s t ∧ SameStack s t ∧ t.env.sink = s.env.sink ∧
        match Config.shortReadPolicy with
        | .fault =>
          t.eng = { s.eng with
            state := .fault, faultKind := 1, faultCause := 5, faultInfo := BitVec.ofNat 32 (len.toNat * 256 + held.length) } ∧
          t.host = { s.host with irqStatus := s.host.irqStatus ||| 4#3 }
        | .zeroFill =>
          t.eng = s.eng ∧ t.host = s.host ∧
          ∃ u, step t = .next u ∧ u.eng = { s.eng with state := .fault, faultKind := 1, faultCause := 4, faultInfo := 0 })

/-! ## Faults -/

/-- R226: a fault entry writes FAULT_KIND, FAULT_CAUSE, FAULT_INFO_REG, STATE and IRQ_STATUS.FAULT and no other register, RAM or
port; in FAULT it writes nothing. -/
def Obligations.FaultEntryWritesOnlyTheRecord : Prop :=
  ∀ (s : State) (c : Cause) (info : Word),
    (s.eng.state ≠ .fault → takeFault c info s = { s with
      eng := { s.eng with faultKind := causeKind c, faultCause := causeCode c, faultInfo := info, state := .fault }
      host := { s.host with irqStatus := s.host.irqStatus ||| 4#3 } }) ∧
    (s.eng.state = .fault → takeFault c info s = s)

/-- R221, R222: FAULT_KIND and FAULT_CAUSE of each of the fifteen causes, as the table of R222 numbers them; no two causes have
the same record. -/
def Obligations.FaultRecordTellsTheCause : Prop :=
  (∀ c : Cause, (causeKind c, causeCode c) =
    match c with
    | .minCodeSizeByte => (1, 1)
    | .subBlockLength => (1, 2)
    | .subBlockContent => (1, 3)
    | .drainLength => (1, 4)
    | .drainContent => (1, 5)
    | .badMinCodeSize => (2, 1)
    | .zeroLengthSubBlock => (2, 2)
    | .invalidCode => (2, 3)
    | .earlyEndCode => (2, 4)
    | .badChain => (2, 5)
    | .traceRunaway => (2, 6)
    | .widthOverflow => (2, 7)
    | .reservedBits => (3, 1)
    | .reservedOpcode => (3, 2)
    | .illegalInState => (3, 3)) ∧
  ∀ a b : Cause, causeKind a = causeKind b → causeCode a = causeCode b → a = b

/-- R229, R39: from FAULT, a step that is not a hardware reset leaves every engine register, the fault record among them, and
every RAM as it is. -/
def Obligations.FaultHoldsUntilReset : Prop :=
  ∀ s t : State, s.eng.state = .fault → step s = .next t → t.free.resets = s.free.resets → t.eng = s.eng ∧ t.mem = s.mem

/-- R227, R48, R60: after a fault a byte request in flight is still answered: with a byte, which is discarded although the
cursor has moved, or with Exhausted, and then only the request leaves the port; a beat in flight is still accepted; no register
or RAM changes. -/
def Obligations.PortsCompleteAfterAFault : Prop :=
  ∀ s : State, s.eng.state = .fault → Quiet s → Fair s →
    (∀ (b : Byte) (more : List Byte), s.ports.byteRequest = true → unread s = b :: more →
      ∃ t, step s = .next t ∧ unread t = more ∧ t.ports = { s.ports with byteRequest := false } ∧ t.eng = s.eng ∧
        t.mem = s.mem ∧ t.host = s.host ∧ t.env.sink = s.env.sink) ∧
    (s.ports.byteRequest = true → unread s = [] →
      step s = .next { s with ports := { s.ports with byteRequest := false } }) ∧
    (∀ beat, s.ports.byteRequest = false → s.ports.offeredBeat = some beat →
      ∃ t, step s = .next t ∧ t.env.sink.accepted = s.env.sink.accepted ++ [beat] ∧
        t.ports = { s.ports with offeredBeat := none } ∧ t.eng = s.eng ∧ t.mem = s.mem ∧ t.host = s.host ∧
        t.env.source = s.env.source)

/-- R230, R92: the beats the sink has accepted stay accepted, in order: every step only adds beats at the end. That they stay
over a hardware reset too, which resets the sink with the block (R250), is the model's choice: it keeps the record (log 17). -/
def Obligations.AcceptedBeatsStay : Prop :=
  ∀ s t : State, step s = .next t → s.env.sink.accepted <+: t.env.sink.accepted

/-- R150, R61: a step inside a LINE adds beats tagged with the LINE's row and the columns from COL on, one for each column it
counts, in order. -/
def Obligations.BeatsOfALineFollowItsColumns : Prop :=
  ∀ s t : State, s.eng.state = .lineBusy → step s = .next t → t.eng.state = .lineBusy → inFlight t.ports = false →
    t.eng.row = s.eng.row ∧ s.eng.col.toNat ≤ t.eng.col.toNat ∧
    t.env.sink.accepted.map (fun b => (b.row, b.col)) = s.env.sink.accepted.map (fun b => (b.row, b.col)) ++
      (List.range (t.eng.col.toNat - s.eng.col.toNat)).map fun k =>
        (s.eng.row.setWidth 16, BitVec.ofNat 16 (s.eng.col.toNat + k))

/-- R90, R22: with no host access to come, a step leaves the stream as it is and never moves the source's cursor back. R254, R265:
in IDLE, DONE and FAULT the host can position the source: the bytes it gives are the next ones, and nothing else changes; that this
holds while `rst` is asserted too is the model's choice (log 9). While an image is in progress the spec defines no behaviour
(R263, U6), and the name of the stop is the model's choice (log 8). -/
def Obligations.StreamIsReadForwards : Prop :=
  (∀ s t : State, Quiet s → step s = .next t →
    t.env.source.buffer = s.env.source.buffer ∧ s.env.source.cursor ≤ t.env.source.cursor ∧
      (s.env.source.cursor ≤ s.env.source.buffer.length → t.env.source.cursor ≤ t.env.source.buffer.length)) ∧
  ∀ (s : State) (bytes : List Byte) (rest : List BusItem), s.env.bus = { gap := 0, event := .position bytes } :: rest →
    (s.eng.state = .idle ∨ s.eng.state = .done ∨ s.eng.state = .fault →
      ∃ t, step s = .next t ∧ unread t = bytes ∧
        t = { s with env := { s.env with bus := rest, source := { t.env.source with
          answersLeft := s.env.source.answersLeft, requests := s.env.source.requests } } }) ∧
    (imageInProgress s.eng.state = true → step s = .fault .streamChangedInImage)

/-- R35, R270, R92: while an image is in progress no step changes CUR_WIDTH, CUR_HEIGHT or CUR_INTERLACE, whatever the host writes
and whichever accesses land inside it, unless the block is reset: no INIT takes effect before the command has ended. That no
INIT lands after STATE <- DONE in the same step rests on the model's reading that STATE <- DONE and IMAGE_DONE are one action
(log 14). -/
def Obligations.GeometryIsLatched : Prop :=
  ∀ s t : State, imageInProgress s.eng.state = true → step s = .next t → t.free.resets = s.free.resets →
    t.eng.curWidth = s.eng.curWidth ∧ t.eng.curHeight = s.eng.curHeight ∧ t.eng.curInterlace = s.eng.curInterlace

/-- R239: with no command in progress, no port in flight and no host access to come, a step changes nothing. -/
def Obligations.IdleBlockKeepsItsState : Prop :=
  ∀ s : State, isBusy s.eng.state = false → Quiet s → s.ports.byteRequest = false → s.ports.offeredBeat = none →
    step s = .next s

/-- R264, R266, R268, U8, U9: an engine that waits for a port whose other side never completes the transaction (a premise; every
safe state that waits meets it) takes each host access to come, whatever its gap. A read returns a value and changes nothing; a
write that is no command, and a NOP, have their own effect and no other; a CMD word that is refused is a CommandError; a reset
resets. But for the last two the engine and the port still wait. New bytes for the source stop the step (log 8), and with no
access left the step stops too: the name of that stop is the model's choice for "stuck" (log 7). -/
def Obligations.WaitingEngineIsStuck : Prop :=
  ∀ s : State, isBusy s.eng.state = true →
    (s.ports.byteRequest = true ∧ s.env.source.answersLeft = some 0 ∨
      s.ports.byteRequest = false ∧ s.ports.offeredBeat.isSome = true ∧ s.env.sink.acceptsLeft = some 0) →
    (Quiet s → step s = .fault (if s.ports.byteRequest then .sourceNeverAnswers else .sinkNeverAccepts)) ∧
    (∀ gap index rest, s.env.bus = { gap := gap, event := .read index } :: rest →
      ∃ t v, step s = .next t ∧ t.eng = s.eng ∧ t.mem = s.mem ∧ t.host = s.host ∧ t.ports = s.ports ∧
        t.env = { s.env with bus := rest, reads := s.env.reads ++ [{ index := index, value := v }] }) ∧
    (∀ gap index w rest, s.env.bus = { gap := gap, event := .write index w } :: rest → s.ports.rst = false →
      index ≠ 3#6 ∨ w = 0#32 →
      step s = .next { s with host := (writeReg index w s).host, env := { s.env with bus := rest } }) ∧
    (∀ gap w rest, s.env.bus = { gap := gap, event := .write 3#6 w } :: rest → s.ports.rst = false → w ≠ 0#32 →
      step s = .next { s with
        env := { s.env with bus := rest }
        eng := { s.eng with
          state := .fault, faultKind := 3, faultInfo := w
          faultCause := if 16 ≤ w.toNat then 1 else if 3 ≤ w.toNat then 2 else 3 }
        host := { s.host with irqStatus := s.host.irqStatus ||| 4#3 } }) ∧
    (∀ gap rest, s.env.bus = { gap := gap, event := .reset true } :: rest →
      ∃ t, step s = .next t ∧ t.eng = State.reset.eng ∧ t.ports.byteRequest = false ∧ t.ports.offeredBeat = none ∧
        t.env.bus = rest) ∧
    (∀ gap bytes rest, s.env.bus = { gap := gap, event := .position bytes } :: rest → step s = .fault .streamChangedInImage)

/-! ## Invariants and headline results -/

/-- The RAMs are in canonical form after a hardware reset. -/
def Obligations.ResetRamsAreCanonical : Prop := State.reset.mem.wf = true

/-- R80 to R83: every step keeps the RAMs in canonical form, so no RAM ever lists an entry outside its size. -/
def Obligations.StepKeepsRamsCanonical : Prop :=
  ∀ s t : State, s.mem.wf = true → step s = .next t → t.mem.wf = true

/-- R79, R194: the safe states hold at reset. -/
def Obligations.ResetIsSafe : Prop := Safe State.reset

/-- R79, R194: every step keeps the ranges of R79 in READY, LINE_BUSY, DRAIN_BUSY and DONE, and in a FAULT that came after the
set-up, the table invariant of R194 between two codes (log 16), and the position of a LINE, whatever host accesses land inside
it. -/
def Obligations.StepKeepsSafety : Prop := ∀ s t : State, Safe s → step s = .next t → Safe t

/-- R195: from a safe state no step takes BadChain, TraceRunaway or WidthOverflow, and none stops at a RAM entry that does not
exist. -/
def Obligations.UnreachableFaultsAreUnreachable : Prop :=
  ∀ s : State, Safe s → s.eng.state ≠ .fault →
    (∀ t, step s = .next t → t.eng.state = .fault → isUnreachableFault t.eng = false) ∧
    (∀ ram index, step s ≠ .fault (.noSuchEntry ram index))

/-- R273: from a safe state with the ports idle, no host access to come and the other agents doing their duty, every command
ends: after finitely many steps STATE is READY, DONE or FAULT. -/
def Obligations.EveryCommandEnds : Prop :=
  ∀ s : State, Safe s → isBusy s.eng.state = true → Quiet s → Fair s → s.ports.byteRequest = false →
    s.ports.offeredBeat = none →
    ∃ k t, Host.Core.run core k s = .next t ∧ (t.eng.state = .ready ∨ t.eng.state = .done ∨ t.eng.state = .fault)

/-! ## Chains that are too long, and the machine one action at a time -/

/-- R188, R82, R222: a chain walk takes TraceRunaway, info the code being executed, on the step limit or on a full stack. In
KNOWN, when the stack is full after the suffixes of n defined entries and the walk could go on: they are on the stack. In KWKWK,
when Root has passed through 4096 entries and meets another: only the record, STATE and IRQ_STATUS.FAULT change. And in KWKWK,
when Root ends but the string, one pixel longer than LAST_CODE's, does not fit on the stack: SUFFIX of the code holds the root,
and what fitted is on the stack, which is full. -/
def Obligations.TraceRunawayFaults : Prop :=
  ∀ (s : State) (c : Code), Quiet s → s.eng.state ≠ .fault →
    (∀ n, DefinedChain s (c.setWidth 13) n → ¬BrokenLink s (linkAfter s (c.setWidth 13) n) → s.eng.stackPtr.toNat + n = 4096 →
      ∃ t, exec (.known c) s = .next t ∧
        t.eng = { s.eng with
          stackPtr := 4096, state := .fault, faultKind := 2, faultCause := 6, faultInfo := c.setWidth 32 } ∧
        t.host = { s.host with irqStatus := s.host.irqStatus ||| 4#3 } ∧
        (∀ k, stackAt t k =
          if s.eng.stackPtr.toNat ≤ k ∧ k < 4096
          then suffixAt s (linkAfter s (c.setWidth 13) (k - s.eng.stackPtr.toNat)).toNat else stackAt s k) ∧
        SameTable s t ∧ SameSbbuf s t ∧ t.ports = s.ports ∧ t.env = s.env ∧ t.free = s.free) ∧
    (DefinedChain s s.eng.lastCode 4097 →
      exec (.kwkwk c) s = .next { s with
        eng := { s.eng with state := .fault, faultKind := 2, faultCause := 6, faultInfo := c.setWidth 32 }
        host := { s.host with irqStatus := s.host.irqStatus ||| 4#3 } }) ∧
    (∀ n, n ≤ 4096 → DefinedChain s s.eng.lastCode n → (linkAfter s s.eng.lastCode n).toNat < clearCode s.eng →
      s.eng.stackPtr.toNat ≤ 4096 → 4096 < s.eng.stackPtr.toNat + n + 2 →
      ∃ t, exec (.kwkwk c) s = .next t ∧
        t.eng = { s.eng with
          stackPtr := 4096, state := .fault, faultKind := 2, faultCause := 6, faultInfo := c.setWidth 32 } ∧
        t.host = { s.host with irqStatus := s.host.irqStatus ||| 4#3 } ∧
        (∀ j, prefixAt t j = prefixAt s j ∧
          suffixAt t j = if j = c.toNat then (linkAfter s s.eng.lastCode n).setWidth 8 else suffixAt s j) ∧
        (∀ k, stackAt t k =
          if s.eng.stackPtr.toNat = k ∧ k < 4096 then (linkAfter s s.eng.lastCode n).setWidth 8
          else if s.eng.stackPtr.toNat < k ∧ k < 4096
          then suffixAt t (linkAfter s s.eng.lastCode (k - s.eng.stackPtr.toNat - 1)).toNat else stackAt s k) ∧
        SameSbbuf s t ∧ t.ports = s.ports ∧ t.env = s.env ∧ t.free = s.free)

/-- R79, R92, R94: from a safe state the ranges of R79 hold not only after a step but at every instant inside it, after each
action of the model and each host access that lands, once the set-up of INIT is complete. It rests on the model's reading that
registers which R79 ties together change in one action, where the pseudocode has a line for each (log 16). -/
def Obligations.EveryInstantKeepsRanges : Prop :=
  ∀ s u : State, Safe s → u ∈ instants s → u.free.setUp = true → Ranges u.eng

/-- R8, R92: the machine that takes one action at a time (log 11) gets from each state between two tasks to the one the step of
the task ends in, or stops where the step stops, and stands at the instants of that step on its way and nowhere else. With a
command in progress, no port in flight and no host access due, the instants are those of the actions of the engine's task, and
the step's outcome is that of the same actions; and the last instant is the state the step ends in, but that an engine which then
waits for a port has counted one action towards the next access. -/
def Obligations.ActionRunsRefineSteps : Prop :=
  ∀ s : State,
    (∀ t, step s = .next t →
      ∃ k, Host.Core.run actionCore k (atTask s) = .next (atTask t) ∧
        statesOfRun k (atTask s) = (instants s).dropLast ++ [t]) ∧
    (∀ f, step s = .fault f →
      ∃ k a, Host.Core.run actionCore k (atTask s) = .next a ∧ statesOfRun k (atTask s) = instants s ∧
        actionStep a = .fault f) ∧
    stepEngine s = Eng.outcome (taskActions s) s ∧
    (isBusy s.eng.state = true → inFlight s.ports = false → NothingDue s →
      instants s = (taskActions s).passed s ∧ step s = Eng.outcome (taskActions s) s) ∧
    (∀ t u, step s = .next t → (instants s).getLast? = some u →
      t = u ∨ (inFlight t.ports = true ∧ NothingDue u ∧ t = nearer u))

/-- R8, R92, R228: each instant of a step comes from the one before it, the first from the state the step starts in, by one
action: a host access that is due, one action of the engine, or, with no command in progress, a port that completes. What the
model takes as one action of the engine is said in logs 14 and 16. -/
def Obligations.EachInstantIsOneAction : Prop :=
  ∀ s : State, (s :: instants s).IsChain NextInstant
end

