-- ==== Sys2Proof/Laws/State.lean ====
section
/-! SUPPORT. One lemma for each part of State and each of its updates, so that no later proof unfolds a record update. -/

namespace Sys2Proof.Machine

@[simp] theorem mapEng_eng (f : Engine → Engine) (s : State) : (s.mapEng f).eng = f s.eng := rfl
@[simp] theorem mapEng_host (f : Engine → Engine) (s : State) : (s.mapEng f).host = s.host := rfl
@[simp] theorem mapEng_mem (f : Engine → Engine) (s : State) : (s.mapEng f).mem = s.mem := rfl
@[simp] theorem mapEng_ports (f : Engine → Engine) (s : State) : (s.mapEng f).ports = s.ports := rfl
@[simp] theorem mapEng_env (f : Engine → Engine) (s : State) : (s.mapEng f).env = s.env := rfl
@[simp] theorem mapEng_free (f : Engine → Engine) (s : State) : (s.mapEng f).free = s.free := rfl

@[simp] theorem mapHost_eng (f : HostRegs → HostRegs) (s : State) : (s.mapHost f).eng = s.eng := rfl
@[simp] theorem mapHost_host (f : HostRegs → HostRegs) (s : State) : (s.mapHost f).host = f s.host := rfl
@[simp] theorem mapHost_mem (f : HostRegs → HostRegs) (s : State) : (s.mapHost f).mem = s.mem := rfl
@[simp] theorem mapHost_ports (f : HostRegs → HostRegs) (s : State) : (s.mapHost f).ports = s.ports := rfl
@[simp] theorem mapHost_env (f : HostRegs → HostRegs) (s : State) : (s.mapHost f).env = s.env := rfl
@[simp] theorem mapHost_free (f : HostRegs → HostRegs) (s : State) : (s.mapHost f).free = s.free := rfl

@[simp] theorem mapMem_eng (f : Memory → Memory) (s : State) : (s.mapMem f).eng = s.eng := rfl
@[simp] theorem mapMem_host (f : Memory → Memory) (s : State) : (s.mapMem f).host = s.host := rfl
@[simp] theorem mapMem_mem (f : Memory → Memory) (s : State) : (s.mapMem f).mem = f s.mem := rfl
@[simp] theorem mapMem_ports (f : Memory → Memory) (s : State) : (s.mapMem f).ports = s.ports := rfl
@[simp] theorem mapMem_env (f : Memory → Memory) (s : State) : (s.mapMem f).env = s.env := rfl
@[simp] theorem mapMem_free (f : Memory → Memory) (s : State) : (s.mapMem f).free = s.free := rfl

@[simp] theorem mapPorts_eng (f : Ports → Ports) (s : State) : (s.mapPorts f).eng = s.eng := rfl
@[simp] theorem mapPorts_host (f : Ports → Ports) (s : State) : (s.mapPorts f).host = s.host := rfl
@[simp] theorem mapPorts_mem (f : Ports → Ports) (s : State) : (s.mapPorts f).mem = s.mem := rfl
@[simp] theorem mapPorts_ports (f : Ports → Ports) (s : State) : (s.mapPorts f).ports = f s.ports := rfl
@[simp] theorem mapPorts_env (f : Ports → Ports) (s : State) : (s.mapPorts f).env = s.env := rfl
@[simp] theorem mapPorts_free (f : Ports → Ports) (s : State) : (s.mapPorts f).free = s.free := rfl

@[simp] theorem mapEnv_eng (f : Env → Env) (s : State) : (s.mapEnv f).eng = s.eng := rfl
@[simp] theorem mapEnv_host (f : Env → Env) (s : State) : (s.mapEnv f).host = s.host := rfl
@[simp] theorem mapEnv_mem (f : Env → Env) (s : State) : (s.mapEnv f).mem = s.mem := rfl
@[simp] theorem mapEnv_ports (f : Env → Env) (s : State) : (s.mapEnv f).ports = s.ports := rfl
@[simp] theorem mapEnv_env (f : Env → Env) (s : State) : (s.mapEnv f).env = f s.env := rfl
@[simp] theorem mapEnv_free (f : Env → Env) (s : State) : (s.mapEnv f).free = s.free := rfl

@[simp] theorem mapFree_eng (f : Free → Free) (s : State) : (s.mapFree f).eng = s.eng := rfl
@[simp] theorem mapFree_host (f : Free → Free) (s : State) : (s.mapFree f).host = s.host := rfl
@[simp] theorem mapFree_mem (f : Free → Free) (s : State) : (s.mapFree f).mem = s.mem := rfl
@[simp] theorem mapFree_ports (f : Free → Free) (s : State) : (s.mapFree f).ports = s.ports := rfl
@[simp] theorem mapFree_env (f : Free → Free) (s : State) : (s.mapFree f).env = s.env := rfl
@[simp] theorem mapFree_free (f : Free → Free) (s : State) : (s.mapFree f).free = f s.free := rfl

@[simp] theorem drawn_eng (s : State) : s.drawn.eng = s.eng := rfl
@[simp] theorem drawn_host (s : State) : s.drawn.host = s.host := rfl
@[simp] theorem drawn_mem (s : State) : s.drawn.mem = s.mem := rfl
@[simp] theorem drawn_ports (s : State) : s.drawn.ports = s.ports := rfl
@[simp] theorem drawn_env (s : State) : s.drawn.env = s.env := rfl
@[simp] theorem drawn_resets (s : State) : s.drawn.free.resets = s.free.resets := rfl
@[simp] theorem drawn_draws (s : State) : s.drawn.free.draws = s.free.draws + 1 := rfl
@[simp] theorem drawn_setUp (s : State) : s.drawn.free.setUp = s.free.setUp := rfl

end Sys2Proof.Machine
end

