-- ==== Sys2Proof/Laws/Memory.lean ====
section
/-! SUPPORT. The laws of the RAMs: a read after a write, what a write leaves alone, and that every operation keeps the
canonical form (Memory.wf). -/

namespace Sys2Proof.Machine

variable {w : Nat}

theorem cellGet_below {depth : Nat} : ∀ {l : List (Nat × BitVec w)} {lo i : Nat},
    cellsRise depth lo l = true → i < lo → cellGet l i = none := by
  intro l
  induction l with
  | nil => intros; rfl
  | cons p r ih =>
    obtain ⟨j, v⟩ := p
    intro lo i h hi
    simp only [cellsRise, Bool.and_eq_true, decide_eq_true_eq] at h
    simp only [cellGet]
    rw [if_neg (by omega)]
    exact ih h.2 (by omega)

theorem cellGet_set (l : List (Nat × BitVec w)) (i j : Nat) (v : BitVec w) :
    cellGet (cellSet l i v) j = if i = j then some v else cellGet l j := by
  induction l with
  | nil => simp [cellSet, cellGet]
  | cons p r ih =>
    obtain ⟨k, u⟩ := p
    simp only [cellSet]
    split
    · simp [cellGet]
    · split
      · subst_vars
        simp only [cellGet]
        split <;> simp_all
      · simp only [cellGet, ih]
        split
        · subst_vars; rw [if_neg (by omega)]
        · rfl

theorem cellGet_erase {depth lo : Nat} {l : List (Nat × BitVec w)} (h : cellsRise depth lo l = true) (i j : Nat) :
    cellGet (cellErase l i) j = if i = j then none else cellGet l j := by
  induction l generalizing lo with
  | nil => simp [cellErase, cellGet]
  | cons p r ih =>
    obtain ⟨k, u⟩ := p
    simp only [cellsRise, Bool.and_eq_true, decide_eq_true_eq] at h
    simp only [cellErase]
    split
    · subst_vars
      split
      · subst_vars; exact cellGet_below h.2 (by omega)
      · rw [cellGet, if_neg (by assumption)]
    · simp only [cellGet, ih h.2]
      split
      · subst_vars; rw [if_neg (by omega)]
      · rfl

theorem cellsRise_mono {depth lo lo' : Nat} {l : List (Nat × BitVec w)} (h : cellsRise depth lo l = true) (hl : lo' ≤ lo) :
    cellsRise depth lo' l = true := by
  cases l with
  | nil => rfl
  | cons p r =>
    obtain ⟨k, u⟩ := p
    simp only [cellsRise, Bool.and_eq_true, decide_eq_true_eq] at h ⊢
    exact ⟨⟨by omega, h.1.2⟩, h.2⟩

theorem cellsRise_set {depth lo : Nat} {l : List (Nat × BitVec w)} (h : cellsRise depth lo l = true) {i : Nat}
    (hlo : lo ≤ i) (hi : i < depth) (v : BitVec w) : cellsRise depth lo (cellSet l i v) = true := by
  induction l generalizing lo with
  | nil => simp [cellSet, cellsRise, hlo, hi]
  | cons p r ih =>
    obtain ⟨k, u⟩ := p
    simp only [cellsRise, Bool.and_eq_true, decide_eq_true_eq] at h
    simp only [cellSet]
    split
    · simp only [cellsRise, Bool.and_eq_true, decide_eq_true_eq]
      exact ⟨⟨hlo, hi⟩, ⟨by omega, h.1.2⟩, h.2⟩
    · split
      · subst_vars
        simp only [cellsRise, Bool.and_eq_true, decide_eq_true_eq]
        exact ⟨⟨hlo, hi⟩, h.2⟩
      · simp only [cellsRise, Bool.and_eq_true, decide_eq_true_eq]
        exact ⟨h.1, ih h.2 (by omega)⟩

theorem cellsRise_erase {depth lo : Nat} {l : List (Nat × BitVec w)} (h : cellsRise depth lo l = true) (i : Nat) :
    cellsRise depth lo (cellErase l i) = true := by
  induction l generalizing lo with
  | nil => rfl
  | cons p r ih =>
    obtain ⟨k, u⟩ := p
    simp only [cellsRise, Bool.and_eq_true, decide_eq_true_eq] at h
    simp only [cellErase]
    split
    · exact cellsRise_mono h.2 (by omega)
    · simp only [cellsRise, Bool.and_eq_true, decide_eq_true_eq]
      exact ⟨h.1, ih h.2⟩

theorem cellsAvoid_set {l : List (Nat × BitVec w)} {x : BitVec w} (h : cellsAvoid x l = true) (i : Nat) {v : BitVec w}
    (hv : v ≠ x) : cellsAvoid x (cellSet l i v) = true := by
  induction l with
  | nil => simp [cellSet, cellsAvoid, hv]
  | cons p r ih =>
    obtain ⟨k, u⟩ := p
    simp only [cellsAvoid, Bool.and_eq_true, decide_eq_true_eq] at h
    simp only [cellSet]
    split
    · simp [cellsAvoid, hv, h.1, h.2]
    · split <;> simp [cellsAvoid, hv, h.1, h.2, ih h.2]

theorem cellsAvoid_erase {l : List (Nat × BitVec w)} {x : BitVec w} (h : cellsAvoid x l = true) (i : Nat) :
    cellsAvoid x (cellErase l i) = true := by
  induction l with
  | nil => rfl
  | cons p r ih =>
    obtain ⟨k, u⟩ := p
    simp only [cellsAvoid, Bool.and_eq_true, decide_eq_true_eq] at h
    simp only [cellErase]
    split
    · exact h.2
    · simp [cellsAvoid, h.1, ih h.2]

/-! ## Every memory operation keeps the canonical form -/

theorem wf_unwritten : Memory.unwritten.wf = true := by decide

theorem wf_reset : State.reset.mem.wf = true := wf_unwritten

theorem wf_clearPrefix {m : Memory} (h : m.wf = true) : (clearPrefix m).wf = true := by
  simp only [Memory.wf, Bool.and_eq_true] at h
  simp [Memory.wf, clearPrefix, cellsRise, cellsAvoid, h.1.1.2, h.1.2, h.2]

theorem wf_setPrefix {m : Memory} (h : m.wf = true) {j : Nat} (hj : j < Config.tableSize) (v : Link) :
    (setPrefix j v m).wf = true := by
  simp only [Memory.wf, Bool.and_eq_true, Bool.or_eq_true, Bool.not_eq_true'] at h
  obtain ⟨⟨⟨⟨hp, ha⟩, hs⟩, ht⟩, hb⟩ := h
  simp only [setPrefix]
  split
  · rename_i hc
    simp only [Memory.wf, Bool.and_eq_true, Bool.or_eq_true, Bool.not_eq_true']
    refine ⟨⟨⟨⟨cellsRise_erase hp j, .inr (cellsAvoid_erase ?_ j)⟩, hs⟩, ht⟩, hb⟩
    exact ha.resolve_left (by simp [hc.1])
  · rename_i hc
    simp only [Memory.wf, Bool.and_eq_true, Bool.or_eq_true, Bool.not_eq_true']
    refine ⟨⟨⟨⟨cellsRise_set hp (Nat.zero_le _) hj v, ?_⟩, hs⟩, ht⟩, hb⟩
    by_cases hcl : m.prefixCleared = true
    · exact .inr (cellsAvoid_set (ha.resolve_left (by simp [hcl])) j (fun hv => hc ⟨hcl, hv⟩))
    · exact .inl (by simpa using hcl)

theorem wf_setSuffix {m : Memory} (h : m.wf = true) {j : Nat} (hj : j < Config.tableSize) (v : Byte) :
    (setSuffix j v m).wf = true := by
  simp only [Memory.wf, Bool.and_eq_true] at h
  simp only [Memory.wf, setSuffix, Bool.and_eq_true]
  exact ⟨⟨⟨h.1.1.1, cellsRise_set h.1.1.2 (Nat.zero_le _) hj v⟩, h.1.2⟩, h.2⟩

theorem wf_setStack {m : Memory} (h : m.wf = true) {j : Nat} (hj : j < Config.stackDepth) (v : Byte) :
    (setStack j v m).wf = true := by
  simp only [Memory.wf, Bool.and_eq_true] at h
  simp only [Memory.wf, setStack, Bool.and_eq_true]
  exact ⟨⟨h.1.1, cellsRise_set h.1.2 (Nat.zero_le _) hj v⟩, h.2⟩

theorem wf_setSbbuf {m : Memory} (h : m.wf = true) {j : Nat} (hj : j < Config.subBlockMax) (v : Byte) :
    (setSbbuf j v m).wf = true := by
  simp only [Memory.wf, Bool.and_eq_true] at h
  simp only [Memory.wf, setSbbuf, Bool.and_eq_true]
  exact ⟨h.1, cellsRise_set h.2 (Nat.zero_le _) hj v⟩

/-! ## Reads after writes (R84) -/

@[simp] theorem setPrefix_cleared (i : Nat) (v : Link) (m : Memory) :
    (setPrefix i v m).prefixCleared = m.prefixCleared := by
  simp only [setPrefix]
  split <;> rfl

theorem prefixAt_setPrefix {s : State} (h : s.mem.wf = true) (i j : Nat) (v : Link) :
    prefixAt (s.mapMem (setPrefix i v)) j = if i = j then v else prefixAt s j := by
  have hp : cellsRise Config.tableSize 0 s.mem.prefixRam = true := by
    simp only [Memory.wf, Bool.and_eq_true] at h
    exact h.1.1.1.1
  by_cases hc : s.mem.prefixCleared = true ∧ v = Config.noCode
  · have hm : (setPrefix i v s.mem).prefixRam = cellErase s.mem.prefixRam i := by simp only [setPrefix, if_pos hc]
    simp only [prefixAt, prefixUnlisted, mapMem_mem, mapMem_free, setPrefix_cleared, hm, cellGet_erase hp, hc.1]
    split <;> simp [hc.2]
  · have hm : (setPrefix i v s.mem).prefixRam = cellSet s.mem.prefixRam i v := by simp only [setPrefix, if_neg hc]
    simp only [prefixAt, prefixUnlisted, mapMem_mem, mapMem_free, setPrefix_cleared, hm, cellGet_set]
    split <;> simp

theorem prefixAt_clearPrefix (s : State) (j : Nat) : prefixAt (s.mapMem clearPrefix) j = Config.noCode := by
  simp [prefixAt, prefixUnlisted, clearPrefix, cellGet]

theorem prefixAt_mapMem {s : State} {f : Memory → Memory} (hp : (f s.mem).prefixRam = s.mem.prefixRam)
    (hc : (f s.mem).prefixCleared = s.mem.prefixCleared) (j : Nat) : prefixAt (s.mapMem f) j = prefixAt s j := by
  simp [prefixAt, prefixUnlisted, hp, hc]

theorem prefixAt_congr {s t : State} (hm : t.mem = s.mem) (hr : t.free.resets = s.free.resets) (j : Nat) :
    prefixAt t j = prefixAt s j := by
  simp [prefixAt, prefixUnlisted, hm, hr]

theorem suffixAt_congr {s t : State} (hm : t.mem = s.mem) (hr : t.free.resets = s.free.resets) (j : Nat) :
    suffixAt t j = suffixAt s j := by
  simp [suffixAt, hm, hr]

theorem stackAt_congr {s t : State} (hm : t.mem = s.mem) (hr : t.free.resets = s.free.resets) (j : Nat) :
    stackAt t j = stackAt s j := by
  simp [stackAt, hm, hr]

theorem sbbufAt_congr {s t : State} (hm : t.mem = s.mem) (hr : t.free.resets = s.free.resets) (j : Nat) :
    sbbufAt t j = sbbufAt s j := by
  simp [sbbufAt, hm, hr]

@[simp] theorem suffixAt_setSuffix (s : State) (i j : Nat) (v : Byte) :
    suffixAt (s.mapMem (setSuffix i v)) j = if i = j then v else suffixAt s j := by
  simp only [suffixAt, setSuffix, mapMem_mem, mapMem_free, cellGet_set]
  split <;> simp

@[simp] theorem stackAt_setStack (s : State) (i j : Nat) (v : Byte) :
    stackAt (s.mapMem (setStack i v)) j = if i = j then v else stackAt s j := by
  simp only [stackAt, setStack, mapMem_mem, mapMem_free, cellGet_set]
  split <;> simp

@[simp] theorem sbbufAt_setSbbuf (s : State) (i j : Nat) (v : Byte) :
    sbbufAt (s.mapMem (setSbbuf i v)) j = if i = j then v else sbbufAt s j := by
  simp only [sbbufAt, setSbbuf, mapMem_mem, mapMem_free, cellGet_set]
  split <;> simp

end Sys2Proof.Machine
end

