-- ==== Sys2Proof/Laws/Actions.lean ====
section
/-! SUPPORT. What the engine's elementary actions and the table append do with no host access to come (`s.env.bus = []`),
where an action is its own effect. -/

namespace Sys2Proof.Machine

variable {α β : Type}

/-! ## Threads -/

@[simp] theorem run_bind (x : Eng α) (f : α → Eng β) (s : State) :
    (x >>= f).run s = match x.run s with
      | .ok a t => (f a).run t
      | .error e t => .error e t := by
  show Eng.run (ExceptT.bind x f) s = _
  simp only [Eng.run, ExceptT.run, ExceptT.bind, ExceptT.mk, StateT.run, WriterT.run, bind, StateT.bind, WriterT.mk]
  rcases h : x s with ⟨⟨r, t⟩, l⟩
  cases r <;> rfl

theorem passed_bind (x : Eng α) (f : α → Eng β) (s : State) :
    (x >>= f).passed s = match x.run s with
      | .ok a t => x.passed s ++ (f a).passed t
      | .error _ _ => x.passed s := by
  show Eng.passed (ExceptT.bind x f) s = _
  simp only [Eng.run, Eng.passed, ExceptT.run, ExceptT.bind, ExceptT.mk, StateT.run, WriterT.run, bind, StateT.bind, WriterT.mk]
  rcases h : x s with ⟨⟨r, t⟩, l⟩
  cases r
  · show l ++ [] = l; simp
  · rfl
@[simp] theorem run_pure (a : α) (s : State) : (pure a : Eng α).run s = .ok a s := rfl
@[simp] theorem passed_pure (a : α) (s : State) : (pure a : Eng α).passed s = [] := rfl

@[simp] theorem run_of (f : State → EStateM.Result Stop State α) (s : State) : (Eng.of f).run s = f s := by
  simp only [Eng.run, Eng.of, ExceptT.run, ExceptT.mk, StateT.run, WriterT.run, WriterT.mk]
  cases f s <;> rfl
@[simp] theorem passed_of (f : State → EStateM.Result Stop State α) (s : State) : (Eng.of f).passed s = [] := by
  simp only [Eng.passed, Eng.of, ExceptT.run, ExceptT.mk, StateT.run, WriterT.run, WriterT.mk]
  cases f s <;> rfl
@[simp] theorem run_did (f : State → EStateM.Result Stop State α) (s : State) : (Eng.did f).run s = f s := by
  simp only [Eng.run, Eng.did, ExceptT.run, ExceptT.mk, StateT.run, WriterT.run, WriterT.mk]
  rcases f s with _ | ⟨_|_|_, _⟩ <;> rfl
/-- The instants of one action: its end, unless the machine stops before it. -/
def took : EStateM.Result Stop State α → List State
  | .ok _ t => [t]
  | .error .ended t => [t]
  | .error .waiting _ => []
  | .error (.undefined _) _ => []

theorem passed_did (f : State → EStateM.Result Stop State α) (s : State) : (Eng.did f).passed s = took (f s) := by
  simp only [Eng.passed, Eng.did, took, ExceptT.run, ExceptT.mk, StateT.run, WriterT.run, WriterT.mk]
  rcases f s with _ | ⟨_|_|_, _⟩ <;> rfl

@[simp] theorem run_look (s : State) : look.run s = .ok s s := rfl
@[simp] theorem passed_look (s : State) : look.passed s = [] := rfl

theorem run_ite (c : Prop) [Decidable c] (x y : Eng α) (s : State) :
    (if c then x else y).run s = if c then x.run s else y.run s := by
  split <;> rfl

/-! ## With no host access to come -/

theorem tick_quiet {s : State} (h : s.env.bus = []) : tick.run s = .ok () s := by
  simp [tick, h, landDue]

theorem act_quiet {s : State} (h : s.env.bus = []) (f : State → State) : (act f).run s = .ok () (f s) := by
  simp [act, tick_quiet h]

theorem wr_quiet {s : State} (h : s.env.bus = []) (f : Engine → Engine) : (wr f).run s = .ok () (s.mapEng f) := act_quiet h _

theorem setIrq_quiet {s : State} (h : s.env.bus = []) (b : IrqBit) : (setIrq b).run s = .ok () (s.mapHost (setPending b)) :=
  act_quiet h _

theorem wrRam_quiet {s : State} (h : s.env.bus = []) {ram : RamName} {depth index : Nat} (hi : index < depth)
    (f : Memory → Memory) : (wrRam ram depth index f).run s = .ok () (s.mapMem f) := by
  simp [wrRam, tick_quiet h, hi]

theorem inRam_ok {s : State} {ram : RamName} {depth index : Nat} (hi : index < depth) :
    (inRam ram depth index).run s = .ok () s := by
  simp [inRam, hi]

theorem raise_quiet {s : State} (h : s.env.bus = []) (c : Cause) (info : Word) :
    (raise c info : Eng α).run s = .error .ended (takeFault c info s) := by
  simp [raise, tick_quiet h]

/-- The state after the sink has accepted a beat the engine offered. -/
def afterBeat (beat : Beat) (s : State) : State :=
  (s.mapEnv fun v => { v with sink := { accepted := v.sink.accepted ++ [beat], acceptsLeft := v.sink.acceptsLeft } }).mapPorts
    fun p => { p with offeredBeat := none }

@[simp] theorem afterBeat_eng (beat : Beat) (s : State) : (afterBeat beat s).eng = s.eng := rfl
@[simp] theorem afterBeat_mem (beat : Beat) (s : State) : (afterBeat beat s).mem = s.mem := rfl
@[simp] theorem afterBeat_host (beat : Beat) (s : State) : (afterBeat beat s).host = s.host := rfl
@[simp] theorem afterBeat_free (beat : Beat) (s : State) : (afterBeat beat s).free = s.free := rfl
@[simp] theorem afterBeat_bus (beat : Beat) (s : State) : (afterBeat beat s).env.bus = s.env.bus := rfl
@[simp] theorem afterBeat_source (beat : Beat) (s : State) : (afterBeat beat s).env.source = s.env.source := rfl
@[simp] theorem afterBeat_reads (beat : Beat) (s : State) : (afterBeat beat s).env.reads = s.env.reads := rfl
@[simp] theorem afterBeat_accepted (beat : Beat) (s : State) :
    (afterBeat beat s).env.sink.accepted = s.env.sink.accepted ++ [beat] := rfl
@[simp] theorem afterBeat_acceptsLeft (beat : Beat) (s : State) :
    (afterBeat beat s).env.sink.acceptsLeft = s.env.sink.acceptsLeft := rfl

theorem offerBeat_quiet {s : State} (h : s.env.bus = []) (ha : s.env.sink.acceptsLeft = none) (beat : Beat) :
    (offerBeat beat).run s = .ok () (afterBeat beat s) := by
  simp [offerBeat, offerWith, act_quiet h, tick_quiet, h, sinkAccepts, ha, spend, afterBeat, State.mapEnv, State.mapPorts]

theorem emitPixel_quiet {s : State} (h : s.env.bus = []) (ha : s.env.sink.acceptsLeft = none) (pix : Byte) :
    (emitPixel pix).run s =
      .ok () (afterBeat { pix := pix, row := s.eng.row.setWidth 16, col := s.eng.col, skip := false } s) := by
  simp [emitPixel, offerBeat_quiet h ha]

theorem nextCol_quiet {s : State} (h : s.env.bus = []) :
    nextCol.run s = .ok () (s.mapEng fun e => { e with col := e.col + 1 }) := wr_quiet h _

theorem setLast_quiet {s : State} (h : s.env.bus = []) (c : Code) :
    (setLast c).run s = .ok () (s.mapEng fun e => { e with lastCode := c.setWidth 13 }) := wr_quiet h _

/-- The state after `Append(root)` (R190). -/
def appended (pix : Byte) (s : State) : State :=
  if s.eng.lastCode ≠ Config.noCode ∧ prefixAt s (appendIndex s.eng) = Config.noCode then
    (s.mapMem (setPrefix (appendIndex s.eng) s.eng.lastCode)).mapMem (setSuffix (appendIndex s.eng) pix)
  else s

theorem append_quiet {s : State} (h : s.env.bus = []) (hi : appendIndex s.eng < Config.tableSize) (pix : Byte) :
    (append pix).run s = .ok () (appended pix s) := by
  simp only [append, appended, run_bind, run_look, inRam_ok hi, run_ite]
  split
  · rw [wrRam_quiet h hi]
    exact wrRam_quiet (by simpa using h) hi _
  · rfl

@[simp] theorem appended_eng (pix : Byte) (s : State) : (appended pix s).eng = s.eng := by simp only [appended]; split <;> rfl
@[simp] theorem appended_host (pix : Byte) (s : State) : (appended pix s).host = s.host := by simp only [appended]; split <;> rfl
@[simp] theorem appended_env (pix : Byte) (s : State) : (appended pix s).env = s.env := by simp only [appended]; split <;> rfl
@[simp] theorem appended_ports (pix : Byte) (s : State) : (appended pix s).ports = s.ports := by
  simp only [appended]; split <;> rfl
@[simp] theorem appended_free (pix : Byte) (s : State) : (appended pix s).free = s.free := by simp only [appended]; split <;> rfl

end Sys2Proof.Machine
end

