-- ==== Sys2Proof/Laws/Landing.lean ====
section
/-! SUPPORT. What host accesses can do, said once: while the engine is BUSY (`tick_busy`), and in any STATE (`tick_keeps`); and
the rules that carry an assertion through the engine's elementary actions whatever accesses land (`Eng.Keeps`). -/

namespace Sys2Proof.Machine

variable {α β : Type}

/-! ## Accesses while BUSY -/

/-- Everything that accesses which let the command go on leave alone; the host-written registers, the accesses still to come,
what reads returned, the counter of draws and the level of `rst` can change. -/
structure Landed (s t : State) : Prop where
  eng : t.eng = s.eng
  mem : t.mem = s.mem
  source : t.env.source = s.env.source
  sink : t.env.sink = s.env.sink
  byteRequest : t.ports.byteRequest = s.ports.byteRequest
  offeredBeat : t.ports.offeredBeat = s.ports.offeredBeat
  resets : t.free.resets = s.free.resets
  setUp : t.free.setUp = s.free.setUp

theorem Landed.refl (s : State) : Landed s s := ⟨rfl, rfl, rfl, rfl, rfl, rfl, rfl, rfl⟩

theorem Landed.trans {s t u : State} (h : Landed s t) (k : Landed t u) : Landed s u :=
  ⟨k.eng.trans h.eng, k.mem.trans h.mem, k.source.trans h.source, k.sink.trans h.sink, k.byteRequest.trans h.byteRequest,
    k.offeredBeat.trans h.offeredBeat, k.resets.trans h.resets, k.setUp.trans h.setUp⟩

/-- How an access ends the command in progress (R227, R250): a CommandError, which leaves everything but the record, STATE and
the host side alone, or a hardware reset. -/
inductive EndedBy (s t : State) : Prop where
  | refused (c : Cause) (w : Word) (kind : causeKind c = 3) (eng : t.eng = recordFault c w s.eng) (mem : t.mem = s.mem)
      (source : t.env.source = s.env.source) (sink : t.env.sink = s.env.sink)
      (byteRequest : t.ports.byteRequest = s.ports.byteRequest) (offeredBeat : t.ports.offeredBeat = s.ports.offeredBeat)
      (resets : t.free.resets = s.free.resets) (setUp : t.free.setUp = s.free.setUp)
  | reset (eng : t.eng = Engine.reset) (mem : t.mem = Memory.unwritten) (sink : t.env.sink = s.env.sink)
      (byteRequest : t.ports.byteRequest = false) (offeredBeat : t.ports.offeredBeat = none)
      (resets : t.free.resets = s.free.resets + 1) (setUp : t.free.setUp = false)

theorem EndedBy.of_landed {s t u : State} (h : Landed s t) (k : EndedBy t u) : EndedBy s u := by
  cases k with
  | refused c w kind eng mem source sink byteRequest offeredBeat resets setUp =>
    exact .refused c w kind (eng.trans (by rw [h.eng])) (mem.trans h.mem) (source.trans h.source) (sink.trans h.sink)
      (byteRequest.trans h.byteRequest) (offeredBeat.trans h.offeredBeat) (resets.trans h.resets) (setUp.trans h.setUp)
  | reset eng mem sink byteRequest offeredBeat resets setUp =>
    exact .reset eng mem (sink.trans h.sink) byteRequest offeredBeat (resets.trans (by rw [h.resets])) setUp

/-- A CMD write while BUSY: it is refused, or it is NOP and nothing happens (R132). -/
theorem writeCmd_busy {s : State} (hb : isBusy s.eng.state = true) (w : Word) :
    writeCmd w s = s ∨ ∃ c, causeKind c = 3 ∧ writeCmd w s = takeFault c w s := by
  have hinit : initIn s.eng.state = .illegalInState := by
    revert hb; cases s.eng.state <;> simp [isBusy, initIn]
  have hline : lineIn s.eng.state = .illegalInState := by
    revert hb; cases s.eng.state <;> simp [isBusy, lineIn]
  have hnop : nopIn s.eng.state = .legal := by
    revert hb; cases s.eng.state <;> simp [isBusy, nopIn]
  have hword : reservedField w = 0#28 → commandWord (opcodeField w) = w := by
    simp only [reservedField, commandWord, opcodeField]
    intro h
    rw [← h]
    apply BitVec.eq_of_getLsbD_eq
    intro i hi
    simp only [BitVec.getLsbD_append, BitVec.getLsbD_extractLsb']
    split <;> rename_i h4
    · simp [h4]
    · have : i - 4 < 28 := by omega
      simp [this, show 4 + (i - 4) = i by omega]
  simp only [writeCmd, decodeCommand]
  by_cases h1 : reservedField w = 0#28
  · rw [if_neg (by simpa using h1)]
    have hw := hword h1
    simp only [decodeOpcode]
    by_cases h2 : opcodeField w = 0x0#4
    · rw [if_pos h2]
      left
      simp [writeNop, startCommand, hnop]
    · rw [if_neg h2]
      by_cases h3 : opcodeField w = 0x1#4
      · rw [if_pos h3]
        right
        exact ⟨.illegalInState, rfl, by rw [← hw, h3]; simp [writeInit, startCommand, hinit]⟩
      · rw [if_neg h3]
        by_cases h4 : opcodeField w = 0x2#4
        · rw [if_pos h4]
          right
          exact ⟨.illegalInState, rfl, by rw [← hw, h4]; simp [writeLine, startCommand, hline]⟩
        · rw [if_neg h4]
          right
          exact ⟨.reservedOpcode, rfl, by simp only [refuseWord]; rw [hw]⟩
  · rw [if_pos h1]
    right
    exact ⟨.reservedBits, rfl, rfl⟩

theorem land_busy {s : State} (hb : isBusy s.eng.state = true) (event : HostEvent) (rest : List BusItem) :
    (∃ t, (land event rest).run s = .ok () t ∧ Landed s t) ∨
      (∃ t, (land event rest).run s = .error .ended t ∧ EndedBy s t) ∨
      (∃ t, (land event rest).run s = .error (.undefined .streamChangedInImage) t) := by
  have hnf : s.eng.state ≠ .fault := by intro h; rw [h] at hb; cases hb
  cases event with
  | read index =>
    left
    refine ⟨_, rfl, ?_⟩
    simp only [doRead, readReg]
    split
    · exact ⟨rfl, rfl, rfl, rfl, rfl, rfl, rfl, rfl⟩
    · split <;> exact ⟨rfl, rfl, rfl, rfl, rfl, rfl, rfl, rfl⟩
  | write index w =>
    simp only [land, run_did, doWrite]
    split
    · rw [if_neg (by simpa using hnf)]
      exact .inl ⟨_, rfl, ⟨rfl, rfl, rfl, rfl, rfl, rfl, rfl, rfl⟩⟩
    · split
      · rcases writeCmd_busy (s := s.mapEnv fun v => { v with bus := rest }) hb w with h | ⟨c, hc, h⟩
        · rw [h, if_neg (by simpa using hnf)]
          exact .inl ⟨_, rfl, ⟨rfl, rfl, rfl, rfl, rfl, rfl, rfl, rfl⟩⟩
        · rw [h]
          have ht : takeFault c w (s.mapEnv fun v => { v with bus := rest }) =
              ((s.mapEnv fun v => { v with bus := rest }).mapEng (recordFault c w)).mapHost (setPending .fault) := by
            simp only [takeFault]; rw [if_neg (by simpa using hnf)]
          rw [ht]
          exact .inr (.inl ⟨_, if_pos rfl, .refused c w hc rfl rfl rfl rfl rfl rfl rfl rfl⟩)
      · have : (writeReg index w (s.mapEnv fun v => { v with bus := rest })).eng = s.eng := by
          simp only [writeReg]; split <;> rfl
        rw [if_neg (by rw [this]; exact hnf)]
        refine .inl ⟨_, rfl, ?_⟩
        simp only [writeReg]
        split <;> exact ⟨rfl, rfl, rfl, rfl, rfl, rfl, rfl, rfl⟩
  | reset level =>
    cases level with
    | true => exact .inr (.inl ⟨_, rfl, .reset rfl rfl rfl rfl rfl rfl rfl⟩)
    | false => exact .inl ⟨_, rfl, ⟨rfl, rfl, rfl, rfl, rfl, rfl, rfl, rfl⟩⟩
  | position bytes =>
    right; right
    have hi : imageInProgress s.eng.state = true := by
      revert hb; cases s.eng.state <;> simp [isBusy, imageInProgress]
    exact ⟨s.mapEnv fun v => { v with bus := rest }, by simp [land, hi]⟩

theorem land_passed (event : HostEvent) (rest : List BusItem) (s : State) :
    (land event rest).passed s = took ((land event rest).run s) := by
  rw [land, passed_did, run_did]

/-- The accesses that are due leave the command as it is, or end it, or violate R263; and each state they go through is one of
these. -/
theorem landDue_busy : ∀ (l : List BusItem) {s : State}, isBusy s.eng.state = true →
    ((∃ t, (landDue l).run s = .ok () t ∧ Landed s t) ∨
      (∃ t, (landDue l).run s = .error .ended t ∧ EndedBy s t) ∨
      (∃ t, (landDue l).run s = .error (.undefined .streamChangedInImage) t)) ∧
    ∀ u ∈ (landDue l).passed s, Landed s u ∨ EndedBy s u := by
  intro l
  induction l with
  | nil => intro s _; exact ⟨.inl ⟨s, rfl, Landed.refl s⟩, by intro u hu; cases hu⟩
  | cons it rest ih =>
    intro s hb
    by_cases hg : it.gap = 0
    · simp only [landDue, if_pos hg, run_bind, passed_bind, land_passed]
      rcases land_busy hb it.event rest with ⟨t, ht, hl⟩ | ⟨t, ht, he⟩ | ⟨t, ht⟩
      · simp only [ht, took]
        obtain ⟨hr, hp⟩ := ih (s := t) (by rw [hl.eng]; exact hb)
        refine ⟨?_, ?_⟩
        · rcases hr with ⟨u, hu, hl'⟩ | ⟨u, hu, he⟩ | ⟨u, hu⟩
          · exact .inl ⟨u, hu, hl.trans hl'⟩
          · exact .inr (.inl ⟨u, hu, he.of_landed hl⟩)
          · exact .inr (.inr ⟨u, hu⟩)
        · intro u hu
          rcases List.mem_cons.mp hu with rfl | hu
          · exact .inl hl
          · exact (hp u hu).imp hl.trans fun k => k.of_landed hl
      · simp only [ht, took]
        refine ⟨.inr (.inl ⟨t, rfl, he⟩), ?_⟩
        intro u hu
        exact .inr (List.mem_singleton.mp hu ▸ he)
      · simp only [ht, took]
        exact ⟨.inr (.inr ⟨t, rfl⟩), by intro u hu; cases hu⟩
    · simp only [landDue, if_neg hg, run_of, passed_of]
      exact ⟨.inl ⟨_, rfl, ⟨rfl, rfl, rfl, rfl, rfl, rfl, rfl, rfl⟩⟩, by intro u hu; cases hu⟩

/-- The point before an engine action while BUSY: the accesses that are due leave the command as it is, or end it, or violate
R263; and each state they go through is one of these. -/
theorem tick_busy {s : State} (hb : isBusy s.eng.state = true) :
    ((∃ t, tick.run s = .ok () t ∧ Landed s t) ∨
      (∃ t, tick.run s = .error .ended t ∧ EndedBy s t) ∨
      (∃ t, tick.run s = .error (.undefined .streamChangedInImage) t)) ∧
    ∀ u ∈ tick.passed s, Landed s u ∨ EndedBy s u := by
  simpa only [tick, run_bind, passed_bind, run_look, passed_look, List.nil_append] using landDue_busy s.env.bus hb

/-! ## Assertions through elementary actions -/

/-- What is asserted of a thread beside how it ends normally: the state in which it ends early, for each stop, and every state
it goes through. -/
structure Ends where
  early : Stop → State → Prop
  instant : State → Prop

/-- From a state with P, the thread ends normally with Q, or early with E, and goes through states of E's instants only. -/
def Eng.Keeps (P : State → Prop) (x : Eng α) (Q : α → State → Prop) (E : Ends) : Prop :=
  ∀ s, P s →
    (match x.run s with
      | .ok a t => Q a t
      | .error e t => E.early e t) ∧
    ∀ u ∈ x.passed s, E.instant u

/-- An assertion that accesses landing inside a command leave true. -/
def LandingKeeps (P : State → Prop) : Prop := ∀ s t, P s → Landed s t → P t

/-- E takes in the states of P, every command ended by an access, and every violation of R263. -/
structure AllowsAccess (P : State → Prop) (E : Ends) : Prop where
  instant : ∀ s, P s → E.instant s
  ended : ∀ s t, P s → EndedBy s t → E.early .ended t ∧ E.instant t
  changed : ∀ t, E.early (.undefined .streamChangedInImage) t

variable {P R : State → Prop} {E : Ends}

theorem keeps_pure {Q : α → State → Prop} {a : α} (h : ∀ s, P s → Q a s) : Eng.Keeps P (pure a) Q E :=
  fun s hs => ⟨h s hs, by intro u hu; cases hu⟩

theorem keeps_bind {Q : α → State → Prop} {S : β → State → Prop} {x : Eng α} {f : α → Eng β} (hx : Eng.Keeps P x Q E)
    (hf : ∀ a, Eng.Keeps (Q a) (f a) S E) : Eng.Keeps P (x >>= f) S E := by
  intro s hs
  have h := hx s hs
  rw [run_bind, passed_bind]
  revert h
  cases x.run s with
  | ok a t =>
    intro h
    have k := hf a t h.1
    refine ⟨k.1, ?_⟩
    intro u hu
    rcases List.mem_append.mp hu with hu | hu
    · exact h.2 u hu
    · exact k.2 u hu
  | error e t => exact id

theorem keeps_pre {Q : α → State → Prop} {x : Eng α} (hx : Eng.Keeps R x Q E) (h : ∀ s, P s → R s) : Eng.Keeps P x Q E :=
  fun s hs => hx s (h s hs)

theorem keeps_post {Q S : α → State → Prop} {x : Eng α} (hx : Eng.Keeps P x Q E) (h : ∀ a s, Q a s → S a s) :
    Eng.Keeps P x S E := by
  intro s hs
  refine ⟨?_, (hx s hs).2⟩
  have := (hx s hs).1
  revert this
  cases x.run s with
  | ok a t => exact h a t
  | error e t => exact id

/-- A thread that is no action. -/
theorem keeps_of {Q : α → State → Prop} {f : State → EStateM.Result Stop State α}
    (h : ∀ s, P s → match f s with
      | .ok a t => Q a t
      | .error e t => E.early e t) : Eng.Keeps P (Eng.of f) Q E :=
  fun s hs => ⟨by rw [run_of]; exact h s hs, by rw [passed_of]; intro u hu; cases hu⟩

/-- One action. -/
theorem keeps_did {Q : α → State → Prop} {f : State → EStateM.Result Stop State α}
    (h : ∀ s, P s → match f s with
      | .ok a t => Q a t ∧ E.instant t
      | .error .ended t => E.early .ended t ∧ E.instant t
      | .error e t => E.early e t) : Eng.Keeps P (Eng.did f) Q E := by
  intro s hs
  have := h s hs
  rw [run_did, passed_did]
  revert this
  rcases f s with ⟨a, t⟩ | ⟨e, t⟩
  · exact fun k => ⟨k.1, fun u hu => List.mem_singleton.mp hu ▸ k.2⟩
  · cases e with
    | ended => exact fun k => ⟨k.1, fun u hu => List.mem_singleton.mp hu ▸ k.2⟩
    | waiting => exact fun k => ⟨k, by intro u hu; cases hu⟩
    | undefined f => exact fun k => ⟨k, by intro u hu; cases hu⟩

/-- An assertion that every host access keeps, the ones that end a command too, is kept by the point before an engine action,
in any STATE. -/
theorem tick_keeps (hland : ∀ event rest, Eng.Keeps P (land event rest) (fun _ => P) E)
    (hgap : ∀ (s : State) (bus : List BusItem), P s → P (s.mapEnv fun v => { v with bus := bus })) :
    Eng.Keeps P tick (fun _ => P) E := by
  have key : ∀ l : List BusItem, Eng.Keeps P (landDue l) (fun _ => P) E := by
    intro l
    induction l with
    | nil => exact keeps_pure fun s hs => hs
    | cons it rest ih =>
      by_cases h : it.gap = 0
      · simp only [landDue, if_pos h]
        exact keeps_bind (hland it.event rest) fun _ => ih
      · simp only [landDue, if_neg h]
        exact keeps_of fun s hs => hgap s _ hs
  intro s hs
  simpa only [tick, run_bind, passed_bind, run_look, passed_look, List.nil_append] using key s.env.bus s hs

/-- The state that is looked at can be used in what follows. -/
theorem keeps_look {S : β → State → Prop} {f : State → Eng β} (hf : ∀ s, P s → Eng.Keeps (fun t => t = s) (f s) S E) :
    Eng.Keeps P (look >>= f) S E := by
  intro s hs
  simpa only [run_bind, passed_bind, run_look, passed_look, List.nil_append] using hf s hs s rfl

theorem keeps_tick (hb : ∀ s, P s → isBusy s.eng.state = true) (hl : LandingKeeps P) (he : AllowsAccess P E) :
    Eng.Keeps P tick (fun _ => P) E := by
  intro s hs
  obtain ⟨hr, hp⟩ := tick_busy (hb s hs)
  refine ⟨?_, ?_⟩
  · rcases hr with ⟨t, ht, hl'⟩ | ⟨t, ht, he'⟩ | ⟨t, ht⟩
    · rw [ht]; exact hl s t hs hl'
    · rw [ht]; exact (he.ended s t hs he').1
    · rw [ht]; exact he.changed t
  · intro u hu
    rcases hp u hu with k | k
    · exact he.instant u (hl s u hs k)
    · exact (he.ended s u hs k).2

theorem keeps_act {f : State → State} (hb : ∀ s, P s → isBusy s.eng.state = true) (hl : LandingKeeps P)
    (he : AllowsAccess P E) (hi : ∀ s, R s → E.instant s) (h : ∀ s, P s → R (f s)) : Eng.Keeps P (act f) (fun _ => R) E :=
  keeps_bind (keeps_tick hb hl he) fun _ => keeps_did fun s hs => ⟨h s hs, hi _ (h s hs)⟩

theorem keeps_raise {Q : α → State → Prop} {c : Cause} {info : Word} (hb : ∀ s, P s → isBusy s.eng.state = true)
    (hl : LandingKeeps P) (he : AllowsAccess P E)
    (h : ∀ s, P s → E.early .ended (takeFault c info s) ∧ E.instant (takeFault c info s)) :
    Eng.Keeps P (raise c info : Eng α) Q E :=
  keeps_bind (keeps_tick hb hl he) fun _ => keeps_did fun s hs => h s hs

theorem keeps_wrRam {ram : RamName} {depth index : Nat} {f : Memory → Memory} (hb : ∀ s, P s → isBusy s.eng.state = true)
    (hl : LandingKeeps P) (he : AllowsAccess P E) (hi : ∀ s, R s → E.instant s) (hx : index < depth)
    (h : ∀ s, P s → R (s.mapMem f)) : Eng.Keeps P (wrRam ram depth index f) (fun _ => R) E :=
  keeps_bind (keeps_tick hb hl he) fun _ => keeps_did fun s hs => by
    rw [if_pos hx]
    exact ⟨h s hs, hi _ (h s hs)⟩

/-- The states between a request and its answer, and after the answer. -/
theorem keeps_readSource {A : Option Byte → State → Prop} (hb : ∀ s, P s → isBusy s.eng.state = true) (hl : LandingKeeps P)
    (he : AllowsAccess P E)
    (hbR : ∀ s, R s → isBusy s.eng.state = true) (hlR : LandingKeeps R) (heR : AllowsAccess R E)
    (hiA : ∀ byte s, A byte s → E.instant s)
    (hreq : ∀ s, P s → R ((s.mapEnv fun v => { v with source := { v.source with requests := v.source.requests + 1 } }).mapPorts
      fun p => { p with byteRequest := true }))
    (hwait : ∀ s, R s → sourceAnswers s = none → E.early .waiting s)
    (hans : ∀ s byte t, R s → sourceAnswers s = some (byte, t) → A byte t) : Eng.Keeps P readSource A E :=
  keeps_bind (keeps_act hb hl he heR.instant hreq) fun _ => keeps_bind (keeps_tick hbR hlR heR) fun _ => keeps_did fun s hs => by
    cases h : sourceAnswers s with
    | none => exact hwait s hs h
    | some r => exact ⟨hans s r.1 r.2 hs h, hiA _ _ (hans s r.1 r.2 hs h)⟩

/-- The states between an offer and its acceptance, and after the acceptance. -/
theorem keeps_offerWith {offer : State → State} {A : State → Prop} (hb : ∀ s, P s → isBusy s.eng.state = true)
    (hl : LandingKeeps P) (he : AllowsAccess P E)
    (hbR : ∀ s, R s → isBusy s.eng.state = true) (hlR : LandingKeeps R) (heR : AllowsAccess R E)
    (hiA : ∀ s, A s → E.instant s)
    (hoff : ∀ s, P s → R (offer s))
    (hwait : ∀ s, R s → sinkAccepts s = none → E.early .waiting s)
    (hacc : ∀ s t, R s → sinkAccepts s = some t → A t) : Eng.Keeps P (offerWith offer) (fun _ => A) E :=
  keeps_bind (keeps_act hb hl he heR.instant hoff) fun _ => keeps_bind (keeps_tick hbR hlR heR) fun _ => keeps_did fun s hs => by
    cases h : sinkAccepts s with
    | none => exact hwait s hs h
    | some t => exact ⟨hacc s t hs h, hiA _ (hacc s t hs h)⟩

end Sys2Proof.Machine
end

