-- ==== Sys2Proof/Laws/ActionRun.lean ====
section
/-! SUPPORT. The instants of a thread follow one another by single actions and host accesses (R8, R92): the rules that carry
this through the engine's elementary actions (`Eng.Linked`). -/

namespace Sys2Proof.Machine

variable {α β : Type}

/-- The states of a list are instants that follow one another, the first of them following s. -/
def Leads : State → List State → Prop
  | _, [] => True
  | s, u :: r => NextInstant s u ∧ Leads u r

theorem leads_iff_isChain (s : State) (l : List State) : Leads s l ↔ (s :: l).IsChain NextInstant := by
  induction l generalizing s with
  | nil => simp [Leads]
  | cons u r ih => simp [Leads, ih]

theorem leads_append (s : State) (l r : List State) : Leads s (l ++ r) ↔ Leads s l ∧ Leads (l.getLastD s) r := by
  induction l generalizing s with
  | nil => simp [Leads]
  | cons u l ih => simp only [List.cons_append, Leads, ih, List.getLastD_cons, and_assoc]

theorem getLastD_append (s : State) (l r : List State) : (l ++ r).getLastD s = r.getLastD (l.getLastD s) := by
  induction l generalizing s with
  | nil => rfl
  | cons u l ih => simp only [List.cons_append, List.getLastD_cons, ih]

theorem writeCmd_bus (w : Word) (s : State) : (writeCmd w s).env.bus = s.env.bus := by
  have hf : ∀ c v, (takeFault c v s).env = s.env := by intro c v; simp only [takeFault]; split <;> rfl
  have hs : ∀ l v f, (f s).env = s.env → (startCommand l v f s).env = s.env := by
    intro l v f h
    cases l
    · exact h
    · exact hf _ _
    · rfl
  simp only [writeCmd]
  split <;>
    first
    | rfl
    | exact congrArg Env.bus (hf _ _)
    | exact congrArg Env.bus (hs _ _ _ rfl)

theorem land_bus {event : HostEvent} {rest : List BusItem} {s t : State} (h : (land event rest).run s = .ok () t) :
    t.env.bus = rest := by
  cases event with
  | read index =>
    simp only [land, run_did, EStateM.Result.ok.injEq, true_and] at h
    rw [← h]
    simp only [doRead, readReg]
    split
    · rfl
    · split <;> rfl
  | write index w =>
    simp only [land, run_did] at h
    split at h
    · cases h
    · cases h
      simp only [doWrite]
      split
      · rfl
      · split
        · exact writeCmd_bus w _
        · simp only [writeReg]; split <;> rfl
  | reset level => cases level <;> cases h; rfl
  | position bytes =>
    simp only [land, run_did] at h
    split at h <;> cases h
    rfl

theorem landed_nearer {s u : State} (h : Landed s u) : Landed s (nearer u) := by
  unfold nearer
  split
  · exact h
  · exact h.trans ⟨rfl, rfl, rfl, rfl, rfl, rfl, rfl, rfl⟩

/-- The accesses that are due land one after another; the one after them is one action nearer. -/
theorem landDue_leads : ∀ (l : List BusItem) {s : State}, isBusy s.eng.state = true → s.env.bus = l →
    Leads s ((landDue l).passed s) ∧
      match (landDue l).run s with
      | .ok _ t => ∃ u, u = ((landDue l).passed s).getLastD s ∧ Landed s u ∧ NothingDue u ∧ t = nearer u
      | .error .ended t => t = ((landDue l).passed s).getLastD s
      | .error .waiting _ => False
      | .error (.undefined _) _ => True := by
  intro l
  induction l with
  | nil =>
    intro s _ hl
    refine ⟨trivial, s, rfl, Landed.refl s, ?_, by simp only [nearer, hl]⟩
    intro it rest h
    rw [hl] at h; cases h
  | cons it rest ih =>
    intro s hb hl
    by_cases hg : it.gap = 0
    · simp only [landDue, if_pos hg, run_bind, passed_bind, land_passed]
      rcases land_busy hb it.event rest with ⟨t, ht, k⟩ | ⟨t, ht, k⟩ | ⟨t, ht⟩
      · simp only [ht, took]
        obtain ⟨hc, hr⟩ := ih (s := t) (by rw [k.eng]; exact hb) (land_bus ht)
        refine ⟨⟨.access hb hl hg (.inl ht), hc⟩, ?_⟩
        simp only [List.singleton_append, List.getLastD_cons]
        revert hr
        cases (landDue rest).run t with
        | ok a w => exact fun ⟨u, hu, hk, hn⟩ => ⟨u, hu, k.trans hk, hn⟩
        | error e w => cases e <;> exact id
      · simp only [ht, took]
        exact ⟨⟨.access hb hl hg (.inr ht), trivial⟩, rfl⟩
      · simp only [ht, took]
        exact ⟨trivial, trivial⟩
    · simp only [landDue, if_neg hg, run_of, passed_of]
      refine ⟨trivial, s, rfl, Landed.refl s, ?_, by simp [nearer, hl]⟩
      intro i r h
      rw [hl] at h; cases h; exact hg

/-- The point before an engine action. -/
theorem tick_leads {s : State} (hb : isBusy s.eng.state = true) :
    Leads s (tick.passed s) ∧
      match tick.run s with
      | .ok _ t => ∃ u, u = (tick.passed s).getLastD s ∧ Landed s u ∧ NothingDue u ∧ t = nearer u
      | .error .ended t => t = (tick.passed s).getLastD s
      | .error .waiting _ => False
      | .error (.undefined _) _ => True := by
  simpa only [tick, run_bind, passed_bind, run_look, passed_look, List.nil_append] using landDue_leads s.env.bus hb rfl

/-- How a thread whose last instant is u ends: in u, with Q unless its command has ended; an engine that waits for a port has
counted one action towards the next access. -/
def EndsAt (Q : α → State → Prop) (u : State) : EStateM.Result Stop State α → Prop
  | .ok a t => t = u ∧ Q a t
  | .error .ended t => t = u
  | .error .waiting t => inFlight t.ports = true ∧ NothingDue u ∧ t = nearer u
  | .error (.undefined _) _ => True

/-- From a state with P the instants of the thread follow one another, and it ends at the last of them. -/
def Eng.Linked (P : State → Prop) (x : Eng α) (Q : α → State → Prop) : Prop :=
  ∀ s, P s → Leads s (x.passed s) ∧
    EndsAt Q ((x.passed s).getLastD s) (x.run s)

variable {P R : State → Prop}

theorem linked_pure {Q : α → State → Prop} {a : α} (h : ∀ s, P s → Q a s) : Eng.Linked P (pure a) Q :=
  fun s hs => ⟨trivial, rfl, h s hs⟩

theorem linked_bind {Q : α → State → Prop} {S : β → State → Prop} {x : Eng α} {f : α → Eng β} (hx : Eng.Linked P x Q)
    (hf : ∀ a, Eng.Linked (Q a) (f a) S) : Eng.Linked P (x >>= f) S := by
  intro s hs
  have h := hx s hs
  rw [run_bind, passed_bind]
  revert h
  cases x.run s with
  | ok a t =>
    intro ⟨h, ht, hq⟩
    have k := hf a t hq
    simp only []
    rw [leads_append, ← ht]
    refine ⟨⟨h, k.1⟩, ?_⟩
    have hg : ((x.passed s) ++ ((f a).passed t)).getLastD s = ((f a).passed t).getLastD t := by
      rw [getLastD_append, ← ht]
    rw [hg]
    exact k.2
  | error e t => intro h; exact ⟨h.1, by cases e <;> exact h.2⟩

theorem linked_pre {Q : α → State → Prop} {x : Eng α} (hx : Eng.Linked R x Q) (h : ∀ s, P s → R s) : Eng.Linked P x Q :=
  fun s hs => hx s (h s hs)

theorem linked_post {Q S : α → State → Prop} {x : Eng α} (hx : Eng.Linked P x Q) (h : ∀ a s, Q a s → S a s) :
    Eng.Linked P x S := by
  intro s hs
  refine ⟨(hx s hs).1, ?_⟩
  have := (hx s hs).2
  revert this
  cases x.run s with
  | ok a t => exact fun k => ⟨k.1, h a t k.2⟩
  | error e t => cases e <;> exact id

/-- The state that is looked at can be used in what follows. -/
theorem linked_look {S : β → State → Prop} {f : State → Eng β} (hf : ∀ s, P s → Eng.Linked (fun t => t = s) (f s) S) :
    Eng.Linked P (look >>= f) S := by
  intro s hs
  simpa only [run_bind, passed_bind, run_look, passed_look, List.nil_append] using hf s hs s rfl

/-- The point before an engine action, then the action. -/
theorem linked_tick_did {Q : α → State → Prop} {f : State → EStateM.Result Stop State α}
    (hb : ∀ s, P s → isBusy s.eng.state = true)
    (h : ∀ s u, P s → Landed s u → match f u with
      | .ok a t => EngineAction u t ∧ Q a t
      | .error .ended t => EngineAction u t
      | .error .waiting t => t = u ∧ inFlight u.ports = true
      | .error (.undefined _) _ => True) : Eng.Linked P (tick >>= fun _ => Eng.did f) Q := by
  intro s hs
  have ht := tick_leads (hb s hs)
  rw [run_bind, passed_bind]
  revert ht
  cases tick.run s with
  | ok a v =>
    rintro ⟨hl, u, hu, k, hn, rfl⟩
    have hf := h s _ hs (landed_nearer k)
    have hbu : isBusy u.eng.state = true := by rw [k.eng]; exact hb s hs
    simp only [run_did, passed_did]
    rw [leads_append, ← hu]
    revert hf
    rcases f (nearer u) with ⟨b, t⟩ | ⟨e, t⟩
    · intro hf
      exact ⟨⟨hl, .action hbu hn hf.1, trivial⟩, by simp [took, EndsAt, hf.2]⟩
    · cases e with
      | ended => exact fun hf => ⟨⟨hl, .action hbu hn hf, trivial⟩, by simp [took, EndsAt]⟩
      | waiting =>
        exact fun ⟨hf, hp⟩ => ⟨⟨hl, trivial⟩, by
          simpa only [took, EndsAt, List.append_nil, ← hu] using ⟨hf ▸ hp, hn, hf⟩⟩
      | undefined f => exact fun _ => ⟨⟨hl, trivial⟩, trivial⟩
  | error e v =>
    cases e with
    | ended => exact fun h => ⟨h.1, h.2⟩
    | waiting => exact fun h => h.2.elim
    | undefined f => exact fun h => ⟨h.1, trivial⟩

theorem linked_act {f : State → State} (hb : ∀ s, P s → isBusy s.eng.state = true)
    (h : ∀ s u, P s → Landed s u → EngineAction u (f u) ∧ R (f u)) : Eng.Linked P (act f) (fun _ => R) :=
  linked_tick_did hb h

theorem linked_raise {Q : α → State → Prop} {c : Cause} {info : Word} (hb : ∀ s, P s → isBusy s.eng.state = true)
    (hc : causeKind c ≠ 3) : Eng.Linked P (raise c info : Eng α) Q :=
  linked_tick_did hb fun _ _ _ _ => .fault c info hc

theorem linked_wrRam {ram : RamName} {depth index : Nat} {f : Memory → Memory} (hb : ∀ s, P s → isBusy s.eng.state = true)
    (h : ∀ s u, P s → Landed s u → index < depth → WritesRam u.mem (f u.mem) ∧ R (u.mapMem f)) :
    Eng.Linked P (wrRam ram depth index f) (fun _ => R) :=
  linked_tick_did hb fun s u hs k => by
    by_cases hi : index < depth
    · rw [if_pos hi]
      exact ⟨.ram (h s u hs k hi).1, (h s u hs k hi).2⟩
    · rw [if_neg hi]
      trivial

/-- The check that a RAM read names an entry of the RAM. -/
theorem linked_inRam {ram : RamName} {depth index : Nat} : Eng.Linked P (inRam ram depth index) (fun _ => P) := by
  intro s hs
  simp only [inRam, run_of, passed_of]
  refine ⟨trivial, ?_⟩
  split
  · exact ⟨rfl, hs⟩
  · trivial

/-- A command is in progress. -/
abbrev Busy (s : State) : Prop := isBusy s.eng.state = true

theorem Landed.busy {s u : State} (h : Landed s u) (hb : Busy s) : Busy u := by rw [Busy, h.eng]; exact hb

theorem sourceAnswers_eng {s t : State} {byte : Option Byte} (h : sourceAnswers s = some (byte, t)) : t.eng = s.eng := by
  simp only [sourceAnswers] at h
  split at h
  · cases h
  · cases h; rfl

theorem sinkAccepts_eng {s t : State} (h : sinkAccepts s = some t) : t.eng = s.eng := by
  simp only [sinkAccepts] at h
  split at h
  · cases h; rfl
  · cases h

theorem linked_readSource : Eng.Linked Busy readSource (fun _ => Busy) :=
  linked_bind (Q := fun _ s => Busy s ∧ s.ports.byteRequest = true)
    (linked_act (fun s h => h) fun s u hs k => ⟨.request, k.busy hs, rfl⟩)
    fun _ => linked_tick_did (fun s h => h.1) fun s u hs k => by
      cases h : sourceAnswers u with
      | none => exact ⟨rfl, by simp [inFlight, k.byteRequest, hs.2]⟩
      | some r => exact ⟨.answer h, by rw [Busy, sourceAnswers_eng h]; exact k.busy hs.1⟩

theorem linked_offerWith {offer : State → State} (hb : ∀ s, P s → Busy s)
    (h : ∀ s u, P s → Landed s u →
      EngineAction u (offer u) ∧ (offer u).eng = u.eng ∧ (offer u).ports.offeredBeat.isSome) :
    Eng.Linked P (offerWith offer) (fun _ => Busy) :=
  linked_bind (Q := fun _ s => Busy s ∧ s.ports.offeredBeat.isSome)
    (linked_act hb fun s u hs k =>
      ⟨(h s u hs k).1, by rw [Busy, (h s u hs k).2.1]; exact k.busy (hb s hs), (h s u hs k).2.2⟩)
    fun _ => linked_tick_did (fun s h => h.1) fun s u hs k => by
      cases h : sinkAccepts u with
      | none => exact ⟨rfl, by simp [inFlight, k.offeredBeat, hs.2]⟩
      | some t => exact ⟨.accept h, by rw [Busy, sinkAccepts_eng h]; exact k.busy hs.1⟩

end Sys2Proof.Machine
end

