-- ==== Sys2Proof/Laws/CodeReader.lean ====
section
/-! SUPPORT. What the code reader does when no host access is to come and the byte source answers: one lemma for each of its
operations, in terms of the bytes the source has still to deliver. -/

namespace Sys2Proof.Machine

/-! ## One transaction -/

/-- The state after the engine has issued a request and the source has answered it. -/
def afterRead (s : State) (moved : Nat) : State :=
  (s.mapEnv fun v => { v with source := { v.source with cursor := v.source.cursor + moved, requests := v.source.requests + 1 } }).mapPorts
    fun p => { p with byteRequest := false }

@[simp] theorem afterRead_eng (s : State) (n : Nat) : (afterRead s n).eng = s.eng := rfl
@[simp] theorem afterRead_mem (s : State) (n : Nat) : (afterRead s n).mem = s.mem := rfl
@[simp] theorem afterRead_host (s : State) (n : Nat) : (afterRead s n).host = s.host := rfl
@[simp] theorem afterRead_free (s : State) (n : Nat) : (afterRead s n).free = s.free := rfl
@[simp] theorem afterRead_bus (s : State) (n : Nat) : (afterRead s n).env.bus = s.env.bus := rfl
@[simp] theorem afterRead_reads (s : State) (n : Nat) : (afterRead s n).env.reads = s.env.reads := rfl
@[simp] theorem afterRead_sink (s : State) (n : Nat) : (afterRead s n).env.sink = s.env.sink := rfl
@[simp] theorem afterRead_buffer (s : State) (n : Nat) : (afterRead s n).env.source.buffer = s.env.source.buffer := rfl
@[simp] theorem afterRead_answersLeft (s : State) (n : Nat) :
    (afterRead s n).env.source.answersLeft = s.env.source.answersLeft := rfl
@[simp] theorem afterRead_ports (s : State) (n : Nat) : (afterRead s n).ports = { s.ports with byteRequest := false } := rfl
@[simp] theorem afterRead_cursor (s : State) (n : Nat) : (afterRead s n).env.source.cursor = s.env.source.cursor + n := rfl

theorem unread_eq_cons {s : State} {b : Byte} {more : List Byte} (h : unread s = b :: more) :
    s.env.source.buffer[s.env.source.cursor]? = some b ∧ unread (afterRead s 1) = more := by
  have h' : s.env.source.buffer.drop s.env.source.cursor = b :: more := h
  have h1 : s.env.source.buffer[s.env.source.cursor]? = some b := by
    have : (s.env.source.buffer.drop s.env.source.cursor)[0]? = some b := by rw [h']; rfl
    simpa using this
  refine ⟨h1, ?_⟩
  show s.env.source.buffer.drop (s.env.source.cursor + 1) = more
  rw [← List.drop_drop, h']; rfl

theorem unread_eq_nil {s : State} (h : unread s = []) : s.env.source.buffer[s.env.source.cursor]? = none := by
  have := List.drop_eq_nil_iff.mp h
  simpa using this

theorem readSource_byte {s : State} (hq : Quiet s) (ha : s.env.source.answersLeft = none) {b : Byte} {more : List Byte}
    (h : unread s = b :: more) : readSource.run s = .ok (some b) (afterRead s 1) := by
  have hb := (unread_eq_cons h).1
  obtain ⟨hl, he⟩ := List.getElem?_eq_some_iff.mp hb
  simp [readSource, act_quiet hq, tick_quiet, hq, sourceAnswers, ha, spend, hl, he, afterRead, State.mapEnv, State.mapPorts]

theorem readSource_exhausted {s : State} (hq : Quiet s) (ha : s.env.source.answersLeft = none) (h : unread s = []) :
    readSource.run s = .ok none (afterRead s 0) := by
  have hb := unread_eq_nil h
  have hl : s.env.source.buffer.length ≤ s.env.source.cursor := by simpa using hb
  simp [readSource, act_quiet hq, tick_quiet, hq, sourceAnswers, ha, spend, afterRead, State.mapEnv, State.mapPorts, hl]

theorem unread_afterRead_zero (s : State) : unread (afterRead s 0) = unread s := rfl

/-! ## FetchSubBlock -/

/-- What a fetch of bytes k .. k + n - 1 leaves: SBBUF, the source and nothing else. -/
structure Fetched (s t : State) (k n : Nat) (bytes : Nat → Byte) (left : List Byte) : Prop where
  eng : t.eng = s.eng
  host : t.host = s.host
  free : t.free = s.free
  sink : t.env.sink = s.env.sink
  bus : t.env.bus = s.env.bus
  reads : t.env.reads = s.env.reads
  buffer : t.env.source.buffer = s.env.source.buffer
  answers : t.env.source.answersLeft = s.env.source.answersLeft
  offered : t.ports.offeredBeat = s.ports.offeredBeat
  rst : t.ports.rst = s.ports.rst
  request : s.ports.byteRequest = false → t.ports.byteRequest = false
  prefixRam : t.mem.prefixRam = s.mem.prefixRam
  cleared : t.mem.prefixCleared = s.mem.prefixCleared
  suffixRam : t.mem.suffixRam = s.mem.suffixRam
  stackRam : t.mem.stackRam = s.mem.stackRam
  sbbuf : ∀ j, sbbufAt t j = if k ≤ j ∧ j < k + n then bytes (j - k) else sbbufAt s j
  left : unread t = left

theorem Fetched.sameTable {s t : State} {k n : Nat} {bytes : Nat → Byte} {left : List Byte} (h : Fetched s t k n bytes left) :
    SameTable s t := by
  intro j
  simp [prefixAt, prefixUnlisted, suffixAt, h.prefixRam, h.cleared, h.suffixRam, h.free]

theorem Fetched.sameStack {s t : State} {k n : Nat} {bytes : Nat → Byte} {left : List Byte} (h : Fetched s t k n bytes left) :
    SameStack s t := by
  intro j
  simp [stackAt, h.stackRam, h.free]

/-- One byte stored at k, and the rest fetched from k + 1 on. -/
theorem Fetched.cons {s r t : State} {k n : Nat} {b : Byte} {bytes : Nat → Byte} {left : List Byte}
    (hr : Fetched (r.mapMem (setSbbuf k b)) t (k + 1) n bytes left) (hs : Fetched s r k 0 bytes (unread r)) :
    Fetched s t k (n + 1) (fun j => if j = 0 then b else bytes (j - 1)) left where
  eng := hr.eng.trans hs.eng
  host := hr.host.trans hs.host
  free := hr.free.trans hs.free
  sink := hr.sink.trans hs.sink
  bus := hr.bus.trans hs.bus
  reads := hr.reads.trans hs.reads
  buffer := hr.buffer.trans hs.buffer
  answers := hr.answers.trans hs.answers
  offered := hr.offered.trans hs.offered
  rst := hr.rst.trans hs.rst
  request := fun h => hr.request (hs.request h)
  prefixRam := hr.prefixRam.trans hs.prefixRam
  cleared := hr.cleared.trans hs.cleared
  suffixRam := hr.suffixRam.trans hs.suffixRam
  stackRam := hr.stackRam.trans hs.stackRam
  sbbuf := by
    intro j
    rw [hr.sbbuf, sbbufAt_setSbbuf, hs.sbbuf]
    by_cases h1 : k + 1 ≤ j ∧ j < k + 1 + n
    · rw [if_pos h1, if_pos ⟨by omega, by omega⟩, if_neg (by omega)]
      congr 1
    · by_cases h2 : k = j
      · subst h2; simp
      · rw [if_neg h1, if_neg h2, if_neg (by omega), if_neg (by omega)]
  left := hr.left

theorem Fetched.refl (s : State) (k : Nat) (bytes : Nat → Byte) : Fetched s s k 0 bytes (unread s) where
  eng := rfl
  host := rfl
  free := rfl
  sink := rfl
  bus := rfl
  reads := rfl
  buffer := rfl
  answers := rfl
  offered := rfl
  rst := rfl
  request := id
  prefixRam := rfl
  cleared := rfl
  suffixRam := rfl
  stackRam := rfl
  sbbuf := fun j => by rw [if_neg (by omega)]
  left := rfl

theorem Fetched.read (s : State) (k m : Nat) (bytes : Nat → Byte) :
    Fetched s (afterRead s m) k 0 bytes (unread (afterRead s m)) where
  eng := rfl
  host := rfl
  free := rfl
  sink := rfl
  bus := rfl
  reads := rfl
  buffer := rfl
  answers := rfl
  offered := rfl
  rst := rfl
  request := fun _ => rfl
  prefixRam := rfl
  cleared := rfl
  suffixRam := rfl
  stackRam := rfl
  sbbuf := fun j => by rw [if_neg (by omega)]; rfl
  left := rfl

theorem Fetched.congr {s t : State} {k n : Nat} {f g : Nat → Byte} {left : List Byte} (h : Fetched s t k n f left)
    (hfg : ∀ j, j < n → f j = g j) : Fetched s t k n g left :=
  { h with
    sbbuf := fun j => by
      rw [h.sbbuf]
      split
      · exact hfg _ (by omega)
      · rfl }

/-- The zero fill of what is left of a sub-block (R162). -/
theorem fetchBytes_zeros (policy : ShortReadPolicy) (len : Nat) (cause : Cause) {s : State} (hq : Quiet s) :
    ∀ n k, k + n ≤ 255 → ∃ t, (fetchBytes policy len cause n k true).run s = .ok () t ∧ Fetched s t k n (fun _ => 0) (unread s) := by
  intro n
  induction n generalizing s with
  | zero => intro k _; exact ⟨s, rfl, Fetched.refl s k _⟩
  | succ n ih =>
    intro k hk
    obtain ⟨t, ht, hf⟩ := ih (s := s.mapMem (setSbbuf k 0)) hq (k + 1) (by omega)
    refine ⟨t, ?_, (hf.cons (Fetched.refl s k _)).congr (by intro j _; simp)⟩
    have hk' : k < Config.subBlockMax := by show k < 255; omega
    rw [fetchBytes, run_bind, wrRam_quiet hq hk']
    exact ht

/-- One byte of a fetch that the source answers: it is stored, and the fetch goes on (R162). -/
theorem fetchBytes_byte (policy : ShortReadPolicy) (len : Nat) (cause : Cause) {s : State} (hq : Quiet s)
    (ha : s.env.source.answersLeft = none) {b : Byte} {more : List Byte} (hu : unread s = b :: more) {k : Nat} (hk : k < 255)
    (n : Nat) :
    (fetchBytes policy len cause (n + 1) k false).run s =
      (fetchBytes policy len cause n (k + 1) false).run ((afterRead s 1).mapMem (setSbbuf k b)) := by
  have hk' : k < Config.subBlockMax := hk
  cases policy <;>
  · rw [fetchBytes, run_bind, readSource_byte hq ha hu]
    simp only [run_bind]
    rw [wrRam_quiet (s := afterRead s 1) hq hk']

/-- A fetch of n bytes that the source has (R162). -/
theorem fetchBytes_present (policy : ShortReadPolicy) (len : Nat) (cause : Cause) {s : State} (hq : Quiet s)
    (ha : s.env.source.answersLeft = none) :
    ∀ n k, k + n ≤ 255 → n ≤ (unread s).length →
      ∃ t, (fetchBytes policy len cause n k false).run s = .ok () t ∧
        Fetched s t k n (fun j => (unread s).getD j 0) ((unread s).drop n) := by
  intro n
  induction n generalizing s with
  | zero => intro k _ _; exact ⟨s, rfl, Fetched.refl s k _⟩
  | succ n ih =>
    intro k hk hl
    cases hu : unread s with
    | nil => rw [hu] at hl; simp at hl
    | cons b more =>
      have hmore := (unread_eq_cons hu).2
      rw [hu] at hl
      obtain ⟨t, ht, hf⟩ := ih (s := (afterRead s 1).mapMem (setSbbuf k b)) hq ha (k + 1) (by omega)
        (by show n ≤ (unread (afterRead s 1)).length; rw [hmore]; simpa using hl)
      refine ⟨t, ?_, ?_⟩
      · rw [fetchBytes_byte _ len cause hq ha hu (by omega)]
        exact ht
      · have hm : unread ((afterRead s 1).mapMem (setSbbuf k b)) = more := hmore
        rw [hm] at hf
        refine (hf.cons (Fetched.read s k 1 _)).congr ?_
        intro j _
        cases j with
        | zero => rfl
        | succ j => simp

/-- A fetch that finds the source exhausted, under the policy Fault: the bytes there are have been stored, and the fault is
taken (R162). -/
theorem fetchBytes_fault (len : Nat) (cause : Cause) {s : State} (hq : Quiet s) (ha : s.env.source.answersLeft = none) :
    ∀ n k, k + n ≤ 255 → (unread s).length < n →
      ∃ t, (fetchBytes .fault len cause n k false).run s =
          .error .ended (takeFault cause (BitVec.ofNat 32 (len * 256 + (k + (unread s).length))) t) ∧
        Fetched s t k (unread s).length (fun j => (unread s).getD j 0) [] := by
  intro n
  induction n generalizing s with
  | zero => intro k _ hl; omega
  | succ n ih =>
    intro k hk hl
    cases hu : unread s with
    | nil =>
      refine ⟨afterRead s 0, ?_, ?_⟩
      · rw [fetchBytes, run_bind, readSource_exhausted hq ha hu]
        exact raise_quiet (s := afterRead s 0) hq _ _
      · have hr := Fetched.read s k 0 (fun j => ([] : List Byte).getD j 0)
        rwa [show unread (afterRead s 0) = [] from hu] at hr
    | cons b more =>
      have hmore := (unread_eq_cons hu).2
      rw [hu] at hl
      have hm : unread ((afterRead s 1).mapMem (setSbbuf k b)) = more := hmore
      obtain ⟨t, ht, hf⟩ := ih (s := (afterRead s 1).mapMem (setSbbuf k b)) hq ha (k + 1) (by omega) (by rw [hm]; simpa using hl)
      refine ⟨t, ?_, ?_⟩
      · rw [fetchBytes_byte _ len cause hq ha hu (by omega)]
        rw [hm] at ht
        rw [show k + (b :: more).length = k + 1 + more.length by simp; omega]
        exact ht
      · rw [hm] at hf
        refine (hf.cons (Fetched.read s k 1 _)).congr ?_
        intro j _
        cases j with
        | zero => rfl
        | succ j => simp

/-- A fetch that finds the source exhausted, under the policy ZeroFill (R162). -/
theorem fetchBytes_zeroFill (len : Nat) (cause : Cause) {s : State} (hq : Quiet s)
    (ha : s.env.source.answersLeft = none) :
    ∀ n k, k + n ≤ 255 → (unread s).length < n →
      ∃ t, (fetchBytes .zeroFill len cause n k false).run s = .ok () t ∧
        Fetched s t k n (fun j => (unread s).getD j 0) [] := by
  intro n
  induction n generalizing s with
  | zero => intro k _ hl; omega
  | succ n ih =>
    intro k hk hl
    have hk' : k < Config.subBlockMax := by show k < 255; omega
    cases hu : unread s with
    | nil =>
      obtain ⟨t, ht, hf⟩ := fetchBytes_zeros .zeroFill len cause (s := (afterRead s 0).mapMem (setSbbuf k 0)) hq n (k + 1)
        (by omega)
      refine ⟨t, ?_, ?_⟩
      · rw [fetchBytes, run_bind, readSource_exhausted hq ha hu]
        simp only [run_bind]
        rw [wrRam_quiet (s := afterRead s 0) hq hk']
        exact ht
      · have hz : unread ((afterRead s 0).mapMem (setSbbuf k 0)) = [] := hu
        rw [hz] at hf
        exact (hf.cons (Fetched.read s k 0 _)).congr (by intro j _; simp)
    | cons b more =>
      have hmore := (unread_eq_cons hu).2
      rw [hu] at hl
      have hm : unread ((afterRead s 1).mapMem (setSbbuf k b)) = more := hmore
      obtain ⟨t, ht, hf⟩ := ih (s := (afterRead s 1).mapMem (setSbbuf k b)) hq ha (k + 1) (by omega)
        (by rw [hm]; simpa using hl)
      refine ⟨t, ?_, ?_⟩
      · rw [fetchBytes_byte _ len cause hq ha hu (by omega)]
        exact ht
      · rw [hm] at hf
        refine (hf.cons (Fetched.read s k 1 _)).congr ?_
        intro j _
        cases j with
        | zero => rfl
        | succ j => simp

/-! ## NextDataByte -/

/-- What reading data bytes leaves alone: everything but SHIFT_ACC, SHIFT_STATE, SB_REM, SB_POS, SBBUF and the source. -/
structure OnlyReader (s t : State) : Prop where
  eng : t.eng = { s.eng with
    shiftAcc := t.eng.shiftAcc, shiftState := t.eng.shiftState, sbRem := t.eng.sbRem, sbPos := t.eng.sbPos }
  host : t.host = s.host
  free : t.free = s.free
  sink : t.env.sink = s.env.sink
  bus : t.env.bus = s.env.bus
  reads : t.env.reads = s.env.reads
  answers : t.env.source.answersLeft = s.env.source.answersLeft
  table : SameTable s t
  stack : SameStack s t

theorem OnlyReader.refl (s : State) : OnlyReader s s :=
  ⟨rfl, rfl, rfl, rfl, rfl, rfl, rfl, fun _ => ⟨rfl, rfl⟩, fun _ => rfl⟩

theorem OnlyReader.trans {s t u : State} (h : OnlyReader s t) (k : OnlyReader t u) : OnlyReader s u where
  eng := by rw [k.eng, h.eng]
  host := k.host.trans h.host
  free := k.free.trans h.free
  sink := k.sink.trans h.sink
  bus := k.bus.trans h.bus
  reads := k.reads.trans h.reads
  answers := k.answers.trans h.answers
  table := fun j => ⟨(k.table j).1.trans (h.table j).1, (k.table j).2.trans (h.table j).2⟩
  stack := fun j => (k.stack j).trans (h.stack j)

/-- More looking ahead than there are bytes finds no more sub-blocks. -/
theorem dataBytes_fuel : ∀ (n m : Nat) (l : List Byte), l.length ≤ n → l.length ≤ m → dataBytes n l = dataBytes m l := by
  intro n
  induction n with
  | zero =>
    intro m l hn _
    have : l = [] := List.length_eq_zero_iff.mp (by omega)
    subst this
    cases m <;> rfl
  | succ n ih =>
    intro m l hn hm
    cases l with
    | nil => cases m <;> rfl
    | cons len r =>
      cases m with
      | zero => simp at hm
      | succ m =>
        simp only [dataBytes]
        split
        · rfl
        · rw [ih m (r.drop len.toNat) (by simp at hn ⊢; omega) (by simp at hm ⊢; omega)]

/-- The next sub-block, when the data goes on in one. -/
theorem dataBytes_cons {l : List Byte} {b : Byte} {ds : List Byte} (h : dataBytes l.length l = b :: ds) :
    ∃ len r, l = len :: r ∧ len ≠ 0 ∧ len.toNat ≤ r.length ∧
      r.take len.toNat ++ dataBytes (r.drop len.toNat).length (r.drop len.toNat) = b :: ds := by
  cases l with
  | nil => cases h
  | cons len r =>
    simp only [List.length_cons, dataBytes] at h
    split at h
    · cases h
    · rename_i hc
      rw [not_or] at hc
      refine ⟨len, r, rfl, hc.1, by omega, ?_⟩
      rw [dataBytes_fuel _ r.length _ (Nat.le_refl _) (by simp)]
      exact h

/-- `NextDataByte()`, a new sub-block: with none left of the current one and a complete one next in the stream, SBBUF holds its
bytes (R161). -/
theorem newSubBlock_quiet {s : State} (hq : Quiet s) (ha : s.env.source.answersLeft = none) {len : Byte} {r : List Byte}
    (hu : unread s = len :: r) (hne : len ≠ 0) (hl : len.toNat ≤ r.length) :
    ∃ t, newSubBlock.run s = .ok () t ∧ OnlyReader s t ∧ t.eng = { s.eng with sbRem := len, sbPos := 0 } ∧
      (∀ j, j < len.toNat → sbbufAt t j = r.getD j 0) ∧ unread t = r.drop len.toNat := by
  have hmore := (unread_eq_cons hu).2
  have hlen : len.toNat ≤ 255 := by have := len.isLt; omega
  obtain ⟨t, ht, hf⟩ := fetchBytes_present Config.shortReadPolicy len.toNat .subBlockContent (s := afterRead s 1) hq ha
    len.toNat 0 (by omega) (by rw [hmore]; exact hl)
  rw [hmore] at hf
  have hqt : t.env.bus = [] := hf.bus.trans hq
  refine ⟨t.mapEng fun e => { e with sbRem := len, sbPos := 0 }, ?_, ?_, ?_, ?_, ?_⟩
  · rw [newSubBlock, run_bind, readSource_byte hq ha hu]
    simp only [hne, if_false, run_bind]
    have hfs : (fetchSubBlock len .subBlockContent).run (afterRead s 1) = .ok () t := ht
    rw [hfs]
    exact wr_quiet hqt _
  · exact
      { eng := by show _ = _; simp [hf.eng]
        host := hf.host
        free := hf.free
        sink := hf.sink
        bus := hf.bus
        reads := hf.reads
        answers := hf.answers
        table := hf.sameTable
        stack := hf.sameStack }
  · simp [hf.eng]
  · intro j hj
    refine (hf.sbbuf j).trans ?_
    rw [if_pos ⟨by omega, by omega⟩, Nat.sub_zero]
  · exact hf.left

/-- `NextDataByte()`: the next data byte of the stream, in order and across sub-blocks (R161, R163). -/
theorem nextDataByte_quiet {s : State} (hq : Quiet s) (ha : s.env.source.answersLeft = none)
    (hp : s.eng.sbPos.toNat + s.eng.sbRem.toNat ≤ 255) {b : Byte} {ds : List Byte} (hd : dataToCome s = b :: ds) :
    ∃ t, nextDataByte.run s = .ok b t ∧ OnlyReader s t ∧ t.eng.shiftAcc = s.eng.shiftAcc ∧
      t.eng.shiftState = s.eng.shiftState ∧ t.eng.sbPos.toNat + t.eng.sbRem.toNat ≤ 255 ∧ dataToCome t = ds := by
  -- the byte is taken from a sub-block that is there
  have take : ∀ u : State, Quiet u → u.eng.sbRem ≠ 0 → u.eng.sbPos.toNat + u.eng.sbRem.toNat ≤ 255 →
      dataToCome u = b :: ds →
      ∃ t, (do
          let s ← look
          inRam .sbbuf Config.subBlockMax s.eng.sbPos.toNat
          let b := sbbufAt s s.eng.sbPos.toNat
          wr fun e => { e with sbPos := e.sbPos + 1, sbRem := e.sbRem - 1 }
          pure b : Eng Byte).run u = .ok b t ∧ OnlyReader u t ∧ t.eng.shiftAcc = u.eng.shiftAcc ∧
        t.eng.shiftState = u.eng.shiftState ∧ t.eng.sbPos.toNat + t.eng.sbRem.toNat ≤ 255 ∧ dataToCome t = ds := by
    intro u hqu hne hpu hdu
    have hrem : 0 < u.eng.sbRem.toNat := by
      rcases Nat.eq_zero_or_pos u.eng.sbRem.toNat with h | h
      · exact absurd (BitVec.eq_of_toNat_eq h) hne
      · exact h
    have hpos : (u.eng.sbPos + 1).toNat = u.eng.sbPos.toNat + 1 := by
      rw [BitVec.toNat_add]; show (_ + 1) % 256 = _; omega
    have hrem' : (u.eng.sbRem - 1).toNat = u.eng.sbRem.toNat - 1 := by
      rw [BitVec.toNat_sub]; show (256 - 1 + _) % 256 = _; have := u.eng.sbRem.isLt; omega
    have hb : sbbufAt u u.eng.sbPos.toNat = b ∧
        ((List.range (u.eng.sbRem.toNat - 1)).map fun k => sbbufAt u (u.eng.sbPos.toNat + 1 + k)) ++
          dataBytes (unread u).length (unread u) = ds := by
      rw [dataToCome] at hdu
      obtain ⟨n, hn⟩ : ∃ n, u.eng.sbRem.toNat = n + 1 := ⟨u.eng.sbRem.toNat - 1, by omega⟩
      rw [hn, List.range_succ_eq_map, List.map_cons, List.cons_append, List.cons.injEq] at hdu
      refine ⟨hdu.1, ?_⟩
      rw [hn, ← hdu.2, List.map_map]
      simp [Function.comp_def, Nat.add_assoc, Nat.add_comm 1]
    refine ⟨u.mapEng fun e => { e with sbPos := e.sbPos + 1, sbRem := e.sbRem - 1 }, ?_, ?_, rfl, rfl, ?_, ?_⟩
    · rw [run_bind, run_look]
      simp only [run_bind]
      rw [inRam_ok (show u.eng.sbPos.toNat < Config.subBlockMax by show _ < 255; omega)]
      simp only [wr_quiet hqu, run_pure]
      rw [hb.1]
    · exact ⟨rfl, rfl, rfl, rfl, rfl, rfl, rfl, fun _ => ⟨rfl, rfl⟩, fun _ => rfl⟩
    · show (u.eng.sbPos + 1).toNat + (u.eng.sbRem - 1).toNat ≤ 255
      rw [hpos, hrem']; omega
    · show ((List.range (u.eng.sbRem - 1).toNat).map fun k => sbbufAt u ((u.eng.sbPos + 1).toNat + k)) ++
        dataBytes (unread u).length (unread u) = ds
      rw [hpos, hrem']
      exact hb.2
  by_cases h0 : s.eng.sbRem = 0
  · have hdb : dataBytes (unread s).length (unread s) = b :: ds := by
      have hz : s.eng.sbRem.toNat = 0 := by rw [h0]; rfl
      simpa [dataToCome, hz] using hd
    obtain ⟨len, r, hu, hne, hl, hds⟩ := dataBytes_cons hdb
    obtain ⟨u, hru, hor, heng, hbuf, hunr⟩ := newSubBlock_quiet hq ha hu hne hl
    have hcome : dataToCome u = b :: ds := by
      rw [← hds, dataToCome, heng, hunr]
      congr 1
      apply List.ext_getElem
      · simp [hl]
      · intro i h1 h2
        simp only [List.length_map, List.length_range] at h1
        simp only [List.getElem_map, List.getElem_range, List.getElem_take]
        show sbbufAt u (0 + i) = _
        rw [Nat.zero_add, hbuf i h1]
        simp [List.getD_eq_getElem?_getD, List.getElem?_eq_getElem (show i < r.length by omega)]
    obtain ⟨t, ht, hot, h1, h2, h3, h4⟩ := take u (hor.bus.trans hq) (by rw [heng]; exact hne)
      (by rw [heng]; show (0#8).toNat + len.toNat ≤ 255; have := len.isLt; simp; omega) hcome
    refine ⟨t, ?_, hor.trans hot, h1.trans (by rw [heng]), h2.trans (by rw [heng]), h3, h4⟩
    rw [nextDataByte, run_bind, run_look]
    simp only [h0, if_true]
    rw [run_bind, hru]
    exact ht
  · obtain ⟨t, ht, hot, h1, h2, h3, h4⟩ := take s hq h0 hp hd
    refine ⟨t, ?_, hot, h1, h2, h3, h4⟩
    rw [nextDataByte, run_bind, run_look]
    simp only [h0, if_false]
    exact ht

/-! ## Fill and ReadCode -/

/-- The registers after one more byte has been put above the buffered bits (R164). -/
def accumulate (b : Byte) (e : Engine) : Engine :=
  { e with shiftAcc := e.shiftAcc ||| (b.setWidth 20 <<< e.shiftState.toNat), shiftState := e.shiftState + 8 }

/-- A byte entering above `n` buffered bits extends them by its own bits (R85). -/
theorem accumulate_bits (acc : BitVec 20) (b : Byte) {n : Nat} (hn : n + 8 ≤ 20) (ha : acc.toNat < 2 ^ n) :
    (List.range (n + 8)).map (acc ||| (b.setWidth 20 <<< n)).getLsbD = (List.range n).map acc.getLsbD ++ byteBits b := by
  have hz : ∀ i, n ≤ i → acc.getLsbD i = false := by
    intro i hi
    rw [BitVec.getLsbD]
    exact Nat.testBit_lt_two_pow (Nat.lt_of_lt_of_le ha (Nat.pow_le_pow_right (by decide) hi))
  apply List.ext_getElem
  · simp [byteBits]
  · intro i h1 h2
    simp only [List.length_map, List.length_range] at h1
    simp only [List.getElem_map, List.getElem_range, BitVec.getLsbD_or, BitVec.getLsbD_shiftLeft, BitVec.getLsbD_setWidth]
    by_cases hi : i < n
    · rw [List.getElem_append_left (by simpa using hi)]
      simp [hi]
    · rw [List.getElem_append_right (by simpa using hi)]
      simp only [byteBits, List.getElem_map, List.getElem_range, List.length_map, List.length_range]
      rw [hz i (by omega)]
      simp [hi, show i < 20 by omega, show i - n < 20 by omega]

theorem accumulate_lt (acc : BitVec 20) (b : Byte) {n : Nat} (ha : acc.toNat < 2 ^ n) :
    (acc ||| (b.setWidth 20 <<< n)).toNat < 2 ^ (n + 8) := by
  rw [BitVec.toNat_or]
  apply Nat.or_lt_two_pow
  · exact Nat.lt_of_lt_of_le ha (Nat.pow_le_pow_right (by decide) (by omega))
  · rw [BitVec.toNat_shiftLeft, BitVec.toNat_setWidth]
    have hb := b.isLt
    have h1 : b.toNat % 2 ^ 20 = b.toNat := Nat.mod_eq_of_lt (by omega)
    rw [h1, Nat.shiftLeft_eq]
    have h2 : b.toNat * 2 ^ n < 2 ^ (n + 8) := by
      rw [Nat.pow_add, Nat.mul_comm (2 ^ n)]
      exact Nat.mul_lt_mul_of_pos_right hb (Nat.two_pow_pos n)
    exact Nat.lt_of_le_of_lt (Nat.mod_le _ _) h2

/-- `Fill()`: the buffered bits are extended by whole data bytes and no bit is lost; with enough bits to come it ends with
CODE_WIDTH of them buffered (R164). -/
theorem fill_quiet : ∀ (n : Nat) {s : State}, Quiet s → s.env.source.answersLeft = none → s.eng.codeWidth.toNat ≤ 12 →
    s.eng.shiftAcc.toNat < 2 ^ s.eng.shiftState.toNat → s.eng.sbPos.toNat + s.eng.sbRem.toNat ≤ 255 →
    s.eng.codeWidth.toNat ≤ s.eng.shiftState.toNat + 8 * n → s.eng.codeWidth.toNat ≤ (pendingBits s).length →
    ∃ t, (fill n).run s = .ok () t ∧ OnlyReader s t ∧ t.eng.shiftAcc.toNat < 2 ^ t.eng.shiftState.toNat ∧
      t.eng.sbPos.toNat + t.eng.sbRem.toNat ≤ 255 ∧ s.eng.codeWidth.toNat ≤ t.eng.shiftState.toNat ∧
      pendingBits t = pendingBits s := by
  intro n
  induction n with
  | zero =>
    intro s _ _ _ hacc hp hn _
    exact ⟨s, rfl, OnlyReader.refl s, hacc, hp, by omega, rfl⟩
  | succ n ih =>
    intro s hq ha hw hacc hp hn hb
    by_cases hlt : s.eng.shiftState.toNat < s.eng.codeWidth.toNat
    · cases hd : dataToCome s with
      | nil =>
        simp only [pendingBits, hd, List.flatMap_nil, List.append_nil, List.length_map, List.length_range] at hb
        omega
      | cons b ds =>
        obtain ⟨u, hu, hou, hacu, hstu, hpu, hdu⟩ := nextDataByte_quiet hq ha hp hd
        have hqu : Quiet u := hou.bus.trans hq
        have hw' : u.eng.codeWidth = s.eng.codeWidth := by rw [hou.eng]
        have hss : (u.eng.shiftState + 8).toNat = s.eng.shiftState.toNat + 8 := by
          rw [hstu, BitVec.toNat_add]; show (_ + 8) % 32 = _; omega
        let v := u.mapEng (accumulate b)
        have hv1 : v.eng.shiftState.toNat = s.eng.shiftState.toNat + 8 := hss
        have hv2 : v.eng.shiftAcc = s.eng.shiftAcc ||| (b.setWidth 20 <<< s.eng.shiftState.toNat) := by
          show u.eng.shiftAcc ||| (b.setWidth 20 <<< u.eng.shiftState.toNat) = _
          rw [hacu, hstu]
        have hpend : pendingBits v = pendingBits s := by
          have hcv : dataToCome v = ds := hdu
          rw [pendingBits, pendingBits, hcv, hv1, hv2, accumulate_bits _ _ (by omega) hacc, hd]
          simp
        obtain ⟨t, ht, hot, h1, h2, h3, h4⟩ := ih (s := v) hqu (hou.answers.trans ha) (by show u.eng.codeWidth.toNat ≤ 12; rw [hw']; exact hw)
          (by rw [hv1, hv2]; exact accumulate_lt _ _ hacc) hpu
          (by rw [hv1]; show u.eng.codeWidth.toNat ≤ _; rw [hw']; omega)
          (by rw [hpend]; show u.eng.codeWidth.toNat ≤ _; rw [hw']; exact hb)
        have huv : OnlyReader u v := ⟨rfl, rfl, rfl, rfl, rfl, rfl, rfl, fun _ => ⟨rfl, rfl⟩, fun _ => rfl⟩
        refine ⟨t, ?_, hou.trans (huv.trans hot), h1, h2, ?_, h4.trans hpend⟩
        · rw [fill, run_bind, run_look]
          simp only [hlt, if_true]
          rw [run_bind, hu]
          simp only [run_bind, wr_quiet hqu]
          exact ht
        · rw [← hw']; exact h3
    · refine ⟨s, ?_, OnlyReader.refl s, hacc, hp, by omega, rfl⟩
      rw [fill, run_bind, run_look]
      simp only [hlt, if_false]
      rfl

/-- The registers after `BumpRunningCode()` (R166, R167). -/
def bumped (e : Engine) : Engine :=
  if e.runningCode.toNat < 4097 then
    if e.maxCode1.toNat < e.runningCode.toNat + 1 ∧ e.codeWidth.toNat < 12 then
      { e with runningCode := e.runningCode + 1, maxCode1 := e.maxCode1 <<< 1, codeWidth := e.codeWidth + 1 }
    else { e with runningCode := e.runningCode + 1 }
  else e

theorem bumpRunningCode_quiet {s : State} (hq : Quiet s) : bumpRunningCode.run s = .ok () (s.mapEng bumped) := by
  rw [bumpRunningCode, run_bind, run_look]
  by_cases h : s.eng.runningCode.toNat < 4097
  · have h' : s.eng.runningCode.toNat < Config.runningCodeCap := h
    have hr : (s.eng.runningCode + 1).toNat = s.eng.runningCode.toNat + 1 := by
      rw [BitVec.toNat_add]; show (_ + 1) % 8192 = _; omega
    simp only [h', if_true, run_bind, wr_quiet hq, run_look, mapEng_eng]
    by_cases hg : s.eng.maxCode1.toNat < s.eng.runningCode.toNat + 1 ∧ s.eng.codeWidth.toNat < 12
    · have hg' : s.eng.maxCode1 < s.eng.runningCode + 1 ∧ s.eng.codeWidth.toNat < Config.maxCodeBits :=
        ⟨by rw [BitVec.lt_def, hr]; exact hg.1, hg.2⟩
      simp only [hg', and_self, if_true]
      rw [wr_quiet (s := s.mapEng _) hq]
      simp only [State.mapEng, bumped, if_pos h, if_pos hg]
    · have hg' : ¬(s.eng.maxCode1 < s.eng.runningCode + 1 ∧ s.eng.codeWidth.toNat < Config.maxCodeBits) := by
        rintro ⟨h1, h2⟩
        rw [BitVec.lt_def, hr] at h1
        exact hg ⟨h1, h2⟩
      simp only [hg', if_false, run_pure]
      simp only [State.mapEng, bumped, if_pos h, if_neg hg]
  · have h' : ¬s.eng.runningCode.toNat < Config.runningCodeCap := h
    simp only [h', if_false, run_pure]
    simp only [State.mapEng, bumped, if_neg h]

/-- The registers after the low w bits have left the accumulator (R165). -/
def consumed (w : BitVec 4) (e : Engine) : Engine :=
  { e with shiftAcc := e.shiftAcc >>> w.toNat, shiftState := e.shiftState - w.setWidth 5 }

/-- `ReadCode()` with CODE_WIDTH at most 12 is `Fill()`, then the low bits, consumed, then `BumpRunningCode()` (R165). -/
theorem readCode_quiet {s t : State} (hw : s.eng.codeWidth.toNat ≤ 12) (hf : (fill 2).run s = .ok () t) (hq : Quiet t)
    (hc : t.eng.codeWidth = s.eng.codeWidth) :
    readCode.run s = .ok (lowBits t.eng.shiftAcc s.eng.codeWidth.toNat)
      (t.mapEng fun e => bumped (consumed s.eng.codeWidth e)) := by
  rw [readCode, run_bind, run_look]
  have hw' : ¬Config.maxCodeBits < s.eng.codeWidth.toNat := by show ¬12 < _; omega
  simp only [hw', if_false, run_bind]
  have hf' : (fill maxBytesPerCode).run s = .ok () t := hf
  rw [hf']
  simp only [run_look, hc, wr_quiet hq]
  rw [wr_quiet (s := t.mapEng _) hq]
  simp only
  rw [bumpRunningCode_quiet (s := (t.mapEng _).mapEng _) hq]
  rfl

theorem consumed_shiftState {w : BitVec 4} {e : Engine} (h : w.toNat ≤ e.shiftState.toNat) :
    (consumed w e).shiftState.toNat = e.shiftState.toNat - w.toNat := by
  show (e.shiftState - w.setWidth 5).toNat = _
  rw [BitVec.toNat_sub, BitVec.toNat_setWidth]
  have h1 := w.isLt
  have h2 := e.shiftState.isLt
  rw [Nat.mod_eq_of_lt (show w.toNat < 2 ^ 5 by omega)]
  omega

theorem consumed_lt {w : BitVec 4} {e : Engine} (h : w.toNat ≤ e.shiftState.toNat)
    (ha : e.shiftAcc.toNat < 2 ^ e.shiftState.toNat) : (consumed w e).shiftAcc.toNat < 2 ^ (consumed w e).shiftState.toNat := by
  rw [consumed_shiftState h]
  show (e.shiftAcc >>> w.toNat).toNat < _
  rw [BitVec.toNat_ushiftRight, Nat.shiftRight_eq_div_pow]
  apply Nat.div_lt_of_lt_mul
  rw [← Nat.pow_add, Nat.add_sub_cancel' h]
  exact ha

theorem lowBits_toNat {acc : BitVec 20} {w : Nat} (hw : w ≤ 12) : (lowBits acc w).toNat = acc.toNat % 2 ^ w := by
  rw [lowBits, BitVec.toNat_ofNat]
  exact Nat.mod_eq_of_lt (Nat.lt_of_lt_of_le (Nat.mod_lt _ (Nat.two_pow_pos w)) (Nat.pow_le_pow_right (by decide) hw))

/-- The buffered bits are those of the code that leaves, then those that stay (R85, R105). -/
theorem buffered_split {w : BitVec 4} {e : Engine} (hw : w.toNat ≤ 12) (h : w.toNat ≤ e.shiftState.toNat) :
    (List.range e.shiftState.toNat).map e.shiftAcc.getLsbD = encodeCodeBits w.toNat (lowBits e.shiftAcc w.toNat) ++
      (List.range (consumed w e).shiftState.toNat).map (consumed w e).shiftAcc.getLsbD := by
  rw [consumed_shiftState h]
  apply List.ext_getElem
  · simp [encodeCodeBits]; omega
  · intro i h1 h2
    simp only [List.getElem_map, List.getElem_range]
    by_cases hi : i < w.toNat
    · rw [List.getElem_append_left (by simpa [encodeCodeBits] using hi)]
      simp only [encodeCodeBits, List.getElem_map, List.getElem_range, BitVec.getLsbD, lowBits_toNat hw]
      rw [Nat.testBit_mod_two_pow]
      simp [hi]
    · rw [List.getElem_append_right (by simpa [encodeCodeBits] using hi)]
      simp only [encodeCodeBits, List.length_map, List.length_range, List.getElem_map, List.getElem_range]
      show e.shiftAcc.getLsbD i = (e.shiftAcc >>> w.toNat).getLsbD (i - w.toNat)
      rw [BitVec.getLsbD_ushiftRight]
      congr 1
      omega

/-- A code below 2^w is told by its w bits. -/
theorem encodeCodeBits_inj {w : Nat} {c d : Code} (hc : c.toNat < 2 ^ w) (hd : d.toNat < 2 ^ w)
    (h : encodeCodeBits w c = encodeCodeBits w d) : c = d := by
  apply BitVec.eq_of_getLsbD_eq
  intro i _
  by_cases hi : i < w
  · have := congrArg (fun l => l[i]?) h
    simpa [encodeCodeBits, hi] using this
  · have z : ∀ x : Code, x.toNat < 2 ^ w → x.getLsbD i = false := fun x hx =>
      Nat.testBit_lt_two_pow (Nat.lt_of_lt_of_le hx (Nat.pow_le_pow_right (by decide) (by omega)))
    rw [z c hc, z d hd]

end Sys2Proof.Machine
end

