-- ==== Sys2Proof/Laws/Codes.lean ====
section
/-! SUPPORT. What the trace-back stack and the chain walks do when no host access is to come and the sink accepts every beat:
one lemma for each operation, in terms of the string of a code. -/

namespace Sys2Proof.Machine

/-! ## Strings -/

theorem StringOf.congr {s t : State} (hm : t.eng.minCodeSize = s.eng.minCodeSize) (ht : SameTable s t) {p : Link} {l : List Byte}
    (h : StringOf s p l) : StringOf t p l := by
  have hc : clearCode t.eng = clearCode s.eng := by simp only [clearCode, hm]
  induction h with
  | pixel p h => exact .pixel p (hc ▸ h)
  | entry p l h1 h2 h3 _ ih =>
    have h5 : StringOf t p (l ++ [suffixAt t p.toNat]) :=
      .entry p l (hc ▸ h1) h2 ((ht p.toNat).1 ▸ h3) ((ht p.toNat).1 ▸ ih)
    rwa [(ht p.toNat).2] at h5

/-- A code has one string. -/
theorem StringOf.unique {s : State} {p : Link} {l k : List Byte} (h : StringOf s p l) (h' : StringOf s p k) : l = k := by
  induction h generalizing k with
  | pixel p h =>
    cases h' with
    | pixel _ _ => rfl
    | entry _ _ h1 _ _ _ => omega
  | entry p l h1 _ _ _ ih =>
    cases h' with
    | pixel _ h => omega
    | entry _ m _ _ _ hm => rw [ih hm]

theorem StringOf.ne_nil {s : State} {p : Link} {l : List Byte} (h : StringOf s p l) : l ≠ [] := by
  cases h <;> simp

/-- A string of more than one pixel is that of a defined entry: its chain goes on, its last pixel is the entry's suffix. -/
theorem StringOf.snoc {s : State} {p : Link} {l : List Byte} {a b : Byte} (h : StringOf s p (a :: l ++ [b])) :
    clearCode s.eng < p.toNat ∧ p.toNat ≤ 4095 ∧ prefixAt s p.toNat ≠ Config.noCode ∧ b = suffixAt s p.toNat ∧
      StringOf s (prefixAt s p.toNat) (a :: l) := by
  generalize hk : a :: l ++ [b] = k at h
  cases h with
  | pixel _ _ => cases l <;> simp at hk
  | entry _ m h1 h2 h3 h4 =>
    obtain ⟨h5, h6⟩ := List.append_inj' hk rfl
    simp only [List.cons.injEq, and_true] at h6
    exact ⟨h1, h2, h3, h6, h5 ▸ h4⟩

theorem StringOf.single {s : State} {p : Link} {a : Byte} (h : StringOf s p [a]) :
    p.toNat < clearCode s.eng ∧ p.setWidth 8 = a := by
  generalize hk : [a] = k at h
  cases h with
  | pixel _ h => exact ⟨h, by simpa using hk.symm⟩
  | entry _ m _ _ _ h4 =>
    have := h4.ne_nil
    cases m with
    | nil => exact absurd rfl this
    | cons _ _ => simp at hk

/-! ## The stack -/

/-- The state after `Push(v)` (R82). -/
def pushed (v : Byte) (s : State) : State :=
  (s.mapMem (setStack s.eng.stackPtr.toNat v)).mapEng fun e => { e with stackPtr := e.stackPtr + 1 }

theorem push_quiet {s : State} (hq : Quiet s) (hs : s.eng.stackPtr.toNat < 4096) (code : Code) (v : Byte) :
    (push code v).run s = .ok () (pushed v s) := by
  rw [push, run_bind, run_look]
  have h1 : s.eng.stackPtr.toNat ≠ Config.stackDepth := by show _ ≠ 4096; omega
  simp only [if_neg h1, run_bind]
  rw [wrRam_quiet hq (show s.eng.stackPtr.toNat < Config.stackDepth from hs)]
  exact wr_quiet (s := s.mapMem _) hq _

theorem pushed_ptr {s : State} (hs : s.eng.stackPtr.toNat < 4096) (v : Byte) :
    (pushed v s).eng.stackPtr.toNat = s.eng.stackPtr.toNat + 1 := by
  show (s.eng.stackPtr + 1).toNat = _
  rw [BitVec.toNat_add]; show (_ + 1) % 8192 = _; omega

theorem pushed_stackAt (s : State) (v : Byte) (k : Nat) :
    stackAt (pushed v s) k = if s.eng.stackPtr.toNat = k then v else stackAt s k :=
  (stackAt_congr rfl rfl k).trans (stackAt_setStack s _ k v)

theorem stackPixels_pushed {s : State} (hs : s.eng.stackPtr.toNat < 4096) (v : Byte) :
    stackPixels (pushed v s) = v :: stackPixels s := by
  rw [stackPixels, stackPixels, pushed_ptr hs, List.range_succ, List.map_append, List.reverse_append]
  simp only [List.map_cons, List.map_nil, List.reverse_cons, List.reverse_nil, List.nil_append, List.singleton_append,
    pushed_stackAt, if_true, List.cons.injEq, true_and]
  congr 1
  apply List.map_congr_left
  intro k hk
  exact (pushed_stackAt s v k).trans (if_neg (by have := List.mem_range.mp hk; omega))

/-- What pushes leave alone: everything but STACK_PTR and the STACK. -/
structure OnlyStack (s t : State) : Prop where
  eng : t.eng = { s.eng with stackPtr := t.eng.stackPtr }
  env : t.env = s.env
  host : t.host = s.host
  ports : t.ports = s.ports
  free : t.free = s.free
  table : t.mem.prefixCleared = s.mem.prefixCleared ∧ t.mem.prefixRam = s.mem.prefixRam ∧ t.mem.suffixRam = s.mem.suffixRam
  sbbuf : t.mem.sbbuf = s.mem.sbbuf

theorem OnlyStack.pushed (v : Byte) (s : State) : OnlyStack s (pushed v s) := ⟨rfl, rfl, rfl, rfl, rfl, ⟨rfl, rfl, rfl⟩, rfl⟩

theorem OnlyStack.trans {s t u : State} (h : OnlyStack s t) (k : OnlyStack t u) : OnlyStack s u where
  eng := by rw [k.eng, h.eng]
  env := k.env.trans h.env
  host := k.host.trans h.host
  ports := k.ports.trans h.ports
  free := k.free.trans h.free
  table := ⟨k.table.1.trans h.table.1, k.table.2.1.trans h.table.2.1, k.table.2.2.trans h.table.2.2⟩
  sbbuf := k.sbbuf.trans h.sbbuf

theorem OnlyStack.sameTable {s t : State} (h : OnlyStack s t) : SameTable s t := fun j => by
  simp [prefixAt, prefixUnlisted, suffixAt, h.table.1, h.table.2.1, h.table.2.2, h.free]

theorem OnlyStack.sameSbbuf {s t : State} (h : OnlyStack s t) : SameSbbuf s t := fun k => by
  simp [sbbufAt, h.sbbuf, h.free]

/-! ## Chain walks (R188) -/

/-- `Trace`: the string of the start code is pushed, last pixel first; the root, its first pixel, is the result. -/
theorem traceFrom_quiet (code : Code) : ∀ (n : Nat) {s : State} {p : Link} {first : Byte} {tail : List Byte}, Quiet s →
    StringOf s p (first :: tail) → tail.length ≤ n → s.eng.stackPtr.toNat + tail.length + 1 ≤ 4096 →
    ∃ t r, (traceFrom code n p).run s = .ok r t ∧ r.setWidth 8 = first ∧ OnlyStack s t ∧
      t.eng.stackPtr.toNat = s.eng.stackPtr.toNat + tail.length + 1 ∧
      stackPixels t = first :: tail ++ stackPixels s ∧
      (∀ k, k < s.eng.stackPtr.toNat ∨ s.eng.stackPtr.toNat + tail.length + 1 ≤ k → stackAt t k = stackAt s k) := by
  intro n
  induction n with
  | zero =>
    intro s p first tail hq h hn hs
    have ht : tail = [] := List.length_eq_zero_iff.mp (by omega)
    subst ht
    obtain ⟨h1, h2⟩ := h.single
    have hs' : s.eng.stackPtr.toNat < 4096 := by simp at hs; omega
    refine ⟨pushed (p.setWidth 8) s, p, ?_, h2, OnlyStack.pushed _ s, pushed_ptr hs' _, ?_, ?_⟩
    · rw [traceFrom, run_bind, run_look]
      simp only [if_pos h1, run_bind, push_quiet hq hs', run_pure]
    · rw [stackPixels_pushed hs', h2]; rfl
    · intro k hk
      rw [pushed_stackAt, if_neg (by simp at hk; omega)]
  | succ n ih =>
    intro s p first tail hq h hn hs
    rcases List.eq_nil_or_concat tail with ht | ⟨l, b, ht⟩
    · subst ht
      obtain ⟨h1, h2⟩ := h.single
      have hs' : s.eng.stackPtr.toNat < 4096 := by simp at hs; omega
      refine ⟨pushed (p.setWidth 8) s, p, ?_, h2, OnlyStack.pushed _ s, pushed_ptr hs' _, ?_, ?_⟩
      · rw [traceFrom, run_bind, run_look]
        simp only [if_pos h1, run_bind, push_quiet hq hs', run_pure]
      · rw [stackPixels_pushed hs', h2]; rfl
      · intro k hk
        rw [pushed_stackAt, if_neg (by simp at hk; omega)]
    · rw [List.concat_eq_append] at ht
      subst ht
      rw [List.length_append, List.length_singleton] at hn hs
      obtain ⟨h1, h2, h3, h4, h5⟩ := h.snoc
      have hs' : s.eng.stackPtr.toNat < 4096 := by omega
      have hp := pushed_ptr hs' (suffixAt s p.toNat)
      have hu : StringOf (pushed (suffixAt s p.toNat) s) (prefixAt s p.toNat) (first :: l) :=
        StringOf.congr (s := s) (t := pushed (suffixAt s p.toNat) s) rfl (OnlyStack.pushed _ s).sameTable h5
      obtain ⟨t, r, hr, hr8, hot, hptr, hpix, hfr⟩ := ih (s := pushed (suffixAt s p.toNat) s) hq hu (by omega) (by omega)
      refine ⟨t, r, ?_, hr8, (OnlyStack.pushed _ s).trans hot, ?_, ?_, ?_⟩
      · rw [traceFrom, run_bind, run_look]
        have g1 : ¬p.toNat < clearCode s.eng := by omega
        have g2 : ¬p.toNat = clearCode s.eng := by omega
        have g3 : ¬(4095 < p.toNat ∨ prefixAt s p.toNat = Config.noCode) := by
          rintro (g | g)
          · omega
          · exact h3 g
        simp only [if_neg g1, if_neg g2, if_neg g3, run_bind, push_quiet hq hs']
        exact hr
      · rw [hptr, hp, List.length_append, List.length_singleton]; omega
      · rw [hpix, stackPixels_pushed hs', h4]
        simp
      · intro k hk
        rw [List.length_append, List.length_singleton] at hk
        rw [hfr k (by omega), pushed_stackAt, if_neg (by omega)]

/-- `Root`: the first pixel of the start code's string; nothing changes. -/
theorem rootFrom_quiet (code : Code) : ∀ (n : Nat) {s : State} {p : Link} {first : Byte} {tail : List Byte},
    StringOf s p (first :: tail) → tail.length ≤ n →
    ∃ r, (rootFrom code n p).run s = .ok r s ∧ r.setWidth 8 = first := by
  intro n
  induction n with
  | zero =>
    intro s p first tail h hn
    have ht : tail = [] := List.length_eq_zero_iff.mp (by omega)
    subst ht
    obtain ⟨h1, h2⟩ := h.single
    refine ⟨p, ?_, h2⟩
    rw [rootFrom, run_bind, run_look]
    simp only [if_pos h1, run_pure]
  | succ n ih =>
    intro s p first tail h hn
    rcases List.eq_nil_or_concat tail with ht | ⟨l, b, ht⟩
    · subst ht
      obtain ⟨h1, h2⟩ := h.single
      refine ⟨p, ?_, h2⟩
      rw [rootFrom, run_bind, run_look]
      simp only [if_pos h1, run_pure]
    · rw [List.concat_eq_append] at ht
      subst ht
      rw [List.length_append, List.length_singleton] at hn
      obtain ⟨h1, h2, h3, _, h5⟩ := h.snoc
      obtain ⟨r, hr, hr8⟩ := ih h5 (by omega)
      refine ⟨r, ?_, hr8⟩
      rw [rootFrom, run_bind, run_look]
      have g1 : ¬p.toNat < clearCode s.eng := by omega
      have g2 : ¬p.toNat = clearCode s.eng := by omega
      have g3 : ¬(4095 < p.toNat ∨ prefixAt s p.toNat = Config.noCode) := by
        rintro (g | g)
        · omega
        · exact h3 g
      simp only [if_neg g1, if_neg g2, if_neg g3]
      exact hr

/-! ## PopString (R189) -/

theorem pop_quiet {s : State} (hq : Quiet s) (h0 : s.eng.stackPtr ≠ 0) (hs : s.eng.stackPtr.toNat ≤ 4096) :
    pop.run s = .ok (stackAt s (s.eng.stackPtr.toNat - 1)) (s.mapEng fun e => { e with stackPtr := e.stackPtr - 1 }) ∧
      (s.eng.stackPtr - 1).toNat = s.eng.stackPtr.toNat - 1 := by
  have h1 : 0 < s.eng.stackPtr.toNat := by
    rcases Nat.eq_zero_or_pos s.eng.stackPtr.toNat with h | h
    · exact absurd (BitVec.eq_of_toNat_eq h) h0
    · exact h
  have h2 : (s.eng.stackPtr - 1).toNat = s.eng.stackPtr.toNat - 1 := by
    rw [BitVec.toNat_sub]; show (8192 - 1 + _) % 8192 = _; omega
  refine ⟨?_, h2⟩
  rw [pop, run_bind, wr_quiet hq]
  simp only [run_bind, run_look, mapEng_eng, h2]
  rw [inRam_ok (show s.eng.stackPtr.toNat - 1 < Config.stackDepth by show _ < 4096; omega)]
  rfl

theorem stackPixels_cons {s : State} {n : Nat} (hn : s.eng.stackPtr.toNat = n + 1) :
    stackPixels s = stackAt s n :: ((List.range n).map (stackAt s)).reverse := by
  rw [stackPixels, hn, List.range_succ]
  simp

/-- `PopString()`: pixels leave the stack, top first, until it is empty or the row is full; each is a beat, in the next column. -/
theorem popPixels_quiet : ∀ (n : Nat) {s : State}, Quiet s → s.env.sink.acceptsLeft = none → s.eng.stackPtr.toNat = n → n ≤ 4096 →
    s.eng.col ≤ s.eng.curWidth →
    ∃ t k, (popPixels n).run s = .ok () t ∧ k = min n (s.eng.curWidth.toNat - s.eng.col.toNat) ∧
      t.env = { s.env with sink := { s.env.sink with
        accepted := s.env.sink.accepted ++ rowBeats (s.eng.row.setWidth 16) s.eng.col ((stackPixels s).take k) } } ∧
      t.eng = { s.eng with col := s.eng.col + BitVec.ofNat 16 k, stackPtr := BitVec.ofNat 13 (n - k) } ∧
      stackPixels t = (stackPixels s).drop k ∧ t.mem = s.mem ∧ t.host = s.host ∧ t.free = s.free ∧
      t.ports = (if k = 0 then s.ports else { s.ports with offeredBeat := none }) := by
  intro n
  induction n with
  | zero =>
    intro s hq ha hn _ _
    have h0 : s.eng.stackPtr = 0 := BitVec.eq_of_toNat_eq hn
    refine ⟨s, 0, rfl, by simp, by simp [rowBeats], ?_, by simp, rfl, rfl, rfl, by simp⟩
    rw [show s.eng.col + BitVec.ofNat 16 0 = s.eng.col by simp, show BitVec.ofNat 13 (0 - 0) = s.eng.stackPtr by rw [h0]; rfl]
  | succ n ih =>
    intro s hq ha hn hle hcol
    have hcol' : s.eng.col.toNat ≤ s.eng.curWidth.toNat := hcol
    have hcw := s.eng.curWidth.isLt
    have h0 : s.eng.stackPtr ≠ 0 := by intro h; rw [h] at hn; simp at hn
    by_cases hc : s.eng.col < s.eng.curWidth
    · have hc' : s.eng.col.toNat < s.eng.curWidth.toNat := hc
      obtain ⟨hpop, hptr⟩ := pop_quiet hq h0 (by omega)
      let v := stackAt s (s.eng.stackPtr.toNat - 1)
      let u := s.mapEng fun e => { e with stackPtr := e.stackPtr - 1 }
      let beat : Beat := { pix := v, row := s.eng.row.setWidth 16, col := s.eng.col, skip := false }
      let w := (afterBeat beat u).mapEng fun e => { e with col := e.col + 1 }
      have hcol1 : (s.eng.col + 1).toNat = s.eng.col.toNat + 1 := by
        rw [BitVec.toNat_add]; show (_ + 1) % 65536 = _; omega
      have hpw : stackPixels s = v :: stackPixels w := by
        rw [stackPixels_cons hn]
        have hvn : v = stackAt s n := by show stackAt s (s.eng.stackPtr.toNat - 1) = _; rw [hn]; rfl
        rw [hvn, stackPixels]
        have : w.eng.stackPtr.toNat = n := by show (s.eng.stackPtr - 1).toNat = n; rw [hptr]; omega
        rw [this]
        rfl
      obtain ⟨t, k, ht, hk, henv, heng, hpix, hmem, hhost, hfree, hports⟩ := ih (s := w) hq ha
        (by show (s.eng.stackPtr - 1).toNat = n; rw [hptr]; omega) (by omega)
        (by show (s.eng.col + 1) ≤ s.eng.curWidth; rw [BitVec.le_def, hcol1]; omega)
      have hk' : k = min n (s.eng.curWidth.toNat - (s.eng.col.toNat + 1)) := by
        rw [hk]; show min n (s.eng.curWidth.toNat - (s.eng.col + 1).toNat) = _; rw [hcol1]
      refine ⟨t, k + 1, ?_, ?_, ?_, ?_, ?_, hmem, hhost, hfree, ?_⟩
      · rw [popPixels, run_bind, run_look]
        simp only [if_pos (And.intro h0 hc), run_bind, hpop]
        rw [emitPixel_quiet (s := u) hq ha]
        simp only
        rw [nextCol_quiet (s := afterBeat _ u) hq]
        exact ht
      · omega
      · rw [henv, hpw]
        have hw : w.env = { s.env with sink := { s.env.sink with accepted := s.env.sink.accepted ++ [beat] } } := rfl
        have hwr : w.eng.row = s.eng.row := rfl
        have hwc : w.eng.col = s.eng.col + 1 := rfl
        rw [hw, hwr, hwc]
        simp [rowBeats, beat]
      · rw [heng]
        show { s.eng with col := s.eng.col + 1 + BitVec.ofNat 16 k, stackPtr := BitVec.ofNat 13 (n - k) } = _
        rw [show s.eng.col + 1 + BitVec.ofNat 16 k = s.eng.col + BitVec.ofNat 16 (k + 1) by
          rw [BitVec.add_assoc]; congr 1; rw [Nat.add_comm k]; exact (BitVec.ofNat_add 1 k).symm,
          show n + 1 - (k + 1) = n - k by omega]
      · rw [hpix, hpw]; rfl
      · rw [hports]
        show (if k = 0 then { s.ports with offeredBeat := none } else { s.ports with offeredBeat := none }) = _
        simp
    · have hc' : ¬s.eng.col.toNat < s.eng.curWidth.toNat := hc
      have hk : min (n + 1) (s.eng.curWidth.toNat - s.eng.col.toNat) = 0 := by omega
      refine ⟨s, 0, ?_, hk.symm, by simp [rowBeats], ?_, by simp, rfl, rfl, rfl, by simp⟩
      · rw [popPixels, run_bind, run_look]
        simp only [if_neg (fun h : s.eng.stackPtr ≠ 0 ∧ s.eng.col < s.eng.curWidth => hc h.2), run_pure]
      · rw [show s.eng.col + BitVec.ofNat 16 0 = s.eng.col by simp, Nat.sub_zero, ← hn,
          show BitVec.ofNat 13 s.eng.stackPtr.toNat = s.eng.stackPtr by simp]

theorem popString_run (s : State) : popString.run s = (popPixels s.eng.stackPtr.toNat).run s := rfl

/-! ## Append (R190) -/

theorem appendIndex_eq {e : Engine} (h2 : 2 ≤ e.runningCode.toNat) : appendIndex e = e.runningCode.toNat - 2 := by
  show (e.runningCode - 2#13).toNat = _
  rw [BitVec.toNat_sub]; show (8192 - 2 + _) % 8192 = _; have := e.runningCode.isLt; omega

/-- `Append(root)` in terms of the table's entries. -/
theorem appended_appends {s : State} (h2 : 2 ≤ s.eng.runningCode.toNat) (pix : Byte) : Appends pix s (appended pix s) := by
  have hidx := appendIndex_eq h2
  intro j
  by_cases hg : s.eng.lastCode ≠ Config.noCode ∧ prefixAt s (appendIndex s.eng) = Config.noCode
  · have happ : appended pix s =
        (s.mapMem (setPrefix (appendIndex s.eng) s.eng.lastCode)).mapMem (setSuffix (appendIndex s.eng) pix) := by
      simp only [appended, if_pos hg]
    have hpre : prefixAt (appended pix s) j = if appendIndex s.eng = j then s.eng.lastCode else prefixAt s j := by
      rw [happ]
      have h1 : ∀ u : State, prefixAt (u.mapMem (setSuffix (appendIndex s.eng) pix)) j = prefixAt u j := fun u =>
        prefixAt_mapMem rfl rfl j
      rw [h1]
      simp only [prefixAt, prefixUnlisted, mapMem_mem, mapMem_free, setPrefix,
        if_neg (fun h : _ ∧ _ => hg.1 h.2), cellGet_set]
      split <;> rfl
    have hsuf : suffixAt (appended pix s) j = if appendIndex s.eng = j then pix else suffixAt s j := by
      rw [happ, suffixAt_setSuffix]
      split
      · rfl
      · simp only [suffixAt, mapMem_mem, mapMem_free, setPrefix]
        split <;> rfl
    by_cases hj : appendIndex s.eng = j
    · have hc : j + 2 = s.eng.runningCode.toNat ∧ s.eng.lastCode ≠ Config.noCode ∧ prefixAt s j = Config.noCode :=
        ⟨by omega, hg.1, hj ▸ hg.2⟩
      rw [hpre, hsuf, if_pos hj, if_pos hj, if_pos hc, if_pos hc]
      exact ⟨rfl, rfl⟩
    · have hc : ¬(j + 2 = s.eng.runningCode.toNat ∧ s.eng.lastCode ≠ Config.noCode ∧ prefixAt s j = Config.noCode) := by
        rintro ⟨h, _, _⟩; omega
      rw [hpre, hsuf, if_neg hj, if_neg hj, if_neg hc, if_neg hc]
      exact ⟨rfl, rfl⟩
  · have happ : appended pix s = s := by simp only [appended, if_neg hg]
    have hc : ¬(j + 2 = s.eng.runningCode.toNat ∧ s.eng.lastCode ≠ Config.noCode ∧ prefixAt s j = Config.noCode) := by
      rintro ⟨h, hl, hp⟩
      exact hg ⟨hl, by rw [hidx, show s.eng.runningCode.toNat - 2 = j by omega]; exact hp⟩
    rw [happ, if_neg hc, if_neg hc]
    exact ⟨rfl, rfl⟩

theorem appended_stack (pix : Byte) (s : State) : SameStack s (appended pix s) := by
  intro k
  simp only [appended]
  split
  · simp only [stackAt, mapMem_mem, mapMem_free, setSuffix, setPrefix]
    split <;> rfl
  · rfl

theorem appended_sbbuf (pix : Byte) (s : State) : SameSbbuf s (appended pix s) := by
  intro k
  simp only [appended]
  split
  · simp only [sbbufAt, mapMem_mem, mapMem_free, setSuffix, setPrefix]
    split <;> rfl
  · rfl

end Sys2Proof.Machine
end

