-- ==== Sys2Proof/Laws/PerInstr.lean ====
section
/-! SUPPORT. Statements made of every instruction, one lemma for each constructor. -/

namespace Sys2Proof.Laws.EncodingForm

/-- A command is encoded as a CMD word with bits [31:4] zero whose OPCODE field decodes, by the opcode map, to some
instruction of the command format (R100, R101); a code class is encoded as its code (R108). -/
def Statement (i : Instr) : Prop :=
  match encode i with
  | .command w => i.isCommand = true ∧ reservedField w = 0#28 ∧ (decodeOpcode (opcodeField w)).isCommand = true
  | .code _ => i.isCommand = false

theorem nop : Statement .nop := ⟨rfl, by decide, by decide⟩

theorem init : Statement .init := ⟨rfl, by decide, by decide⟩

theorem line : Statement .line := ⟨rfl, by decide, by decide⟩

theorem reservedCommand (op : BitVec 4) : Statement (.reservedCommand op) := by
  refine ⟨rfl, ?_, ?_⟩ <;> revert op <;> decide

theorem endCode (c : Code) : Statement (.endCode c) := rfl

theorem clear (c : Code) : Statement (.clear c) := rfl

theorem pixel (c : Code) : Statement (.pixel c) := rfl

theorem known (c : Code) : Statement (.known c) := rfl

theorem kwkwk (c : Code) : Statement (.kwkwk c) := rfl

theorem invalid (c : Code) : Statement (.invalid c) := rfl

end Sys2Proof.Laws.EncodingForm
end

