-- ==== Sys2Proof/Laws/RowSequencer.lean ====
section
/-! SUPPORT. What the row sequencer does when no host access is to come, as a function of the engine registers. -/

namespace Sys2Proof.Machine

/-- The registers after the loop of `AdvanceRow()`, at most n rounds (R212). -/
def passesSkipped : Nat → Engine → Engine
  | 0, e => e
  | n + 1, e =>
    if e.curHeight.toNat ≤ e.row.toNat ∧ e.pass.toNat < 3 then
      passesSkipped n { e with pass := e.pass + 1, row := passOffset (e.pass + 1) }
    else e

theorem skipPasses_quiet : ∀ (n : Nat) {s : State}, s.env.bus = [] →
    (skipPasses n).run s = .ok () (s.mapEng (passesSkipped n)) := by
  intro n
  induction n with
  | zero => intro s _; rfl
  | succ n ih =>
    intro s hq
    rw [skipPasses, run_bind, run_look]
    by_cases h : s.eng.curHeight.toNat ≤ s.eng.row.toNat ∧ s.eng.pass.toNat < 3
    · simp only [if_pos h, run_bind, wr_quiet hq]
      rw [wr_quiet (s := s.mapEng _) hq]
      simp only
      rw [ih (s := (s.mapEng _).mapEng _) hq]
      simp only [State.mapEng, passesSkipped, if_pos h]
    · simp only [if_neg h, run_pure, State.mapEng, passesSkipped]

/-- The registers after `AdvanceRow()` (R212). -/
def advanced (e : Engine) : Engine :=
  if e.curInterlace then passesSkipped 3 { e with row := e.row + passStride e.pass } else { e with row := e.row + 1 }

theorem advanceRow_quiet {s : State} (hq : s.env.bus = []) : advanceRow.run s = .ok () (s.mapEng advanced) := by
  rw [advanceRow, run_bind, run_look]
  by_cases h : s.eng.curInterlace = true
  · simp only [if_pos h, run_bind, wr_quiet hq]
    rw [skipPasses_quiet _ (s := s.mapEng _) hq]
    simp only [State.mapEng, advanced, if_pos h]
  · simp only [if_neg h]
    rw [wr_quiet hq]
    simp only [State.mapEng, advanced, if_neg h]

/-- The row sequencer writes ROW and PASS only (R216). -/
theorem passesSkipped_frame : ∀ (n : Nat) (e : Engine),
    passesSkipped n e = { e with row := (passesSkipped n e).row, pass := (passesSkipped n e).pass } := by
  intro n
  induction n with
  | zero => intro e; rfl
  | succ n ih =>
    intro e
    simp only [passesSkipped]
    split
    · conv => lhs; rw [ih]
    · rfl

theorem advanced_frame (e : Engine) : advanced e = { e with row := (advanced e).row, pass := (advanced e).pass } := by
  simp only [advanced]
  split
  · conv => lhs; rw [passesSkipped_frame]
  · rfl

end Sys2Proof.Machine
end

