-- ==== Sys2Proof/Tests/Slice0.lean ====
section
/-! SUPPORT. Tests of the model against values the spec states (95_test_vectors.md and the rules' own examples), and for
every obligation with hypotheses a named witness that meets them. -/

namespace Sys2Proof.Tests

open Sys2Proof Sys2Proof.Machine

set_option maxRecDepth 8000

/-! ## Small states -/

/-- The decoder after INIT of an image of this size with m = 2 (R142, R144), in READY. -/
def ready (width height : BitVec 16) (interlace : Bool) : Engine :=
  { Engine.reset with
    state := .ready, minCodeSize := 2, codeWidth := 3, maxCode1 := 8, runningCode := 6, lastCode := 4098
    curWidth := width, curHeight := height, curInterlace := interlace
    pixelsLeft := width.setWidth 32 * height.setWidth 32 }

/-- The same decoder inside its first LINE (R146). -/
def inLine (width height : BitVec 16) : Engine :=
  { ready width height false with
    state := .lineBusy, pixelsLeft := width.setWidth 32 * height.setWidth 32 - width.setWidth 32, lastLine := decide (height = 1) }

/-- The RAMs after ClearPrefix, with these entries of PREFIX and SUFFIX. -/
def table (entries : List (Nat × Link × Byte)) : Memory :=
  { Memory.unwritten with
    prefixCleared := true
    prefixRam := entries.map fun e => (e.1, e.2.1)
    suffixRam := entries.map fun e => (e.1, e.2.2) }

/-- A machine with this engine, these RAMs, and a source that has still to deliver these bytes; the set-up is complete in the
states that follow it. -/
def machine (e : Engine) (m : Memory) (bytes : List Byte) : State :=
  { State.reset with
    eng := e
    mem := m
    env := { State.reset.env with source := { State.reset.env.source with buffer := bytes } }
    free := { State.reset.free with setUp := isSetUp e.state } }

/-- The next host access of a machine, due at once. -/
def withAccess (event : HostEvent) (s : State) : State := s.mapEnv fun v => { v with bus := [{ gap := 0, event := event }] }

/-- The next state of an outcome. -/
def nextOf : Host.Outcome State Fault Refusal → Option State
  | .next t => some t
  | .fault _ => none
  | .refused _ => none

/-- STATUS, FAULT_INFO and IRQ_STATUS of a next state. -/
def report (o : Host.Outcome State Fault Refusal) : Option (Word × Word × BitVec 3) :=
  (nextOf o).map fun t => (statusWord t.eng, t.eng.faultInfo, t.host.irqStatus)

/-- The beats of a next state as (pix, row, col), the skip beats without their pixel, which no rule states (U2). -/
def beats (o : Host.Outcome State Fault Refusal) : Option (List (Option Byte × BitVec 16 × BitVec 16)) :=
  (nextOf o).map fun t => t.env.sink.accepted.map fun b => (if b.skip then none else some b.pix, b.row, b.col)

/-- RUNNING_CODE, LAST_CODE, COL and STACK_PTR of a next state. -/
def progress (o : Host.Outcome State Fault Refusal) : Option (Link × Link × BitVec 16 × BitVec 13) :=
  (nextOf o).map fun t => (t.eng.runningCode, t.eng.lastCode, t.eng.col, t.eng.stackPtr)

/-- An entry of PREFIX and SUFFIX in a next state. -/
def entryOf (j : Nat) (o : Host.Outcome State Fault Refusal) : Option (Link × Byte) :=
  (nextOf o).map fun t => (prefixAt t j, suffixAt t j)

/-- Context of a code with m = 2. -/
def ctx (running last : Link) (defined : Bool) : CodeCtx := { m := 2, running := running, last := last, defined := defined }

/-! ## Well-formedness: an ill-formed term for each check -/

theorem test_wellFormed_refuses_command_as_reserved : (Instr.reservedCommand 2).wellFormed (ctx 7 4098 false) = false := by
  decide

theorem test_wellFormed_refuses_end_of_another_value : (Instr.endCode 4).wellFormed (ctx 7 4098 false) = false := by decide

theorem test_wellFormed_refuses_clear_of_another_value : (Instr.clear 5).wellFormed (ctx 7 4098 false) = false := by decide

theorem test_wellFormed_refuses_pixel_from_clear_code_on : (Instr.pixel 4).wellFormed (ctx 7 4098 false) = false := by decide

theorem test_wellFormed_refuses_known_undefined : (Instr.known 6).wellFormed (ctx 9 0 false) = false := by decide

theorem test_wellFormed_refuses_known_of_end_code : (Instr.known 5).wellFormed (ctx 9 0 true) = false := by decide

theorem test_wellFormed_refuses_kwkwk_of_another_code : (Instr.kwkwk 7).wellFormed (ctx 8 0 false) = false := by decide

theorem test_wellFormed_refuses_kwkwk_without_last : (Instr.kwkwk 6).wellFormed (ctx 8 4098 false) = false := by decide

theorem test_wellFormed_refuses_invalid_that_is_kwkwk : (Instr.invalid 6).wellFormed (ctx 8 0 false) = false := by decide

theorem test_wellFormed_refuses_invalid_defined : (Instr.invalid 6).wellFormed (ctx 9 0 true) = false := by decide

/-! ## Decoding: words written out from R100, R101, R105 and R108 -/

/-- OPCODE in [3:0], reserved bits [31:4] (R100). -/
theorem test_decode_nop : decodeCommand 0b0000000000000000000000000000_0000#32 = .ok .nop := by decide

theorem test_decode_init : decodeCommand 0b0000000000000000000000000000_0001#32 = .ok .init := by decide

theorem test_decode_line : decodeCommand 0b0000000000000000000000000000_0010#32 = .ok .line := by decide

theorem test_decode_reserved_opcode :
    decodeCommand 0b0000000000000000000000000000_1010#32 = .ok (.reservedCommand 0b1010) := by decide

theorem test_decode_reserved_bits :
    decodeCommand 0b0000000000000000000000000001_0010#32 = .error (.reservedBits 0x12) := by decide

/-- The first three bits of the byte 0x4C in stream order, 0 0 1, are the code 4, for m = 2 the CLEAR code (V-W2 row 1). -/
theorem test_decode_clear :
    decode (ctx 7 4098 false) (.code (BitVec.ofNat 12 (bitsValue [false, false, true]))) = .ok (.clear 4) := by decide

/-- Bits 1 0 0: the code 1, a PIXEL (V-W2 row 2). -/
theorem test_decode_pixel :
    decode (ctx 7 4098 false) (.code (BitVec.ofNat 12 (bitsValue [true, false, false]))) = .ok (.pixel 1) := by decide

/-- Bits 1 0 1: the code 5 = 2^2 + 1, END (V-CL1). -/
theorem test_decode_end :
    decode (ctx 9 1 false) (.code (BitVec.ofNat 12 (bitsValue [true, false, true]))) = .ok (.endCode 5) := by decide

/-- Bits 0 1 1: the code 6; with RUNNING_CODE 8 after the read and a previous code, KWKWK (R186's example). -/
theorem test_decode_kwkwk :
    decode (ctx 8 2 false) (.code (BitVec.ofNat 12 (bitsValue [false, true, true]))) = .ok (.kwkwk 6) := by decide

/-- The same bits once entry 6 is defined: KNOWN (R187's example). -/
theorem test_decode_known :
    decode (ctx 9 6 true) (.code (BitVec.ofNat 12 (bitsValue [false, true, true]))) = .ok (.known 6) := by decide

/-- The same bits as the first code after a CLEAR, RUNNING_CODE 7: INVALID (R185's example). -/
theorem test_decode_invalid :
    decode (ctx 7 4098 false) (.code (BitVec.ofNat 12 (bitsValue [false, true, true]))) = .ok (.invalid 6) := by decide

/-- R109's row m = 0: code 1 is CLEAR and code 2 END. -/
theorem test_decode_m_zero :
    decode { ctx 4 4098 false with m := 0 } (.code 1) = .ok (.clear 1) ∧
      decode { ctx 4 4098 false with m := 0 } (.code 2) = .ok (.endCode 2) := by decide

theorem test_decodeTableWord :
    decodeTableWord 32 0x2 = some .line ∧ decodeTableWord 32 0xF = some (.reservedCommand 15) ∧
      decodeTableWord 32 0x80000002 = none := by decide

/-! ## Commands -/

/-- V-CMD1: NOP in IDLE; the state fetched by `withFetchWord` and stepped. -/
theorem test_nop : nextOf (step (State.reset.withFetchWord 32 0x0)) = some State.reset := by decide

/-- V-CMD7 step 3: INIT in READY is IllegalInState. -/
theorem test_init_in_ready :
    report (step ((machine (ready 2 1 false) (table []) []).withFetchWord 32 0x1)) = some (0x00003317, 1, 4) := by decide

/-- INIT from reset makes STATE INIT_BUSY (R141). -/
theorem test_init : report (step (State.reset.withFetchWord 32 0x1)) = some (0x00000009, 0, 0) := by decide

/-- LINE in READY of program P2: PIXELS_LEFT 6 to 3, not the last line (R146). -/
theorem test_line :
    (nextOf (step ((machine (ready 3 2 false) (table []) []).withFetchWord 32 0x2))).map
      (fun t => (statusWord t.eng, t.eng.pixelsLeft, t.eng.lastLine)) = some (0x0000000B, 3, false) := by decide

/-- V-CMD6: LINE in IDLE. -/
theorem test_line_in_idle : report (step (State.reset.withFetchWord 32 0x2)) = some (0x00003317, 2, 4) := by decide

/-- V-CMD4: a reserved opcode. -/
theorem test_reserved_command : report (step (State.reset.withFetchWord 32 0xF)) = some (0x00002317, 0xF, 4) := by decide

/-- V-CMD2: reserved bits. -/
theorem test_reserved_bits : report (step (State.reset.withFetchWord 32 0x12)) = some (0x00001317, 0x12, 4) := by decide

/-- V-CMD9: an INIT written while a beat is offered and not accepted; the beat is accepted afterwards, and no other. -/
theorem test_command_error_in_line :
    let o := exec (.pixel 1)
      ((machine (inLine 3 1) (table []) []).mapEnv fun v => { v with bus := [{ gap := 1, event := .write 3 1 }] })
    report o = some (0x00003317, 1, 4) ∧ beats o = some [] ∧ (nextOf o).bind (fun t => beats (step t)) = some [(some 1, 0, 0)] := by
  decide

/-! ## Code classes -/

/-- V-CL1: END on the last pixel of the last line, a skip beat at column 2. -/
theorem test_end_skip :
    let o := exec (.endCode 5) (machine { inLine 3 1 with col := 2, runningCode := 9, lastCode := 1 } (table [(6, 1, 1)]) [])
    beats o = some [(none, 0, 2)] ∧ report o = some (0x0000002B, 0, 0) ∧ progress o = some (9, 1, 3, 0) := by decide

/-- V-CL2: the same code with width 4. -/
theorem test_end_early :
    report (exec (.endCode 5) (machine { inLine 4 1 with col := 2, runningCode := 9, lastCode := 1 } (table [(6, 1, 1)]) []))
      = some (0x00004217, 2, 4) := by decide

/-- R183's example: CLEAR at width 4 makes CODE_WIDTH 3, RUNNING_CODE 6, LAST_CODE NO_CODE, entry 6 undefined. -/
theorem test_clear :
    let o := exec (.clear 4) (machine
      { inLine 7 1 with col := 4, codeWidth := 4, maxCode1 := 16, runningCode := 10, lastCode := 6 } (table [(6, 1, 1), (7, 1, 1)]) [])
    progress o = some (6, 4098, 4, 0) ∧ (nextOf o).map (fun t => (t.eng.codeWidth, t.eng.maxCode1)) = some (3, 8) ∧
      (entryOf 6 o).map Prod.fst = some 4098 := by decide

/-- R184's example: code 3 at COL 1 with LAST_CODE 1 and RUNNING_CODE 8. -/
theorem test_pixel :
    let o := exec (.pixel 3) (machine { inLine 4 1 with col := 1, runningCode := 8, lastCode := 1 } (table []) [])
    beats o = some [(some 3, 0, 1)] ∧ entryOf 6 o = some (1, 3) ∧ progress o = some (8, 3, 2, 0) := by decide

/-- R187's example: code 6 = (2, 2) with RUNNING_CODE 9 and LAST_CODE 6. -/
theorem test_known :
    let o := exec (.known 6) (machine { inLine 5 1 with col := 3, runningCode := 9, lastCode := 6 } (table [(6, 2, 2)]) [])
    beats o = some [(some 2, 0, 3), (some 2, 0, 4)] ∧ entryOf 7 o = some (6, 2) ∧ progress o = some (9, 6, 5, 0) := by decide

/-- R186's example: code 6 after PIXEL 2, RUNNING_CODE 8. -/
theorem test_kwkwk :
    let o := exec (.kwkwk 6) (machine { inLine 5 1 with col := 1, runningCode := 8, lastCode := 2 } (table []) [])
    beats o = some [(some 2, 0, 1), (some 2, 0, 2)] ∧ entryOf 6 o = some (2, 2) ∧ progress o = some (8, 6, 3, 0) := by decide

/-- V-CL12: a pixel of the string is left on the stack when the row is full. -/
theorem test_kwkwk_row_full :
    let o := exec (.kwkwk 6) (machine { inLine 2 1 with col := 1, runningCode := 8, lastCode := 0 } (table []) [])
    beats o = some [(some 0, 0, 1)] ∧ progress o = some (8, 6, 2, 1) := by decide

/-- V-CL7: INVALID as the first code. -/
theorem test_invalid :
    report (exec (.invalid 7) (machine { inLine 1 1 with runningCode := 7 } (table []) [])) = some (0x00003217, 7, 4) := by decide

/-- V-F10: a chain that passes through an undefined entry. -/
theorem test_bad_chain :
    report (exec (.known 7) (machine { inLine 4 1 with runningCode := 9, lastCode := 1 } (table [(7, 6, 1)]) []))
      = some (0x00005217, 7, 4) := by decide

/-! ## The engine's other steps -/

/-- SHIFT_ACC, SHIFT_STATE, CODE_WIDTH, MAX_CODE1 and RUNNING_CODE after a code read, and the code. -/
def readOf (s : State) : Option (Code × BitVec 20 × BitVec 5 × BitVec 4 × BitVec 13 × Link) :=
  match readCode.run s with
  | .ok c t => some (c, t.eng.shiftAcc, t.eng.shiftState, t.eng.codeWidth, t.eng.maxCode1, t.eng.runningCode)
  | .error _ _ => none

/-- The decoder registers a code read uses. -/
def reader (acc : BitVec 20) (shift : BitVec 5) (width : BitVec 4) (max : BitVec 13) (running : Link) : Engine :=
  { inLine 9 1 with shiftAcc := acc, shiftState := shift, codeWidth := width, maxCode1 := max, runningCode := running }

/-- V-W2 row 6: a code that straddles three stream bytes. -/
theorem test_readCode_straddles :
    readOf (machine (reader 1 1 12 4096 4000) (table []) [2, 0xFF, 0x0F]) = some (4095, 1, 5, 12, 4096, 4001) := by decide

/-- V-W2 row 7: the width grows. -/
theorem test_readCode_grows :
    readOf (machine (reader 0 0 3 8 8) (table []) [1, 0x4C]) = some (4, 9, 5, 4, 16, 9) := by decide

/-- V-W2 row 9: RUNNING_CODE is capped at 4097. -/
theorem test_readCode_capped :
    readOf (machine (reader 0 0 12 4096 4097) (table []) [2, 0x34, 0x12]) = some (0x234, 1, 4, 12, 4096, 4097) := by decide

/-- R144's example: INIT reads 02; m = 2, CODE_WIDTH 3, RUNNING_CODE 6, LAST_CODE NO_CODE, STATE READY. -/
theorem test_init_body :
    let o := step (machine { Engine.reset with state := .initBusy, curWidth := 3, curHeight := 2 } Memory.unwritten [2, 2])
    (nextOf o).map Machine.State.eng = some (ready 3 2 false) ∧ (nextOf o).map unread = some [2] := by decide

/-- V-F1: a minimum code size byte of 9. -/
theorem test_bad_min_code_size :
    report (step (machine { Engine.reset with state := .initBusy, curWidth := 1, curHeight := 1 } Memory.unwritten [9]))
      = some (0x00001217, 9, 4) := by decide

/-- V-SB4: a zero length where a code needs data. -/
theorem test_zero_length_sub_block :
    report (step (machine (inLine 1 1) (table []) [0])) = some (0x00002217, 0, 4) := by decide

/-- V-SB2's drain: the terminator makes STATE DONE and IMAGE_DONE pending. -/
theorem test_drain_ends :
    report (step (machine { inLine 1 1 with state := .drainBusy, col := 1 } (table []) [0])) = some (5, 0, 2) := by decide

/-- R271, R231: the drain's last round is a request, its answer, and one instant at which STATE is DONE and IMAGE_DONE pending. -/
theorem test_done_and_image_done_at_one_instant :
    (instants (machine { inLine 1 1 with state := .drainBusy, col := 1 } (table []) [0])).map
      (fun u => (u.eng.state, u.ports.byteRequest, u.host.irqStatus)) =
      [(.drainBusy, true, 0), (.drainBusy, false, 0), (.done, false, 2)] := by decide

/-- R180's END one action at a time (R8): the beat is offered, accepted, the column counted, SKIPPED set. -/
theorem test_end_instants :
    ((instrActions (.endCode 5)).passed (machine { inLine 3 1 with col := 2 } (table []) [])).map
      (fun u => (u.ports.offeredBeat.isSome, u.env.sink.accepted.length, u.eng.col, u.eng.skipped)) =
      [(true, 0, 2, false), (false, 1, 2, false), (false, 1, 3, false), (false, 1, 3, true)] := by decide

/-- V-ROW2: POSITION after each LINE of an interlaced image of height 4. -/
theorem test_interlaced_rows :
    rowsVisited 4 (machine (ready 1 4 true) (table []) []) = [0, 2, 1, 3] := by decide

/-- R217: the rows of an interlaced image of height 5. -/
theorem test_interlaced_rows_five :
    rowsVisited 5 (machine (ready 2 5 true) (table []) []) = [0, 4, 2, 1, 3] := by decide

/-- P2's end state as the host reads it: STATUS, POSITION, COLUMN, DIAG_WIDTH, DIAG_RUN. -/
theorem test_register_layout :
    let s := machine { ready 3 2 false with
      state := .done, skipped := true, row := 2, col := 3, codeWidth := 4, maxCode1 := 16, runningCode := 10, lastCode := 6
      pixelsLeft := 0 } (table []) []
    [4, 8, 9, 10, 11, 12, 13, 14, 15].map (fun k => (readReg k s).1) =
      [0x00000025, 0, 0x00000002, 3, 0x00100402, 0x00050004, 0x0006000A, 0, 0] := by decide

/-- V-REG2: IMG_WIDTH keeps its low 16 bits and a reserved offset keeps nothing. -/
theorem test_register_writes :
    (nextOf (step (withAccess (.write 1 0x12345678) State.reset))).map (fun t => (readReg 1 t).1) = some 0x00005678 ∧
      nextOf (step (withAccess (.write 16 5) State.reset)) = some State.reset := by decide

/-- V-IRQ1: pending 0x3, enabled 0x2, then IMAGE_DONE cleared. -/
theorem test_irq :
    irq { HostRegs.reset with irqStatus := 3, irqEnable := 2 } = true ∧
      irq (writeHostReg .irqStatus 2 { HostRegs.reset with irqStatus := 3, irqEnable := 2 }) = false := by decide

/-! ## Witnesses: a state and operands that meet the hypotheses of each obligation -/

/-- A well-formed instruction of every class whose condition depends on the context, and a word and a code that decode. -/
theorem witness_DecodeAndEncodeAgree :
    (Instr.reservedCommand 3).wellFormed (ctx 7 4098 false) = true ∧ (Instr.endCode 5).wellFormed (ctx 7 4098 false) = true ∧
      (Instr.clear 4).wellFormed (ctx 7 4098 false) = true ∧ (Instr.pixel 3).wellFormed (ctx 7 4098 false) = true ∧
      (Instr.known 6).wellFormed (ctx 9 6 true) = true ∧ (Instr.kwkwk 6).wellFormed (ctx 8 2 false) = true ∧
      (Instr.invalid 6).wellFormed (ctx 8 4098 false) = true ∧ decode (ctx 7 4098 false) (.command 15) = .ok (.reservedCommand 15) ∧
      decode (ctx 7 4098 false) (.code 4095) = .ok (.invalid 4095) := by decide

theorem witness_FaultRecordTellsTheCause : causeKind .badChain = causeKind .badChain ∧ causeCode .badChain = causeCode .badChain :=
  ⟨rfl, rfl⟩

/-- Width 1, height 1, STATE FAULT. -/
def faulted : Engine := { inLine 1 1 with state := .fault, faultKind := 2, faultCause := 3 }

/-- A LINE whose next code is the CLEAR code 4 (V-W2 row 1). -/
def beforeClear : State := machine (reader 0 0 3 8 6) (table []) [2, 0x4C, 0x01, 0]

theorem witness_HardwareResetFromAnyState :
    (withAccess (.reset true) State.reset).env.bus = { gap := 0, event := .reset true } :: [] ∧
      (withAccess (.reset false) State.reset).env.bus = { gap := 0, event := .reset false } :: [] := ⟨rfl, rfl⟩

/-- With rst asserted: a CMD write, a register write, and the release. -/
theorem witness_HardwareResetFromAnyState_asserted (w : Word) :
    let next (event : HostEvent) : State := withAccess event (State.reset.mapPorts fun p => { p with rst := true })
    ∀ event ∈ [HostEvent.write 3 w, .write 1 w, .reset false],
      (next event).ports.rst = true ∧ (next event).eng = State.reset.eng ∧ (next event).host = State.reset.host ∧
        (next event).env.bus = { gap := 0, event := event } :: [] :=
  fun _ _ => ⟨rfl, rfl, rfl, rfl⟩

/-- Every offset, read with BUSY = 0. -/
theorem witness_IdleRegisterReadsLayOutFields (index : BitVec 6) :
    (withAccess (.read index) State.reset).env.bus = { gap := 0, event := .read index } :: [] ∧
      isBusy (withAccess (.read index) State.reset).eng.state = false := ⟨rfl, rfl⟩

/-- Every offset, read with BUSY = 1. -/
theorem witness_BusyReadsKeepStatusExact (index : BitVec 6) :
    let s := withAccess (.read index) (machine (inLine 1 1) (table []) [])
    s.env.bus = { gap := 0, event := .read index } :: [] ∧ isBusy s.eng.state = true := ⟨rfl, rfl⟩

/-- Every offset but CMD's, written. -/
theorem witness_RegisterWritesChangeOnlyTheirRegister (index : BitVec 6) (w : Word) :
    (withAccess (.write index w) State.reset).env.bus = { gap := 0, event := .write index w } :: [] ∧
      State.reset.ports.rst = false ∧ (0#6 ≠ 3#6 ∧ 2#6 ≠ 3#6 ∧ 4#6 ≠ 3#6 ∧ 5#6 ≠ 3#6 ∧ 6#6 ≠ 3#6 ∧ 63#6 ≠ 3#6) :=
  ⟨rfl, rfl, by decide⟩

/-- An access with a gap: in IDLE, and in FAULT with a request in flight at a source that answers no more. The waiting engine is
in `witness_WaitingEngineIsStuck`. -/
theorem witness_RegisterWritesChangeOnlyTheirRegister_gap (gap : Nat) (event : HostEvent) :
    let next (s : State) : State := s.mapEnv fun v => { v with bus := [{ gap := gap, event := event }] }
    let s := next State.reset
    let t := next (((machine faulted (table []) [7]).mapPorts fun p => { p with byteRequest := true }).mapEnv fun v =>
      { v with source := { v.source with answersLeft := some 0 } })
    s.env.bus = { gap := gap, event := event } :: [] ∧ isBusy s.eng.state = false ∧ s.ports.byteRequest = false ∧
      s.ports.offeredBeat = none ∧ t.env.bus = { gap := gap, event := event } :: [] ∧ isBusy t.eng.state = false ∧
      t.ports.byteRequest = true ∧ t.env.source.answersLeft = some 0 ∧ t.ports.offeredBeat = none :=
  ⟨rfl, rfl, rfl, rfl, rfl, rfl, rfl, rfl, rfl⟩

/-- The least word with a reserved bit set, and the greatest that decodes. -/
theorem witness_StepExecutesTheCommandWord (w : Word) :
    let s := withAccess (.write 3#6 w) State.reset
    s.env.bus = { gap := 0, event := .write 3#6 w } :: [] ∧ s.ports.rst = false ∧ s.eng.state ≠ .fault ∧
      decodeCommand 15#32 = .ok (.reservedCommand 15) ∧ 16 ≤ (16#32).toNat :=
  ⟨rfl, rfl, EngineState.noConfusion, by decide, by decide⟩

/-- Whether a code read from this state gives this code, and the code decodes to this instruction. -/
def readsAs (s : State) (c : Code) (i : Instr) : Bool :=
  match readCode.run s with
  | .ok d t => decide (d = c) && decide (decode (codeCtx t d) (.code d) = .ok i)
  | .error _ _ => false

theorem witness_StepExecutesTheNextCode :
    ∃ t, beforeClear.eng.state = .lineBusy ∧ beforeClear.eng.col < beforeClear.eng.curWidth ∧
      beforeClear.eng.stackPtr = 0 ∧ (∀ it rest, beforeClear.env.bus = it :: rest → it.gap ≠ 0) ∧
      beforeClear.ports.byteRequest = false ∧ beforeClear.ports.offeredBeat = none ∧
      readCode.run beforeClear = .ok 4 t ∧ decode (codeCtx t 4) (.code 4) = .ok (.clear 4) := by
  have h : readsAs beforeClear 4 (.clear 4) = true := by decide
  simp only [readsAs] at h
  split at h
  · rename_i d t hr
    simp only [Bool.and_eq_true, decide_eq_true_eq] at h
    obtain ⟨rfl, hd⟩ := h
    exact ⟨t, rfl, by decide, rfl, fun _ _ hb => absurd hb.symm (List.cons_ne_nil _ _), rfl, rfl, hr, hd⟩
  · cases h

/-- Every word; the words 0, 1, 2, 3, 15 and 16 are the bounds of the tests. -/
theorem witness_CmdWritesAreDecodedInOrder (w : Word) :
    let s := withAccess (.write 3#6 w) State.reset
    s.env.bus = { gap := 0, event := .write 3#6 w } :: [] ∧ s.ports.rst = false ∧ s.eng.state ≠ .fault ∧
      (withAccess (.write 3#6 w) (machine faulted (table []) [])).eng.state = .fault :=
  ⟨rfl, rfl, EngineState.noConfusion, rfl⟩

theorem witness_InitEntryLatchesGeometry :
    State.reset.eng.state = .idle ∧ (machine { inLine 1 1 with state := .done } (table []) []).eng.state = .done := ⟨rfl, rfl⟩

/-- The last row of an image, and a row before it. -/
theorem witness_LineEntryTakesOneRow :
    let s := machine (ready 3 1 false) (table []) []
    let t := machine (ready 3 2 false) (table []) []
    s.eng.state = .ready ∧ s.eng.curWidth.toNat = s.eng.pixelsLeft.toNat ∧ t.eng.state = .ready ∧
      t.eng.curWidth.toNat < t.eng.pixelsLeft.toNat := by decide

/-- INIT in READY, LINE in IDLE. -/
theorem witness_IllegalCommandsFault :
    let s := machine (ready 3 1 false) (table []) []
    s.eng.state ≠ .fault ∧ s.eng.state ≠ .idle ∧ s.eng.state ≠ .done ∧ State.reset.eng.state ≠ .fault ∧
      State.reset.eng.state ≠ .ready := by decide

theorem witness_ReservedOpcodeFaults :
    State.reset.eng.state ≠ .fault ∧ 3 ≤ (3#4).toNat ∧ 3 ≤ (15#4).toNat := by decide

theorem witness_CommandsAreIgnoredInFault (w : Word) :
    let s := withAccess (.write 3#6 w) (machine faulted (table []) [])
    s.eng.state = .fault ∧ Instr.nop.isCommand = true ∧ (Instr.reservedCommand 15).isCommand = true ∧
      s.env.bus = { gap := 0, event := .write 3#6 w } :: [] := ⟨rfl, rfl, rfl, rfl⟩

/-- Every word; 1, 2, 3, 15, 16 are the bounds of the causes. -/
theorem witness_CommandErrorEndsTheCommandInProgress (w : Word) :
    let s := withAccess (.write 3#6 w) (machine (inLine 1 1) (table []) [])
    isBusy s.eng.state = true ∧ s.ports.rst = false ∧ s.env.bus = { gap := 0, event := .write 3#6 w } :: [] ∧
      1#32 ≠ 0#32 ∧ 2#32 ≠ 0#32 ∧ 3#32 ≠ 0#32 ∧ 15#32 ≠ 0#32 ∧ 16#32 ≠ 0#32 :=
  ⟨rfl, rfl, rfl, by decide⟩

/-- INIT_BUSY of an image of this size, with these bytes to come. -/
def beforeInit (width height : BitVec 16) (bytes : List Byte) : State :=
  machine { Engine.reset with state := .initBusy, curWidth := width, curHeight := height } Memory.unwritten bytes

/-- The hypotheses that the statements about a step in INIT_BUSY share, and the same for the other states. -/
def idlePorts (st : EngineState) (s : State) : Bool :=
  decide (s.eng.state = st) && decide (Quiet s) && decide (Fair s) && !s.ports.byteRequest && decide (s.ports.offeredBeat = none)

/-- The least and the greatest minimum code size. -/
theorem witness_InitSetsUpTheDecoder :
    ∀ m ∈ [0#8, 8#8], let s := beforeInit 1 1 [m]
      idlePorts .initBusy s = true ∧ unread s = m :: [] ∧ m.toNat ≤ 8 ∧ s.eng.curWidth ≠ 0 ∧ s.eng.curHeight ≠ 0 := by decide

theorem witness_InitOfAnEmptyImageDrains :
    idlePorts .initBusy (beforeInit 0 3 [2]) = true ∧ unread (beforeInit 0 3 [2]) = 2#8 :: [] ∧ (2#8).toNat ≤ 8 ∧
      (beforeInit 0 3 [2]).eng.curWidth = 0 ∧ idlePorts .initBusy (beforeInit 5 0 [2]) = true ∧
      unread (beforeInit 5 0 [2]) = 2#8 :: [] ∧ (beforeInit 5 0 [2]).eng.curHeight = 0 := by decide

theorem witness_InitFaultsOnTheCodeSizeByte :
    idlePorts .initBusy (beforeInit 1 1 []) = true ∧ unread (beforeInit 1 1 []) = [] ∧
      idlePorts .initBusy (beforeInit 1 1 [9]) = true ∧ unread (beforeInit 1 1 [9]) = 9#8 :: [] ∧ 8 < (9#8).toNat := by decide

/-- A code inside one sub-block, and a 12-bit code over two sub-blocks; the second and the third fetch bytes, and the third
grows the width. -/
theorem witness_ReadCodeTakesTheNextBitsOfTheStream :
    ∀ s ∈ [(beforeClear, 4#12), (machine (reader 1 1 12 4096 4000) (table []) [1, 0xFF, 1, 0x0F], 4095#12),
      (machine (reader 0 0 3 8 8) (table []) [1, 0x4C], 4#12)],
      Quiet s.1 ∧ Fair s.1 ∧ s.1.eng.codeWidth.toNat ≤ 12 ∧ s.1.eng.shiftAcc.toNat < 2 ^ s.1.eng.shiftState.toNat ∧
      s.1.eng.sbPos.toNat + s.1.eng.sbRem.toNat ≤ 255 ∧ s.2.toNat < 2 ^ s.1.eng.codeWidth.toNat ∧
      pendingBits s.1 = encodeCodeBits s.1.eng.codeWidth.toNat s.2 ++ (pendingBits s.1).drop s.1.eng.codeWidth.toNat := by
  decide

/-- A read that grows the width, one at the cap, one at width 12. -/
theorem witness_ReadCodeFromBufferedBits :
    ∀ s ∈ [machine (reader 4 3 3 8 8) (table []) [], machine (reader 0 12 12 4096 4097) (table []) [],
      machine (reader 0 12 12 4096 4096) (table []) []],
      Quiet s ∧ s.eng.codeWidth.toNat ≤ 12 ∧ s.eng.codeWidth.toNat ≤ s.eng.shiftState.toNat := by decide

/-- m = 0 and m = 8, as INIT leaves the registers. -/
theorem witness_CodeWidthFollowsTheSchedule :
    ∀ e ∈ [{ ready 1 1 false with minCodeSize := 0, codeWidth := 1, maxCode1 := 2, runningCode := 3 },
        { ready 1 1 false with minCodeSize := 8, codeWidth := 9, maxCode1 := 512, runningCode := 258 }],
      let s := machine e (table []) []
      Quiet s ∧ s.eng.minCodeSize.toNat ≤ 8 ∧ s.eng.codeWidth.toNat = s.eng.minCodeSize.toNat + 1 ∧
        s.eng.maxCode1.toNat = 2 ^ (s.eng.minCodeSize.toNat + 1) ∧
        s.eng.runningCode.toNat = 2 ^ s.eng.minCodeSize.toNat + 2 := by decide

theorem witness_ReadCodeFaults :
    let wide := machine (reader 0 0 13 4096 4097) (table []) []
    let empty := machine (reader 0 0 3 8 6) (table []) []
    let zero := machine (reader 0 2 3 8 6) (table []) [0]
    idlePorts .lineBusy wide = true ∧ 12 < wide.eng.codeWidth.toNat ∧
      idlePorts .lineBusy empty = true ∧ empty.eng.codeWidth.toNat ≤ 12 ∧
      empty.eng.shiftState.toNat < empty.eng.codeWidth.toNat ∧ empty.eng.sbRem = 0 ∧ unread empty = [] ∧
      idlePorts .lineBusy zero = true ∧ zero.eng.shiftState.toNat < zero.eng.codeWidth.toNat ∧ zero.eng.sbRem = 0 ∧
      unread zero = 0#8 :: [] := by decide

/-- A sub-block that is just complete, and one that lacks one byte. -/
theorem witness_SubBlockFetchUnderBothPolicies :
    let s := machine (inLine 1 1) (table []) [1, 2, 3]
    Quiet s ∧ Fair s ∧ s.eng.state ≠ .fault ∧ (3#8).toNat ≤ (unread s).length ∧ (unread s).length < (4#8).toNat := by decide

theorem witness_EndOnTheLastPixelSkips :
    let s := machine { inLine 3 1 with col := 2 } (table []) []
    Quiet s ∧ s.env.sink.acceptsLeft = none ∧ s.eng.col.toNat + 1 = s.eng.curWidth.toNat ∧ s.eng.lastLine = true := by decide

/-- A column before the last, and the last column of a line that is not the last. -/
theorem witness_EarlyEndFaults :
    ∀ e ∈ [{ inLine 3 1 with col := 1 }, { inLine 3 2 with col := 2 }], let s := machine e (table []) []
      Quiet s ∧ s.eng.state ≠ .fault ∧ ¬(s.eng.col.toNat + 1 = s.eng.curWidth.toNat ∧ s.eng.lastLine = true) := by decide

theorem witness_ClearResetsTheDecoder :
    ∀ m ∈ [0#4, 8#4], let s := machine { inLine 3 1 with minCodeSize := m } (table []) []
      Quiet s ∧ s.eng.minCodeSize.toNat ≤ 8 := by decide

/-- Right after a CLEAR, and with a full table. -/
theorem witness_PixelEmitsItsCode :
    ∀ running ∈ [7#13, 4097#13], let s := machine { inLine 3 1 with runningCode := running } (table []) []
      Quiet s ∧ s.env.sink.acceptsLeft = none ∧ 2 ≤ s.eng.runningCode.toNat ∧ s.eng.runningCode.toNat ≤ 4097 := by decide

/-- Entry 6 = (2, 2) with m = 2: its string is 2, 2 (R187's example). -/
def withEntry (e : Engine) : State := machine e (table [(6, 2, 2)]) []

theorem witness_KnownEmitsItsString :
    let s := withEntry { inLine 3 1 with col := 1, runningCode := 9, lastCode := 6 }
    Quiet s ∧ s.env.sink.acceptsLeft = none ∧ s.eng.stackPtr = 0 ∧ s.eng.col ≤ s.eng.curWidth ∧
      2 ≤ s.eng.runningCode.toNat ∧ s.eng.runningCode.toNat ≤ 4097 ∧ StringOf s (BitVec.setWidth 13 6#12) (2 :: [2]) ∧
      [2#8].length + 1 ≤ 4096 :=
  ⟨rfl, rfl, rfl, by decide, by decide, by decide,
    .entry _ [2] (by decide) (by decide) (by decide) (.pixel 2 (by decide)), by decide⟩

theorem witness_KwkwkEmitsThePreviousStringAndItsFirstPixel :
    let s := withEntry { inLine 5 1 with col := 1, runningCode := 9, lastCode := 6 }
    Quiet s ∧ s.env.sink.acceptsLeft = none ∧ s.eng.stackPtr = 0 ∧ s.eng.col ≤ s.eng.curWidth ∧
      (7#12).toNat + 2 = s.eng.runningCode.toNat ∧ prefixAt s (7#12).toNat = Config.noCode ∧
      s.eng.lastCode ≠ Config.noCode ∧ StringOf s s.eng.lastCode (2 :: [2]) ∧ [2#8].length + 2 ≤ 4096 :=
  ⟨rfl, rfl, rfl, by decide, by decide, by decide, by decide,
    .entry _ [2] (by decide) (by decide) (by decide) (.pixel 2 (by decide)), by decide⟩

theorem witness_InvalidCodeFaults :
    let s := machine (inLine 1 1) (table []) []
    Quiet s ∧ s.eng.state ≠ .fault := by decide

/-- The links of the chain 6, 7, 6, 7 and so on. -/
def loop : State := machine { inLine 4 1 with runningCode := 10, lastCode := 7 } (table [(6, 7, 1), (7, 6, 2)]) []

/-- The clear code at once; V-F10, the entry 7 = (6, 1) with entry 6 undefined, in KNOWN and, as the previous code, in KWKWK. -/
theorem witness_BrokenChainFaults :
    let s := machine { inLine 4 1 with runningCode := 10, lastCode := 7 } (table [(7, 6, 1)]) []
    Quiet s ∧ s.eng.state ≠ .fault ∧ 1 ≤ 4096 ∧
      DefinedChain s (BitVec.setWidth 13 4#12) 0 ∧ BrokenLink s (linkAfter s (BitVec.setWidth 13 4#12) 0) ∧
      DefinedChain s (BitVec.setWidth 13 7#12) 1 ∧ BrokenLink s (linkAfter s (BitVec.setWidth 13 7#12) 1) ∧
      s.eng.stackPtr.toNat + 1 ≤ 4096 ∧
      DefinedChain s s.eng.lastCode 1 ∧ BrokenLink s (linkAfter s s.eng.lastCode 1) :=
  ⟨rfl, by decide, by decide, fun _ h => absurd h (Nat.not_lt_zero _), .inl (by decide),
    fun k h => by obtain rfl : k = 0 := by omega
                  decide,
    .inr (by decide), by decide,
    fun k h => by obtain rfl : k = 0 := by omega
                  decide,
    .inr (by decide)⟩

/-- A stack with one entry free that the walk from 6 fills and cannot go on; a loop, which Root leaves at its limit; and a
KWKWK after the code 1, whose two pixels do not fit. -/
theorem witness_TraceRunawayFaults :
    let s := loop.mapEng fun e => { e with stackPtr := 4095 }
    let t := loop.mapEng fun e => { e with lastCode := 1, stackPtr := 4095 }
    (Quiet s ∧ s.eng.state ≠ .fault ∧ DefinedChain s (BitVec.setWidth 13 6#12) 1 ∧
      ¬BrokenLink s (linkAfter s (BitVec.setWidth 13 6#12) 1) ∧ s.eng.stackPtr.toNat + 1 = 4096) ∧
    (Quiet loop ∧ loop.eng.state ≠ .fault ∧ DefinedChain loop loop.eng.lastCode 4097) ∧
    (Quiet t ∧ t.eng.state ≠ .fault ∧ 0 ≤ 4096 ∧ DefinedChain t t.eng.lastCode 0 ∧
      (linkAfter t t.eng.lastCode 0).toNat < clearCode t.eng ∧ t.eng.stackPtr.toNat ≤ 4096 ∧
      4096 < t.eng.stackPtr.toNat + 0 + 2) := by
  have links : ∀ k, linkAfter loop 7 k = 6 ∨ linkAfter loop 7 k = 7 := by
    intro k
    induction k with
    | zero => exact .inr rfl
    | succ k ih =>
      rcases ih with h | h
      · exact .inr (by rw [linkAfter, h]; decide)
      · exact .inl (by rw [linkAfter, h]; decide)
  refine ⟨⟨rfl, by decide, ?_, ?_, by decide⟩, ⟨rfl, by decide, ?_⟩,
    ⟨rfl, by decide, by decide, fun _ h => absurd h (Nat.not_lt_zero _), by decide, by decide, by decide⟩⟩
  · intro k h
    obtain rfl : k = 0 := by omega
    decide
  · rintro (h | ⟨_, h | h⟩) <;> exact absurd h (by decide)
  · intro k _
    rcases links k with h | h <;> (rw [show loop.eng.lastCode = 7 from rfl, h]; decide)

theorem witness_LeftoverPixelsComeFirst :
    let s := machine { inLine 2 1 with stackPtr := 1 } { table [] with stackRam := [(0, 3)] } []
    idlePorts .lineBusy s = true ∧ s.eng.col < s.eng.curWidth ∧ s.eng.stackPtr ≠ 0 ∧ s.eng.stackPtr.toNat ≤ 4096 := by decide

/-- The last line, and one that is not, plain and interlaced. -/
theorem witness_LineEndsReadyOrDraining :
    ∀ e ∈ [{ inLine 2 1 with col := 2 }, { inLine 2 2 with col := 2 }, { inLine 2 1 with col := 2, curInterlace := true },
        { inLine 2 9 with col := 2, curInterlace := true }], let s := machine e (table []) []
      idlePorts .lineBusy s = true ∧ s.eng.col = s.eng.curWidth := by decide

/-- R212: the end of the first LINE of an interlaced image of height 8 leaves PASS 1 and ROW 4. -/
theorem test_interlaced_line_end :
    (nextOf (step (machine { inLine 2 8 with col := 2, curInterlace := true } (table []) []))).map
      (fun t => (t.eng.row, t.eng.pass)) = some (4, 1) := by decide

/-- A machine whose row sequencer stands at this pass and row of an image of this height. -/
def atRow (interlace : Bool) (pass : BitVec 2) (row : BitVec 17) (height : BitVec 16) : State :=
  machine { ready 1 height interlace with pass := pass, row := row } (table []) []

/-- Each clause at the height where it begins or ends to apply. -/
theorem witness_RowAdvancesByPass :
    Quiet (atRow false 0 65535 65535) ∧ (65535#17).toNat < 65536 ∧
    (0#17).toNat + 8 < (9#16).toNat ∧ (4#17).toNat + 8 < (13#16).toNat ∧ (2#17).toNat + 4 < (7#16).toNat ∧
    (8#16).toNat ≤ (0#17).toNat + 8 ∧ 4 < (8#16).toNat ∧
    (4#16).toNat ≤ (0#17).toNat + 8 ∧ ¬4 < (4#16).toNat ∧ 2 < (4#16).toNat ∧
    (2#16).toNat ≤ (0#17).toNat + 8 ∧ ¬2 < (2#16).toNat ∧
    (12#16).toNat ≤ (4#17).toNat + 8 ∧ (6#16).toNat ≤ (2#17).toNat + 4 := by decide

/-- R214's table at those heights: the pass and row after a LINE. -/
theorem test_rows_at_the_bounds :
    ∀ x ∈ [(atRow false 0 3 9, 0#2, 4#17), (atRow true 0 0 9, 0, 8), (atRow true 0 0 8, 1, 4), (atRow true 0 0 4, 2, 2),
        (atRow true 0 0 2, 3, 1), (atRow true 1 4 13, 1, 12), (atRow true 1 4 12, 2, 2), (atRow true 2 2 7, 2, 6),
        (atRow true 2 2 6, 3, 1), (atRow true 3 1 4, 3, 3)],
      (match advanceRow.run x.1 with
        | .ok _ t => some (t.eng.pass, t.eng.row)
        | .error _ _ => none) = some x.2 := by decide

theorem witness_EveryRowIsVisitedOnce :
    ∀ s ∈ [atRow true 0 0 1, atRow false 0 0 65535], Quiet s ∧ s.eng.row = 0 ∧ s.eng.pass = 0 ∧ s.eng.curHeight ≠ 0 := by
  decide

theorem witness_DrainEndsAtTheTerminator :
    let s := machine { inLine 1 1 with state := .drainBusy } (table []) [0, 0x3B]
    idlePorts .drainBusy s = true ∧ unread s = 0#8 :: [0x3B] := by decide

theorem witness_DrainDiscardsSubBlocks :
    let s := machine { inLine 1 1 with state := .drainBusy } (table []) [1, 0xAA]
    let t := machine { inLine 1 1 with state := .drainBusy } (table []) []
    idlePorts .drainBusy s = true ∧ unread s = 1#8 :: [0xAA] ∧ 1#8 ≠ 0#8 ∧ (1#8).toNat ≤ [0xAA#8].length ∧
      idlePorts .drainBusy t = true ∧ unread t = [] := by decide

/-- A sub-block in the drain that lacks its last byte, and one that lacks every byte. -/
theorem witness_DrainDiscardsSubBlocks_short :
    let s := machine { inLine 1 1 with state := .drainBusy } (table []) [2, 0xAA]
    let t := machine { inLine 1 1 with state := .drainBusy } (table []) [255]
    idlePorts .drainBusy s = true ∧ unread s = 2#8 :: [0xAA] ∧ [0xAA#8].length < (2#8).toNat ∧
      idlePorts .drainBusy t = true ∧ unread t = 255#8 :: [] ∧ [].length (α := Byte) < (255#8).toNat := by decide

theorem witness_FaultEntryWritesOnlyTheRecord :
    State.reset.eng.state ≠ .fault ∧ (machine faulted (table []) []).eng.state = .fault := by decide

/-- A step in FAULT that takes a register write. -/
theorem witness_FaultHoldsUntilReset :
    let s := withAccess (.write 3 1) (machine faulted (table []) [])
    s.eng.state = .fault ∧ ∃ t, step s = .next t ∧ t.free.resets = s.free.resets := ⟨rfl, _, rfl, rfl⟩

theorem witness_PortsCompleteAfterAFault :
    let s := (machine faulted (table []) [7]).mapPorts fun p => { p with byteRequest := true }
    let t := (machine faulted (table []) []).mapPorts fun p =>
      { p with offeredBeat := some { pix := 1, row := 0, col := 0, skip := false } }
    s.eng.state = .fault ∧ Quiet s ∧ Fair s ∧ s.ports.byteRequest = true ∧ unread s = 7#8 :: [] ∧
      t.eng.state = .fault ∧ Quiet t ∧ Fair t ∧ t.ports.byteRequest = false ∧
      t.ports.offeredBeat = some { pix := 1, row := 0, col := 0, skip := false } := by decide

/-- A request in flight at an exhausted source. -/
theorem witness_PortsCompleteAfterAFault_exhausted :
    let s := (machine faulted (table []) []).mapPorts fun p => { p with byteRequest := true }
    s.eng.state = .fault ∧ Quiet s ∧ Fair s ∧ s.ports.byteRequest = true ∧ unread s = [] := by decide

theorem witness_AcceptedBeatsStay : ∃ t, step State.reset = .next t := ⟨_, rfl⟩

/-- A LINE whose leftover pixel is popped: the step answers a next state, still in the LINE. -/
theorem witness_BeatsOfALineFollowItsColumns :
    ∃ s t, s.eng.state = .lineBusy ∧ step s = .next t ∧ t.eng.state = .lineBusy ∧ inFlight t.ports = false := by
  have h : ((nextOf (step (machine { inLine 2 1 with stackPtr := 1 } { table [] with stackRam := [(0, 3)] } []))).map
      fun t => decide (t.eng.state = .lineBusy) && !inFlight t.ports) = some true := by decide
  refine ⟨machine { inLine 2 1 with stackPtr := 1 } { table [] with stackRam := [(0, 3)] } [], ?_⟩
  generalize step _ = o at h
  cases o with
  | next t =>
    simp only [nextOf, Option.map_some, Option.some.injEq, Bool.and_eq_true, decide_eq_true_eq, Bool.not_eq_true'] at h
    exact ⟨t, rfl, rfl, h.1, h.2⟩
  | fault => cases h
  | refused => cases h

theorem witness_StreamIsReadForwards : Quiet State.reset ∧ ∃ t, step State.reset = .next t := ⟨rfl, _, rfl⟩

/-- New bytes for the source, in IDLE, in FAULT and in READY. -/
theorem witness_StreamIsReadForwards_position (bytes : List Byte) :
    let next (s : State) : State := withAccess (.position bytes) s
    (next State.reset).env.bus = { gap := 0, event := .position bytes } :: [] ∧ (next State.reset).eng.state = .idle ∧
      (next (machine faulted (table []) [7])).eng.state = .fault ∧
      imageInProgress (next (machine (ready 3 2 false) (table []) [])).eng.state = true := ⟨rfl, rfl, rfl, rfl⟩

theorem witness_GeometryIsLatched :
    let s := withAccess (.write 1 7) (machine (ready 3 2 false) (table []) [])
    imageInProgress s.eng.state = true ∧ ∃ t, step s = .next t ∧ t.free.resets = s.free.resets := ⟨rfl, _, rfl, rfl⟩

theorem witness_IdleBlockKeepsItsState :
    isBusy State.reset.eng.state = false ∧ Quiet State.reset ∧ State.reset.ports.byteRequest = false ∧
      State.reset.ports.offeredBeat = none := by decide

/-- A LINE that waits for a source that answers no more. -/
def waitsForByte : State :=
  ((machine (inLine 1 1) (table []) []).mapPorts fun p => { p with byteRequest := true }).mapEnv fun v =>
    { v with source := { v.source with answersLeft := some 0 } }

/-- A LINE that waits for a sink that accepts no more. -/
def waitsForSink : State :=
  ((machine (inLine 1 1) (table []) []).mapPorts fun p =>
    { p with offeredBeat := some { pix := 1, row := 0, col := 0, skip := false } }).mapEnv fun v =>
    { v with sink := { v.sink with acceptsLeft := some 0 } }

/-- Either port, with no access to come and with each access, due or not. -/
theorem witness_WaitingEngineIsStuck (gap : Nat) (event : HostEvent) :
    let next (s : State) := s.mapEnv fun v => { v with bus := [{ gap := gap, event := event }] }
    isBusy waitsForByte.eng.state = true ∧ waitsForByte.ports.byteRequest = true ∧
      waitsForByte.env.source.answersLeft = some 0 ∧ Quiet waitsForByte ∧
      isBusy waitsForSink.eng.state = true ∧ waitsForSink.ports.byteRequest = false ∧
      waitsForSink.ports.offeredBeat.isSome = true ∧ waitsForSink.env.sink.acceptsLeft = some 0 ∧ Quiet waitsForSink ∧
      (next waitsForByte).env.bus = { gap := gap, event := event } :: [] ∧ (next waitsForByte).ports.rst = false ∧
      (next waitsForSink).env.bus = { gap := gap, event := event } :: [] ∧ (next waitsForSink).ports.rst = false ∧
      2#6 ≠ 3#6 ∧ 1#32 ≠ 0#32 ∧ 16#32 ≠ 0#32 :=
  ⟨rfl, rfl, rfl, rfl, rfl, rfl, rfl, rfl, rfl, rfl, rfl, rfl, rfl, by decide⟩

theorem witness_StepKeepsRamsCanonical :
    let s := withAccess (.write 1 7) (withEntry (inLine 3 2))
    s.mem.wf = true ∧ ∃ t, step s = .next t := ⟨by decide, _, rfl⟩

/-- The second LINE of a 3×2 image of zeros, about to read its next code: a safe state that is running. -/
def safeLine : State :=
  machine (inLine 3 2) (table []) [2, 0x84, 0x5D, 0]

theorem prefixAt_safeLine (j : Nat) : prefixAt safeLine j = Config.noCode := rfl

theorem safeLine_safe : Safe safeLine where
  ports := fun _ _ => rfl
  waits := fun _ => ⟨fun h => absurd h (by decide), fun h => absurd h (by decide)⟩
  setUp := fun _ => rfl
  notYet := fun h => absurd h (by decide)
  ranges := fun _ =>
    { m_le := by decide
      width_ge := by decide
      width_le := by decide
      ceiling := by decide
      running_ge := by decide
      running_le := by decide
      last := .inl rfl
      shift_le := by decide
      acc_lt := by decide
      stack_le := by decide
      sub_block := by decide
      col_le := by decide
      left_le := by decide }
  position := { init := by decide, ready := by decide, busy := fun _ => by decide }
  table := fun _ =>
    { started := fun h => absurd rfl h
      fresh := fun _ => ⟨by decide, fun e _ => prefixAt_safeLine e⟩
      defined := fun h => absurd rfl h
      last := fun h => absurd rfl h
      below := fun e _ h => absurd (prefixAt_safeLine e) h }

theorem witness_StepKeepsSafety :
    Safe safeLine ∧ ∃ t, step safeLine = .next t := by
  refine ⟨safeLine_safe, ?_⟩
  have h : (nextOf (step safeLine)).isSome = true := by decide
  generalize step safeLine = o at h
  cases o with
  | next t => exact ⟨t, rfl⟩
  | fault => cases h
  | refused => cases h

theorem witness_UnreachableFaultsAreUnreachable : Safe safeLine ∧ safeLine.eng.state ≠ .fault := ⟨safeLine_safe, by decide⟩

theorem witness_EveryCommandEnds : Safe safeLine ∧ isBusy safeLine.eng.state = true ∧ idlePorts .lineBusy safeLine = true :=
  ⟨safeLine_safe, by decide, by decide⟩

/-- The first instant of a step inside a safe LINE. -/
theorem witness_EveryInstantKeepsRanges :
    Safe safeLine ∧ ∃ u, u ∈ instants safeLine ∧ u.free.setUp = true := by
  refine ⟨safeLine_safe, ?_⟩
  have h : ((instants safeLine).head?.map fun u => u.free.setUp) = some true := by decide
  generalize hl : instants safeLine = l at h
  cases l with
  | nil => cases h
  | cons u r => exact ⟨u, List.mem_cons_self, by simpa using h⟩

/-- A step that ends in a next state, one that stops, and one that goes through an engine's task. -/
theorem witness_ActionRunsRefineSteps :
    (∃ t, step State.reset = .next t) ∧ (∃ f, step waitsForByte = .fault f) ∧
      (isBusy safeLine.eng.state = true ∧ inFlight safeLine.ports = false ∧ NothingDue safeLine) ∧
      ∃ t u, step safeLine = .next t ∧ (instants safeLine).getLast? = some u := by
  obtain ⟨_, t, ht⟩ := witness_StepKeepsSafety
  obtain ⟨_, u, hu, _⟩ := witness_EveryInstantKeepsRanges
  exact ⟨⟨_, rfl⟩, ⟨_, rfl⟩, ⟨rfl, rfl, fun _ _ h => nomatch h⟩, t, _, ht, List.getLast?_eq_some_getLast (List.ne_nil_of_mem hu)⟩

/-- A step with instants: no instant of it is left unsaid by an empty list. -/
theorem witness_EachInstantIsOneAction : instants safeLine ≠ [] := by
  obtain ⟨_, u, hu, _⟩ := witness_EveryInstantKeepsRanges
  exact List.ne_nil_of_mem hu

/-- A read of 12 bits that finds 8 of them in a complete sub-block and then nothing, a zero length, a sub-block that holds the
rest once it is filled with zeros, and one that does not (its 8 bits are all there is to the read). -/
theorem witness_ReadCodeFaults_outOfData :
    let at12 (bytes : List Byte) : State := machine (reader 0 0 12 4096 4097) (table []) bytes
    let bits : List Bool := pendingBits (at12 [1, 0xFF, 2]) ++ ([] ++ List.replicate 2 0#8).flatMap byteBits
    (∀ bytes ∈ [[1, 0xFF], [1, 0xFF, 0], [1, 0xFF, 2], [1]], let s := at12 bytes
      idlePorts .lineBusy s = true ∧ s.eng.codeWidth.toNat ≤ 12 ∧ s.eng.shiftAcc.toNat < 2 ^ s.eng.shiftState.toNat ∧
        s.eng.sbPos.toNat + s.eng.sbRem.toNat ≤ 255 ∧ (pendingBits s).length < s.eng.codeWidth.toNat) ∧
      streamAfterData (at12 [1, 0xFF]) = [] ∧ streamAfterData (at12 [1, 0xFF, 0]) = 0#8 :: [] ∧
      streamAfterData (at12 [1, 0xFF, 2]) = 2#8 :: [] ∧ [].length (α := Byte) < (2#8).toNat ∧
      (255#12).toNat < 2 ^ 12 ∧ bits = encodeCodeBits 12 255 ++ bits.drop 12 ∧
      streamAfterData (at12 [1]) = 1#8 :: [] ∧ [].length (α := Byte) < (1#8).toNat ∧
      (pendingBits (at12 [1]) ++ ([] ++ List.replicate 1 0#8).flatMap byteBits).length < 12 := by decide

/-- In a LINE: a read, a register write and a NOP, after which it goes on; a refused word and a reset, which end it; and new
bytes for the source, which stop the step. -/
theorem witness_CommandErrorEndsTheCommandInProgress_accesses (event : HostEvent) :
    let next (event : HostEvent) : State := withAccess event safeLine
    isBusy (next event).eng.state = true ∧ (next event).env.bus = { gap := 0, event := event } :: [] ∧
      (∀ e ∈ [HostEvent.read 4, .write 1 7, .write 3 0],
        ((nextOf (step (next e))).map fun t => isBusy t.eng.state) = some true) ∧
      (∀ e ∈ [HostEvent.write 3 1, .write 3 16, .reset true],
        ((nextOf (step (next e))).map fun t => isBusy t.eng.state) = some false) ∧
      step (next (.position [])) = .fault .streamChangedInImage ∧ 1#6 ≠ 3#6 :=
  ⟨rfl, rfl, by decide, by decide, rfl, by decide⟩

end Sys2Proof.Tests
end

namespace Sys2Proof.Machine
/-! # One action at a time: the tasks of the engine (O59, O60)

Every thread of the engine is put together from the elementary actions that Laws/ActionRun.lean speaks of, so the instants of
each follow one another by single actions and host accesses. -/

section LinkedTasks

variable {α β : Type}

/-- From a command in progress the instants of the thread follow one another, and the command is in progress where the thread
ends normally. -/
abbrev Eng.Continues (x : Eng α) : Prop := Eng.Linked Busy x fun _ => Busy

/-- From a command in progress the instants of the thread follow one another; it may be the command's last. -/
abbrev Eng.Completes (x : Eng α) : Prop := Eng.Linked Busy x fun _ _ => True

theorem Eng.Continues.completes {x : Eng α} (h : x.Continues) : x.Completes := linked_post h fun _ _ _ => trivial

theorem linked_ite {P : State → Prop} {Q : α → State → Prop} {c : Prop} [Decidable c] {x y : Eng α}
    (hx : c → Eng.Linked P x Q) (hy : ¬c → Eng.Linked P y Q) : Eng.Linked P (if c then x else y) Q := by
  split
  · exact hx ‹_›
  · exact hy ‹_›

/-- What a thread looks at does not matter where every continuation is linked. -/
theorem linked_look_busy {S : β → State → Prop} {f : State → Eng β} (hf : ∀ s, Eng.Linked Busy (f s) S) :
    Eng.Linked Busy (look >>= f) S :=
  linked_look fun s hs => linked_pre (hf s) fun _ ht => ht ▸ hs

theorem continues_pure (a : α) : (pure a : Eng α).Continues := linked_pure fun _ hs => hs

/-- One assignment that does not end the command. -/
theorem continues_wr {f : Engine → Engine} (h : ∀ e, Assigns e (f e))
    (hb : ∀ e, isBusy e.state = true → isBusy (f e).state = true) : (wr f).Continues :=
  linked_act (fun _ hs => hs) fun _ u hs k => ⟨.assign (h u.eng), hb u.eng (k.busy hs)⟩

theorem completes_wr {f : Engine → Engine} (h : ∀ e, Assigns e (f e)) : (wr f).Completes :=
  linked_act (fun _ hs => hs) fun _ u _ _ => ⟨.assign (h u.eng), trivial⟩

theorem continues_wrRam {ram : RamName} {depth index : Nat} {f : Memory → Memory}
    (h : ∀ m, index < depth → WritesRam m (f m)) : (wrRam ram depth index f).Continues :=
  linked_wrRam (fun _ hs => hs) fun _ u hs k hi => ⟨h u.mem hi, k.busy hs⟩

theorem continues_raise {c : Cause} {info : Word} (hc : causeKind c ≠ 3) : (raise c info : Eng α).Continues :=
  linked_raise (fun _ hs => hs) hc

theorem continues_clearPrefix : (act (State.mapMem clearPrefix)).Continues :=
  linked_act (fun _ hs => hs) fun _ _ hs k => ⟨.ram .clear, k.busy hs⟩

/-! ## The code reader -/

theorem continues_fetchBytes (policy : ShortReadPolicy) (len : Nat) {cause : Cause} (hc : causeKind cause ≠ 3) :
    ∀ (n k : Nat) (exhausted : Bool), (fetchBytes policy len cause n k exhausted).Continues := by
  have store : ∀ k b, (wrRam .sbbuf Config.subBlockMax k (setSbbuf k b)).Continues := fun k b =>
    continues_wrRam fun _ hk => .sbbufEntry k b hk
  intro n
  induction n with
  | zero => exact fun _ _ => continues_pure ()
  | succ n ih =>
    intro k exhausted
    cases exhausted with
    | true => exact linked_bind (store k 0) fun _ => ih (k + 1) true
    | false =>
      refine linked_bind linked_readSource fun byte => ?_
      cases byte with
      | some b => exact linked_bind (store k b) fun _ => ih (k + 1) false
      | none =>
        cases policy with
        | fault => exact continues_raise hc
        | zeroFill => exact linked_bind (store k 0) fun _ => ih (k + 1) true

theorem continues_fetchSubBlock (len : Byte) {cause : Cause} (hc : causeKind cause ≠ 3) : (fetchSubBlock len cause).Continues :=
  continues_fetchBytes _ _ hc _ _ _

theorem continues_newSubBlock : newSubBlock.Continues := by
  refine linked_bind linked_readSource fun byte => ?_
  cases byte with
  | none => exact continues_raise (by decide)
  | some len =>
    exact linked_ite (fun _ => continues_raise (by decide)) fun _ =>
      linked_bind (continues_fetchSubBlock len (by decide)) fun _ => continues_wr (fun _ => .subBlock _ _) fun _ => id

theorem continues_nextDataByte : nextDataByte.Continues := by
  have take : (look >>= fun s => inRam .sbbuf Config.subBlockMax s.eng.sbPos.toNat >>= fun _ =>
      (wr fun e => { e with sbPos := e.sbPos + 1, sbRem := e.sbRem - 1 }) >>= fun _ =>
        pure (sbbufAt s s.eng.sbPos.toNat)).Continues :=
    linked_look_busy fun _ => linked_bind linked_inRam fun _ =>
      linked_bind (continues_wr (fun e => .subBlock (e.sbRem - 1) (e.sbPos + 1)) fun _ => id) fun _ => continues_pure _
  exact linked_look_busy fun _ => linked_ite (fun _ => linked_bind continues_newSubBlock fun _ => take) fun _ => take

theorem continues_fill : ∀ n : Nat, (fill n).Continues
  | 0 => continues_pure ()
  | n + 1 => linked_look_busy fun _ => linked_ite
      (fun _ => linked_bind continues_nextDataByte fun _ =>
        linked_bind (continues_wr (fun _ => .shift _ _) fun _ => id) fun _ => continues_fill n)
      fun _ => continues_pure ()

theorem continues_bumpRunningCode : bumpRunningCode.Continues :=
  linked_look_busy fun _ => linked_ite
    (fun _ => linked_bind (continues_wr (fun _ => .runningCode _) fun _ => id) fun _ => linked_look_busy fun _ => linked_ite
      (fun _ => continues_wr (fun _ => .growth _ _) fun _ => id) fun _ => continues_pure ())
    fun _ => continues_pure ()

theorem continues_readCode : readCode.Continues :=
  linked_look_busy fun _ => linked_ite (fun _ => continues_raise (by decide)) fun _ =>
    linked_bind (continues_fill _) fun _ => linked_look_busy fun _ =>
      linked_bind (continues_wr (fun _ => .shiftAcc _) fun _ => id) fun _ =>
        linked_bind (continues_wr (fun _ => .shiftState _) fun _ => id) fun _ =>
          linked_bind continues_bumpRunningCode fun _ => continues_pure _

/-! ## The code classes -/

theorem continues_emitPixel (pix : Byte) : (emitPixel pix).Continues :=
  linked_look fun s hs => linked_offerWith (fun _ ht => ht ▸ hs) fun _ u ht k => by
    have he : u.eng = s.eng := ht ▸ k.eng
    exact ⟨he ▸ .offer pix, rfl, rfl⟩

theorem continues_emitSkip : emitSkip.Continues :=
  linked_offerWith (fun _ hs => hs) fun _ _ _ _ => ⟨.offerSkip, rfl, rfl⟩

theorem continues_nextCol : nextCol.Continues := continues_wr (fun _ => .col _) fun _ => id

theorem continues_push (code : Code) (v : Byte) : (push code v).Continues :=
  linked_look_busy fun _ => linked_ite (fun _ => continues_raise (by decide)) fun _ =>
    linked_bind (continues_wrRam fun _ h => .stackEntry _ v h) fun _ => continues_wr (fun _ => .stackPtr _) fun _ => id

theorem continues_pop : pop.Continues :=
  linked_bind (continues_wr (fun _ => .stackPtr _) fun _ => id) fun _ => linked_look_busy fun _ =>
    linked_bind linked_inRam fun _ => continues_pure _

theorem continues_popPixels : ∀ n : Nat, (popPixels n).Continues
  | 0 => continues_pure ()
  | n + 1 => linked_look_busy fun _ => linked_ite
      (fun _ => linked_bind continues_pop fun v => linked_bind (continues_emitPixel v) fun _ =>
        linked_bind continues_nextCol fun _ => continues_popPixels n)
      fun _ => continues_pure ()

theorem continues_popString : popString.Continues := linked_look_busy fun _ => continues_popPixels _

/-- The checks on each link of a chain walk (R188): the walk stops at a PIXEL code, raises BadChain, or goes on. -/
theorem continues_linkChecks {code : Code} {isRoot isClear isUndefined : Prop} [Decidable isRoot]
    [Decidable isClear] [Decidable isUndefined]
    {atRoot goOn : Eng Link} (hr : atRoot.Continues) (hg : goOn.Continues) :
    Eng.Continues (if isRoot then atRoot
      else if isClear then raise .badChain (code.setWidth 32)
      else if isUndefined then raise .badChain (code.setWidth 32)
      else goOn) :=
  linked_ite (fun _ => hr) fun _ => linked_ite (fun _ => continues_raise (by decide)) fun _ =>
    linked_ite (fun _ => continues_raise (by decide)) fun _ => hg

theorem continues_traceFrom (code : Code) : ∀ (n : Nat) (p : Link), (traceFrom code n p).Continues
  | 0, p => linked_look_busy fun _ => continues_linkChecks (linked_bind (continues_push _ _) fun _ => continues_pure p)
      (continues_raise (by decide))
  | n + 1, p => linked_look_busy fun _ => continues_linkChecks (linked_bind (continues_push _ _) fun _ => continues_pure p)
      (linked_bind (continues_push _ _) fun _ => continues_traceFrom code n _)

theorem continues_rootFrom (code : Code) : ∀ (n : Nat) (p : Link), (rootFrom code n p).Continues
  | 0, p => linked_look_busy fun _ => continues_linkChecks (continues_pure p) (continues_raise (by decide))
  | n + 1, p => linked_look_busy fun _ => continues_linkChecks (continues_pure p) (continues_rootFrom code n _)

theorem continues_append (pix : Byte) : (append pix).Continues :=
  linked_look_busy fun _ => linked_bind linked_inRam fun _ => linked_ite
    (fun _ => linked_bind (continues_wrRam fun _ h => .prefixEntry _ _ h) fun _ =>
      continues_wrRam fun _ h => .suffixEntry _ pix h)
    fun _ => continues_pure ()

theorem continues_setLast (c : Code) : (setLast c).Continues := continues_wr (fun _ => .lastCode _) fun _ => id

theorem continues_endActions : endActions.Continues :=
  linked_look_busy fun _ => linked_ite
    (fun _ => linked_bind continues_emitSkip fun _ => linked_bind continues_nextCol fun _ =>
      continues_wr (fun _ => .skipped) fun _ => id)
    fun _ => continues_raise (by decide)

theorem continues_clearActions : clearActions.Continues :=
  linked_bind continues_clearPrefix fun _ => continues_wr (fun _ => .cleared _ _ _ _) fun _ => id

theorem continues_pixelActions (c : Code) : (pixelActions c).Continues :=
  linked_bind (continues_emitPixel _) fun _ => linked_bind continues_nextCol fun _ =>
    linked_bind (continues_append _) fun _ => continues_setLast c

theorem continues_knownActions (c : Code) : (knownActions c).Continues :=
  linked_bind (continues_traceFrom c _ _) fun _ => linked_bind continues_popString fun _ =>
    linked_bind (continues_append _) fun _ => continues_setLast c

theorem continues_kwkwkActions (c : Code) : (kwkwkActions c).Continues :=
  linked_look_busy fun _ => linked_bind (continues_rootFrom c _ _) fun _ =>
    linked_bind (continues_wrRam fun _ h => .suffixEntry _ _ h) fun _ => linked_bind (continues_push c _) fun _ =>
      linked_bind (continues_traceFrom c _ _) fun _ => linked_bind continues_popString fun _ =>
        linked_bind (continues_append _) fun _ => continues_setLast c

theorem continues_instrActions (i : Instr) : (instrActions i).Continues := by
  cases i with
  | nop | init | line | reservedCommand _ => exact continues_pure ()
  | endCode _ => exact continues_endActions
  | clear _ => exact continues_clearActions
  | pixel c => exact continues_pixelActions c
  | known c => exact continues_knownActions c
  | kwkwk c => exact continues_kwkwkActions c
  | invalid _ => exact continues_raise (by decide)

theorem continues_codeActions : codeActions.Continues :=
  linked_bind continues_readCode fun c => linked_look_busy fun s => continues_instrActions (classify (codeCtx s c) c)

/-! ## The rest of INIT, the end of a LINE and the drain -/

theorem continues_setUpDecoder (m : Byte) : (setUpDecoder m).Continues := by
  have assign {f : Engine → Engine} {x : Eng Unit} (hf : ∀ e, Assigns e (f e)) (hs : ∀ e, (f e).state = e.state)
      (hx : x.Continues) : (wr f >>= fun _ => x).Continues :=
    linked_bind (continues_wr hf fun e he => (hs e).symm ▸ he) fun _ => hx
  refine assign (fun _ => .minCodeSize _) (fun _ => rfl) ?_
  refine assign (fun _ => .codeWidth _) (fun _ => rfl) ?_
  refine assign (fun _ => .maxCode1 _) (fun _ => rfl) ?_
  refine assign (fun _ => .runningCode _) (fun _ => rfl) ?_
  refine linked_bind continues_clearPrefix fun _ => ?_
  refine assign (fun _ => .lastCode _) (fun _ => rfl) ?_
  refine assign (fun _ => .stackPtr _) (fun _ => rfl) ?_
  refine assign (fun _ => .shiftAcc _) (fun _ => rfl) ?_
  refine assign (fun _ => .shiftState _) (fun _ => rfl) ?_
  refine assign (fun _ => .sbRem _) (fun _ => rfl) ?_
  refine assign (fun _ => .sbPos _) (fun _ => rfl) ?_
  refine assign (fun _ => .pixelsLeft _) (fun _ => rfl) ?_
  refine assign (fun _ => .row _) (fun _ => rfl) ?_
  refine assign (fun _ => .pass _) (fun _ => rfl) ?_
  refine assign (fun _ => .col _) (fun _ => rfl) ?_
  exact linked_act (fun _ hs => hs) fun _ _ hs k => ⟨.setUpDone, k.busy hs⟩

theorem continues_startDrain : startDrain.Continues :=
  linked_bind (continues_wr (fun _ => .drainBusy) fun _ _ => rfl) fun _ =>
    linked_bind (continues_wr (fun _ => .sbRem _) fun _ => id) fun _ => continues_wr (fun _ => .sbPos _) fun _ => id

theorem completes_finishInit : finishInit.Completes :=
  linked_look_busy fun _ => linked_ite (fun _ => continues_startDrain.completes) fun _ => completes_wr fun _ => .ready

theorem completes_initBody : initBody.Completes := by
  refine linked_bind linked_readSource fun byte => ?_
  cases byte with
  | none => exact (continues_raise (by decide)).completes
  | some b =>
    exact linked_ite (fun _ => (continues_raise (by decide)).completes) fun _ =>
      linked_bind (continues_setUpDecoder b) fun _ => completes_finishInit

theorem continues_skipPasses : ∀ n : Nat, (skipPasses n).Continues
  | 0 => continues_pure ()
  | n + 1 => linked_look_busy fun _ => linked_ite
      (fun _ => linked_bind (continues_wr (fun _ => .pass _) fun _ => id) fun _ =>
        linked_bind (continues_wr (fun _ => .row _) fun _ => id) fun _ => continues_skipPasses n)
      fun _ => continues_pure ()

theorem continues_advanceRow : advanceRow.Continues :=
  linked_look_busy fun _ => linked_ite
    (fun _ => linked_bind (continues_wr (fun _ => .row _) fun _ => id) fun _ => continues_skipPasses _)
    fun _ => continues_wr (fun _ => .row _) fun _ => id

theorem completes_finishLine : finishLine.Completes :=
  linked_bind continues_advanceRow fun _ =>
    linked_bind (Q := fun _ => Busy) (linked_act (fun _ hs => hs) fun _ _ hs k => ⟨.lineDone, k.busy hs⟩) fun _ =>
      linked_look_busy fun _ => linked_ite (fun _ => continues_startDrain.completes) fun _ => completes_wr fun _ => .ready

theorem completes_finishImage : finishImage.Completes :=
  linked_act (fun _ hs => hs) fun _ _ _ _ => ⟨.imageDone, trivial⟩

theorem completes_drainRound : drainRound.Completes := by
  refine linked_bind linked_readSource fun byte => ?_
  cases byte with
  | none => exact (continues_raise (by decide)).completes
  | some len =>
    exact linked_ite (fun _ => completes_finishImage) fun _ => (continues_fetchSubBlock len (by decide)).completes

/-- The instants of the task a state is due follow one another by single actions and host accesses. -/
theorem completes_taskActions (s : State) : (taskActions s).Completes := by
  rw [taskActions]
  cases engineTask s.eng with
  | wait => exact (continues_pure ()).completes
  | init => exact completes_initBody
  | carryOver => exact continues_popString.completes
  | code => exact continues_codeActions.completes
  | lineEnd => exact completes_finishLine
  | drain => exact completes_drainRound

end LinkedTasks

/-! ## The instants of a step -/

/-- Where a host access lands before anything else, the step has no instant before its end. -/
theorem instants_of_hostMoves {s : State} (h : hostMoves s = true) : instants s = [] := by
  rw [instants]
  split
  next hbus => simp [hostMoves, hbus] at h
  next => rw [if_pos h]

theorem instants_of_not_hostMoves {s : State} (h : hostMoves s = false) : instants s = blockInstants s := by
  rw [instants]
  split
  next => rfl
  next => rw [if_neg (by simp [h])]

theorem step_of_not_hostMoves {s : State} (h : hostMoves s = false) : step s = stepBlock s := by
  rw [step]
  split
  next => rfl
  next => rw [if_neg (by simp [h])]

/-- With a command in progress, no port in flight and nothing due, the engine moves (R228). -/
theorem not_hostMoves_of_nothingDue {s : State} (hb : Busy s) (hp : inFlight s.ports = false) (hn : NothingDue s) :
    hostMoves s = false := by
  rw [hostMoves]
  split
  next => rfl
  next it rest hbus => simp [hn it rest hbus, hb, hp]

theorem blockInstants_of_busy {s : State} (hb : Busy s) (hp : inFlight s.ports = false) :
    blockInstants s = (taskActions s).passed s := by
  rw [blockInstants, if_pos hb, if_neg (by simp [hp])]

theorem stepBlock_of_busy {s : State} (hb : Busy s) (hp : inFlight s.ports = false) : stepBlock s = stepEngine s := by
  rw [stepBlock, if_pos hb, if_neg (by simp [hp])]

theorem blockInstants_leads (s : State) : Leads s (blockInstants s) := by
  by_cases hb : Busy s
  · cases hp : inFlight s.ports with
    | true => rw [blockInstants, if_pos hb, if_pos hp]; trivial
    | false => rw [blockInstants_of_busy hb hp]; exact (completes_taskActions s s hb).1
  · rw [blockInstants, if_neg hb]
    cases hc : portCompletes s with
    | none => trivial
    | some t => exact ⟨.port (by simpa [Busy] using hb) hc, trivial⟩

theorem instants_leads (s : State) : Leads s (instants s) := by
  cases h : hostMoves s with
  | true => rw [instants_of_hostMoves h]; trivial
  | false => rw [instants_of_not_hostMoves h]; exact blockInstants_leads s

/-- Settles O60: the instants of the engine's task are linked (`completes_taskActions`), and a port that completes is one
instant. -/
theorem eachInstantIsOneAction : Obligations.EachInstantIsOneAction := by
  unfold Obligations.EachInstantIsOneAction
  exact fun s => (leads_iff_isChain s _).mp (instants_leads s)

/-! ## The outcome of a step and the outcome of its actions -/

/-- A code of the stream is no command, so its meaning is the outcome of its actions. -/
theorem exec_classify (x : CodeCtx) (c : Code) (s : State) :
    exec (classify x c) s = Eng.outcome (instrActions (classify x c)) s := by
  rw [classify]
  split_ifs <;> rfl

theorem stepCode_eq (s : State) : stepCode s = Eng.outcome codeActions s := by
  rw [stepCode, Eng.outcome, codeActions, run_bind]
  cases readCode.run s with
  | ok c t => exact exec_classify (codeCtx t c) c t
  | error e t => rfl

theorem stepEngine_eq (s : State) : stepEngine s = Eng.outcome (taskActions s) s := by
  rw [stepEngine, taskActions]
  cases engineTask s.eng with
  | wait | init | carryOver | lineEnd | drain => rfl
  | code => exact stepCode_eq s

/-- A thread whose end is linked to its last instant leads to that instant as the next state, or waits for a port there. -/
theorem next_of_endsAt {Q : Unit → State → Prop} {x : Eng Unit} {s t u : State} (h : EndsAt Q u (x.run s))
    (ho : Eng.outcome x s = .next t) : t = u ∨ (inFlight t.ports = true ∧ NothingDue u ∧ t = nearer u) := by
  rw [Eng.outcome] at ho
  rcases hx : x.run s with ⟨_, v⟩ | ⟨_ | _ | _, v⟩ <;> rw [hx] at h ho <;> cases ho
  · exact .inl h.1
  · exact .inl h
  · exact .inr h

theorem stepBlock_lastInstant {s t u : State} (ht : stepBlock s = .next t) (hu : (blockInstants s).getLast? = some u) :
    t = u ∨ (inFlight t.ports = true ∧ NothingDue u ∧ t = nearer u) := by
  by_cases hb : Busy s
  · cases hp : inFlight s.ports with
    | true => rw [stepBlock, if_pos hb, if_pos hp] at ht; cases ht
    | false =>
      rw [stepBlock_of_busy hb hp, stepEngine_eq] at ht
      rw [blockInstants_of_busy hb hp] at hu
      have hlast : ((taskActions s).passed s).getLastD s = u := by rw [List.getLastD_eq_getLast?, hu]; rfl
      exact next_of_endsAt (hlast ▸ (completes_taskActions s s hb).2) ht
  · rw [blockInstants, if_neg hb] at hu
    rw [stepBlock, if_neg hb] at ht
    cases hc : portCompletes s with
    | none => rw [hc] at hu; cases hu
    | some v => rw [hc] at hu ht; cases hu; cases ht; exact .inl rfl

theorem step_lastInstant {s t u : State} (ht : step s = .next t) (hu : (instants s).getLast? = some u) :
    t = u ∨ (inFlight t.ports = true ∧ NothingDue u ∧ t = nearer u) := by
  cases h : hostMoves s with
  | true => rw [instants_of_hostMoves h] at hu; cases hu
  | false =>
    rw [instants_of_not_hostMoves h] at hu
    rw [step_of_not_hostMoves h] at ht
    exact stepBlock_lastInstant ht hu

/-! ## The machine of single actions -/

theorem run_succ {M : Host.Core} {a b : M.State} (h : M.step a = .next b) (k : Nat) : M.run (k + 1) a = M.run k b := by
  rw [Host.Core.run, h]

theorem statesOfRun_succ {a b : AtAction} (h : actionStep a = .next b) (k : Nat) :
    statesOfRun (k + 1) a = b.now :: statesOfRun k b := by
  rw [statesOfRun, h]

/-- From the action that enters a list of states the machine stands at these states, one after another. -/
theorem run_entered {stop : Option Fault} {r : List State} {a : AtAction} {u : State}
    (h : actionStep a = .next { now := u, ahead := r, stop := stop }) :
    Host.Core.run actionCore (r.length + 1) a = .next { now := r.getLastD u, ahead := [], stop := stop } ∧
      statesOfRun (r.length + 1) a = u :: r := by
  induction r generalizing a u with
  | nil => exact ⟨run_succ (M := actionCore) h 0, statesOfRun_succ h 0⟩
  | cons v r ih =>
    obtain ⟨hrun, hstates⟩ := ih (a := { now := u, ahead := v :: r, stop := stop }) rfl
    rw [List.getLastD_cons]
    exact ⟨(run_succ (M := actionCore) h _).trans hrun, (statesOfRun_succ h _).trans (congrArg (u :: ·) hstates)⟩

/-- The machine goes along the instants of a task to the state the task ends in. -/
theorem run_task {s t : State} (h : step s = .next t) : ∃ k, Host.Core.run actionCore k (atTask s) = .next (atTask t) ∧
    statesOfRun k (atTask s) = (instants s).dropLast ++ [t] := by
  have hfirst : actionStep (atTask s) = .next (enterTask t none (instants s).dropLast) := by
    simp only [actionStep, atTask, h]
  cases hi : (instants s).dropLast with
  | nil =>
    rw [hi] at hfirst
    exact ⟨_, run_entered hfirst⟩
  | cons u r =>
    rw [hi] at hfirst
    obtain ⟨hrun, hstates⟩ := run_entered hfirst
    exact ⟨_, hrun.trans (by simp [atTask]), hstates⟩

/-- The machine goes along the instants of a task that stops, then stops as the step does. -/
theorem run_stoppedTask {s : State} {f : Fault} (h : step s = .fault f) :
    ∃ k a, Host.Core.run actionCore k (atTask s) = .next a ∧ statesOfRun k (atTask s) = instants s ∧
      actionStep a = .fault f := by
  cases hi : instants s with
  | nil => exact ⟨0, atTask s, rfl, rfl, by simp only [actionStep, atTask, h, hi]⟩
  | cons u r =>
    have hfirst : actionStep (atTask s) = .next { now := u, ahead := r, stop := some f } := by
      simp only [actionStep, atTask, h, hi]
    obtain ⟨hrun, hstates⟩ := run_entered hfirst
    exact ⟨_, _, hrun, hstates, rfl⟩

/-- Settles O59: a task's first action enters the list of its instants, along which the machine then goes. -/
theorem actionRunsRefineSteps : Obligations.ActionRunsRefineSteps := by
  unfold Obligations.ActionRunsRefineSteps
  intro s
  refine ⟨fun t => run_task, fun f => run_stoppedTask, stepEngine_eq s, fun hb hp hn => ?_, fun t u => step_lastInstant⟩
  have hm := not_hostMoves_of_nothingDue hb hp hn
  exact ⟨(instants_of_not_hostMoves hm).trans (blockInstants_of_busy hb hp),
    ((step_of_not_hostMoves hm).trans (stepBlock_of_busy hb hp)).trans (stepEngine_eq s)⟩

end Sys2Proof.Machine

namespace Sys2Proof.Machine
/-! # KNOWN and KWKWK: a string is traced, emitted and appended (O31, O32)

Both classes end in the same four operations: the walk that pushes a string, PopString, Append and LAST_CODE. What these do is
said once (`emitString_quiet`); KWKWK differs in the pixel that is already on the stack. -/

/-- The end of KNOWN and of KWKWK: the string of `start` is traced, popped into the row, and appended (R186, R187). -/
def emitString (start : Link) (c : Code) : Eng Unit := do
  let r ← trace start c
  popString
  append (r.setWidth 8)
  setLast c

theorem knownActions_eq (c : Code) : knownActions c = emitString (c.setWidth 13) c := rfl

theorem kwkwkActions_eq (c : Code) : kwkwkActions c = (do
    let s ← look
    let first ← root s.eng.lastCode c
    wrRam .suffixRam Config.tableSize c.toNat (setSuffix c.toNat (first.setWidth 8))
    push c (first.setWidth 8)
    emitString s.eng.lastCode c) := rfl

/-- How many of so many pixels the row still has room for (R189). -/
def fitInRow (pixels : Nat) (e : Engine) : Nat := min pixels (e.curWidth.toNat - e.col.toNat)

/-- From s to t the code c has emitted pixels into the row, as many as fit, and left the rest on the stack; it has appended the
entry RUNNING_CODE - 2 with `first`, and become LAST_CODE (R186 to R192). -/
structure StringEmitted (c : Code) (first : Byte) (pixels : List Byte) (s t : State) : Prop where
  env : t.env = { s.env with sink := { s.env.sink with
    accepted := s.env.sink.accepted ++
      rowBeats (s.eng.row.setWidth 16) s.eng.col (pixels.take (fitInRow pixels.length s.eng)) } }
  left : stackPixels t = pixels.drop (fitInRow pixels.length s.eng)
  eng : t.eng = { s.eng with
    col := s.eng.col + BitVec.ofNat 16 (fitInRow pixels.length s.eng)
    stackPtr := BitVec.ofNat 13 (pixels.length - fitInRow pixels.length s.eng)
    lastCode := c.setWidth 13 }
  table : Appends first s t
  sbbuf : SameSbbuf s t
  stack : ∀ k, pixels.length ≤ k → stackAt t k = stackAt s k
  host : t.host = s.host
  byteRequest : t.ports.byteRequest = s.ports.byteRequest
  rst : t.ports.rst = s.ports.rst
  free : t.free = s.free

theorem stackPixels_length (s : State) : (stackPixels s).length = s.eng.stackPtr.toNat := by simp [stackPixels]

theorem stackPixels_of_empty {s : State} (h : s.eng.stackPtr = 0) : stackPixels s = [] :=
  List.eq_nil_of_length_eq_zero (by rw [stackPixels_length, h]; rfl)

theorem Appends.of_sameTable {pix : Byte} {s t u : State} (h : Appends pix t u) (ht : SameTable s t)
    (hr : t.eng.runningCode = s.eng.runningCode) (hl : t.eng.lastCode = s.eng.lastCode) : Appends pix s u := by
  intro j
  have hj := h j
  rwa [hr, hl, (ht j).1, (ht j).2] at hj

/-- Popping, appending and setting LAST_CODE, from a state whose stack holds the pixels to emit. -/
theorem popAppend_quiet {s : State} (c : Code) (first : Byte) (hq : Quiet s) (ha : s.env.sink.acceptsLeft = none)
    (hs : s.eng.stackPtr.toNat ≤ 4096) (hcol : s.eng.col ≤ s.eng.curWidth) (h2 : 2 ≤ s.eng.runningCode.toNat)
    (hr : s.eng.runningCode.toNat ≤ 4097) :
    ∃ t, (popString >>= fun _ => append first >>= fun _ => setLast c).run s = .ok () t ∧
      StringEmitted c first (stackPixels s) s t := by
  obtain ⟨t, n, hpop, hn, henv, heng, hleft, hmem, hhost, hfree, hports⟩ := popPixels_quiet _ hq ha rfl hs hcol
  have hfit : n = fitInRow (stackPixels s).length s.eng := by rw [stackPixels_length]; exact hn
  have hqt : Quiet t := by rw [Quiet, henv]; exact hq
  have hrun : t.eng.runningCode = s.eng.runningCode := by rw [heng]
  have hindex : appendIndex t.eng < Config.tableSize := by
    rw [appendIndex_eq (hrun ▸ h2), hrun]
    show _ < 4096
    omega
  have hfr : t.free.resets = s.free.resets := by rw [hfree]
  refine ⟨(appended first t).mapEng fun e => { e with lastCode := c.setWidth 13 }, ?_, ?_⟩
  · rw [run_bind, popString_run, hpop]
    simp only [run_bind, append_quiet hqt hindex]
    exact setLast_quiet (by rw [appended_env]; exact hqt) c
  · exact
      { env := by rw [mapEng_env, appended_env, henv, hfit]
        left := by
          rw [← hfit, ← hleft]
          simp only [stackPixels, mapEng_eng, appended_eng]
          congr 2
          exact funext (appended_stack first t)
        eng := by rw [mapEng_eng, appended_eng, heng, hfit, stackPixels_length]
        table := Appends.of_sameTable (appended_appends (hrun ▸ h2) first)
          (fun j => ⟨prefixAt_congr hmem hfr j, suffixAt_congr hmem hfr j⟩) hrun (by rw [heng])
        sbbuf := fun k => (appended_sbbuf first t k).trans (sbbufAt_congr hmem hfr k)
        stack := fun k _ => (appended_stack first t k).trans (stackAt_congr hmem hfr k)
        host := by rw [mapEng_host, appended_host, hhost]
        byteRequest := by rw [mapEng_ports, appended_ports, hports]; split <;> rfl
        rst := by rw [mapEng_ports, appended_ports, hports]; split <;> rfl
        free := by rw [mapEng_free, appended_free, hfree] }

/-- The pushes of a chain walk may come before: what else StringEmitted speaks of they leave alone. -/
theorem StringEmitted.of_onlyStack {c : Code} {first : Byte} {pixels : List Byte} {s t u : State}
    (h : StringEmitted c first pixels t u) (ht : OnlyStack s t)
    (hstack : ∀ k, pixels.length ≤ k → stackAt t k = stackAt s k) : StringEmitted c first pixels s u := by
  obtain ⟨henv, hleft, heng, htable, hsbbuf, hst, hhost, hbyte, hrst, hfree⟩ := h
  have hfit : fitInRow pixels.length t.eng = fitInRow pixels.length s.eng := by rw [ht.eng]; rfl
  have hrow : t.eng.row = s.eng.row := by rw [ht.eng]
  have hcol : t.eng.col = s.eng.col := by rw [ht.eng]
  exact
    { env := by rw [henv, hfit, hrow, hcol, ht.env]
      left := by rw [hleft, hfit]
      eng := by rw [heng, hfit, ht.eng]
      table := htable.of_sameTable ht.sameTable (by rw [ht.eng]) (by rw [ht.eng])
      sbbuf := fun k => (hsbbuf k).trans (ht.sameSbbuf k)
      stack := fun k hk => (hst k hk).trans (hstack k hk)
      host := hhost.trans ht.host
      byteRequest := by rw [hbyte, ht.ports]
      rst := by rw [hrst, ht.ports]
      free := hfree.trans ht.free }

/-- The string of `start` is emitted before the pixels that are on the stack. -/
theorem emitString_quiet {s : State} {start : Link} {first : Byte} {tail : List Byte} (c : Code) (hq : Quiet s)
    (ha : s.env.sink.acceptsLeft = none) (hcol : s.eng.col ≤ s.eng.curWidth) (h2 : 2 ≤ s.eng.runningCode.toNat)
    (hr : s.eng.runningCode.toNat ≤ 4097) (hstr : StringOf s start (first :: tail))
    (hroom : s.eng.stackPtr.toNat + tail.length + 1 ≤ 4096) :
    ∃ t, (emitString start c).run s = .ok () t ∧ StringEmitted c first (first :: tail ++ stackPixels s) s t := by
  obtain ⟨t, r, htrace, hroot, hot, hptr, hpix, hstack⟩ :=
    traceFrom_quiet c Config.traceLimit hq hstr (by show _ ≤ 4096; omega) hroom
  have hrun : t.eng.runningCode = s.eng.runningCode := by rw [hot.eng]
  obtain ⟨u, hu, hem⟩ := popAppend_quiet (s := t) c first (by rw [Quiet, hot.env]; exact hq) (by rw [hot.env]; exact ha)
    (by omega) (by rw [hot.eng]; exact hcol) (hrun ▸ h2) (hrun ▸ hr)
  refine ⟨u, ?_, hpix ▸ hem.of_onlyStack hot fun k hk => hstack k (.inr ?_)⟩
  · have htrace' : (trace start c).run s = .ok r t := htrace
    rw [emitString, run_bind, htrace']
    simp only [hroot]
    exact hu
  · rwa [stackPixels_length, hptr] at hk

theorem exec_known_of_run {c : Code} {s t : State} (h : (knownActions c).run s = .ok () t) : exec (.known c) s = .next t := by
  show Eng.outcome (knownActions c) s = _
  rw [Eng.outcome, h]

theorem exec_kwkwk_of_run {c : Code} {s t : State} (h : (kwkwkActions c).run s = .ok () t) : exec (.kwkwk c) s = .next t := by
  show Eng.outcome (kwkwkActions c) s = _
  rw [Eng.outcome, h]

/-- Settles O31: KNOWN is `emitString` from an empty stack. -/
theorem knownEmitsItsString : Obligations.KnownEmitsItsString := by
  unfold Obligations.KnownEmitsItsString
  intro s c first tail hq ha hptr hcol h2 hr hstr hlen
  have hroom : s.eng.stackPtr.toNat + tail.length + 1 ≤ 4096 := by rw [hptr]; simpa using hlen
  obtain ⟨t, hrun, hem⟩ := emitString_quiet c hq ha hcol h2 hr hstr hroom
  rw [stackPixels_of_empty hptr, List.append_nil] at hem
  exact ⟨t, fitInRow (tail.length + 1) s.eng, exec_known_of_run hrun, rfl, hem.env, hem.left, hem.eng, hem.table, hem.sbbuf,
    hem.stack, hem.host, hem.byteRequest, hem.rst, hem.free⟩

/-! ## KWKWK -/

theorem prefixAt_setSuffix (s : State) (i : Nat) (v : Byte) (j : Nat) :
    prefixAt (s.mapMem (setSuffix i v)) j = prefixAt s j := prefixAt_mapMem rfl rfl j

/-- The string of a code does not pass through an undefined entry, so the SUFFIX of one does not matter. -/
theorem StringOf.setSuffix_undefined {s : State} {p : Link} {l : List Byte} {i : Nat} {v : Byte} (h : StringOf s p l)
    (hi : prefixAt s i = Config.noCode) : StringOf (s.mapMem (setSuffix i v)) p l := by
  induction h with
  | pixel p hp => exact .pixel p hp
  | entry p l hc hp hd _ ih =>
    have hne : i ≠ p.toNat := fun he => hd (he ▸ hi)
    have hnext := StringOf.entry (s := s.mapMem (setSuffix i v)) p l hc hp (by rwa [prefixAt_setSuffix])
      (by rwa [prefixAt_setSuffix])
    rwa [suffixAt_setSuffix, if_neg hne] at hnext

/-- The state in which KWKWK traces the previous string: its own entry's SUFFIX is written, and its last pixel pushed. -/
def kwkwkStart (c : Code) (first : Byte) (s : State) : State := pushed first (s.mapMem (setSuffix c.toNat first))

theorem kwkwkStart_run {s : State} {c : Code} {first : Byte} {tail : List Byte} (hq : Quiet s) (hptr : s.eng.stackPtr = 0)
    (hstr : StringOf s s.eng.lastCode (first :: tail)) (hlen : tail.length ≤ 4096) :
    (kwkwkActions c).run s = (emitString s.eng.lastCode c).run (kwkwkStart c first s) := by
  obtain ⟨r, hroot, hfirst⟩ := rootFrom_quiet c Config.traceLimit hstr hlen
  have hroot' : (root s.eng.lastCode c).run s = .ok r s := hroot
  have hpush := push_quiet (s := s.mapMem (setSuffix c.toNat first)) hq (by rw [mapMem_eng, hptr]; decide) c first
  rw [kwkwkActions_eq, run_bind, run_look]
  simp only [run_bind, hroot', hfirst, wrRam_quiet hq (show c.toNat < Config.tableSize from c.isLt), hpush]
  rfl

theorem kwkwkStart_string {s : State} {c : Code} {first : Byte} {p : Link} {l : List Byte} (h : StringOf s p l)
    (hc : prefixAt s c.toNat = Config.noCode) : StringOf (kwkwkStart c first s) p l :=
  StringOf.congr (s := s.mapMem (setSuffix c.toNat first)) (t := kwkwkStart c first s) rfl (OnlyStack.pushed first _).sameTable
    (h.setSuffix_undefined hc)

theorem kwkwkStart_ptr (c : Code) (first : Byte) {s : State} (hptr : s.eng.stackPtr = 0) :
    (kwkwkStart c first s).eng.stackPtr.toNat = 1 := by
  rw [kwkwkStart, pushed_ptr (by rw [mapMem_eng, hptr]; decide), mapMem_eng, hptr]
  rfl

theorem kwkwkStart_stackPixels (c : Code) (first : Byte) {s : State} (hptr : s.eng.stackPtr = 0) :
    stackPixels (kwkwkStart c first s) = [first] := by
  rw [kwkwkStart, stackPixels_pushed (by rw [mapMem_eng, hptr]; decide), stackPixels_of_empty (s := s.mapMem _) hptr]

theorem kwkwkStart_stackAt (c : Code) (first : Byte) {s : State} (hptr : s.eng.stackPtr = 0) {k : Nat} (hk : 0 < k) :
    stackAt (kwkwkStart c first s) k = stackAt s k := by
  rw [kwkwkStart, pushed_stackAt, mapMem_eng, hptr, if_neg (by simpa using hk.ne)]
  rfl

theorem kwkwkStart_suffixAt (c : Code) (first : Byte) (s : State) (j : Nat) :
    suffixAt (kwkwkStart c first s) j = if c.toNat = j then first else suffixAt s j :=
  (suffixAt_congr rfl rfl j).trans (suffixAt_setSuffix s _ j first)

theorem kwkwkStart_prefixAt (c : Code) (first : Byte) (s : State) (j : Nat) :
    prefixAt (kwkwkStart c first s) j = prefixAt s j :=
  (prefixAt_congr rfl rfl j).trans (prefixAt_setSuffix s c.toNat first j)

/-- The append of KWKWK defines the code's own entry, whose SUFFIX is written already. -/
theorem kwkwk_defines {s t : State} {c : Code} {first : Byte} (h : Appends first (kwkwkStart c first s) t)
    (hrun : c.toNat + 2 = s.eng.runningCode.toNat) (hc : prefixAt s c.toNat = Config.noCode)
    (hl : s.eng.lastCode ≠ Config.noCode) (j : Nat) :
    prefixAt t j = (if j = c.toNat then s.eng.lastCode else prefixAt s j) ∧
      suffixAt t j = (if j = c.toNat then first else suffixAt s j) := by
  have hj := h j
  rw [kwkwkStart_prefixAt, kwkwkStart_suffixAt] at hj
  by_cases he : j = c.toNat
  · subst he
    have hg : c.toNat + 2 = (kwkwkStart c first s).eng.runningCode.toNat ∧
        (kwkwkStart c first s).eng.lastCode ≠ Config.noCode ∧ prefixAt s c.toNat = Config.noCode := ⟨hrun, hl, hc⟩
    rw [if_pos hg, if_pos hg] at hj
    rw [if_pos rfl, if_pos rfl]
    exact hj
  · have hg : ¬(j + 2 = (kwkwkStart c first s).eng.runningCode.toNat ∧
        (kwkwkStart c first s).eng.lastCode ≠ Config.noCode ∧ prefixAt s j = Config.noCode) := by
      rintro ⟨h, -⟩
      exact he (by have : j + 2 = s.eng.runningCode.toNat := h; omega)
    rw [if_neg hg, if_neg hg, if_neg (Ne.symm he)] at hj
    rw [if_neg he, if_neg he]
    exact hj

/-- Settles O32: KWKWK is `emitString` of LAST_CODE from a stack that holds the string's first pixel. -/
theorem kwkwkEmitsThePreviousStringAndItsFirstPixel : Obligations.KwkwkEmitsThePreviousStringAndItsFirstPixel := by
  unfold Obligations.KwkwkEmitsThePreviousStringAndItsFirstPixel
  intro s c first tail hq ha hptr hcol hrun hc hl hstr hlen
  have hclt := c.isLt
  have hroom : (kwkwkStart c first s).eng.stackPtr.toNat + tail.length + 1 ≤ 4096 := by rw [kwkwkStart_ptr c first hptr]; omega
  obtain ⟨t, ht, hem⟩ := emitString_quiet (s := kwkwkStart c first s) c hq ha hcol
    (show 2 ≤ s.eng.runningCode.toNat by omega) (show s.eng.runningCode.toNat ≤ 4097 by omega) (kwkwkStart_string hstr hc) hroom
  rw [kwkwkStart_stackPixels c first hptr] at hem
  have hlength : (first :: tail ++ [first]).length = tail.length + 2 := by simp
  obtain ⟨henv, hleft, heng, htable, hsbbuf, hstack, hhost, hbyte, hrst, hfree⟩ := hem
  rw [hlength] at henv hleft heng hstack
  exact ⟨t, fitInRow (tail.length + 2) s.eng, exec_kwkwk_of_run ((kwkwkStart_run hq hptr hstr (by omega)).trans ht), rfl, henv,
    hleft, heng, kwkwk_defines htable hrun hc hl, hsbbuf,
    fun k hk => (hstack k hk).trans (kwkwkStart_stackAt c first hptr (by omega)), hhost, hbyte, hrst, hfree⟩

end Sys2Proof.Machine

namespace Sys2Proof.Machine
/-! # Safe states: how a state changes and stays safe

`Safe` speaks of the engine registers, of what PREFIX reads as, of the two port transactions and the patience of their other
sides, and of `setUp`. Said once for each way a state changes outside the engine's threads. -/

/-- The parts of two states that `Safe` speaks of, but for the engine registers, are the same. -/
structure SameAround (s t : State) : Prop where
  prefixes : ∀ j, prefixAt t j = prefixAt s j
  byteRequest : t.ports.byteRequest = s.ports.byteRequest
  offeredBeat : t.ports.offeredBeat.isSome = s.ports.offeredBeat.isSome
  answersLeft : t.env.source.answersLeft = s.env.source.answersLeft
  acceptsLeft : t.env.sink.acceptsLeft = s.env.sink.acceptsLeft
  setUp : t.free.setUp = s.free.setUp

theorem Landed.prefixAt {s t : State} (h : Landed s t) (j : Nat) : prefixAt t j = prefixAt s j :=
  prefixAt_congr h.mem h.resets j

theorem Landed.sameAround {s t : State} (h : Landed s t) : SameAround s t :=
  ⟨h.prefixAt, h.byteRequest, by rw [h.offeredBeat], by rw [h.source], by rw [h.sink], h.setUp⟩

theorem SameAround.inFlight {s t : State} (h : SameAround s t) : inFlight t.ports = inFlight s.ports := by
  rw [Machine.inFlight, h.byteRequest, h.offeredBeat]; rfl

/-! ## The other side of a port -/

/-- An answer of the byte source leaves the block alone but for the request it answers (R60). -/
theorem sourceAnswers_frame {s t : State} {byte : Option Byte} (h : sourceAnswers s = some (byte, t)) :
    t.eng = s.eng ∧ t.mem = s.mem ∧ t.free = s.free ∧ t.ports = { s.ports with byteRequest := false } := by
  simp only [sourceAnswers] at h
  split at h <;> cases h
  exact ⟨rfl, rfl, rfl, rfl⟩

/-- An acceptance by the sink leaves the block alone but for the beat it accepts (R61). -/
theorem sinkAccepts_frame {s t : State} (h : sinkAccepts s = some t) :
    t.eng = s.eng ∧ t.mem = s.mem ∧ t.free = s.free ∧ s.ports.offeredBeat.isSome = true ∧
      t.ports = { s.ports with offeredBeat := none } := by
  simp only [sinkAccepts] at h
  split at h <;> cases h
  next hbeat _ => exact ⟨rfl, rfl, rfl, by rw [hbeat]; rfl, rfl⟩

/-- A source that does not answer never will (U9). -/
theorem answersLeft_of_waiting {s : State} (h : sourceAnswers s = none) : s.env.source.answersLeft = some 0 := by
  simp only [sourceAnswers] at h
  match hl : s.env.source.answersLeft with
  | some 0 => rfl
  | none | some (n + 1) => simp [hl, spend] at h

/-- A sink that does not accept the beat in flight never will (U8). -/
theorem acceptsLeft_of_waiting {s : State} (ho : s.ports.offeredBeat.isSome = true) (h : sinkAccepts s = none) :
    s.env.sink.acceptsLeft = some 0 := by
  obtain ⟨beat, hbeat⟩ := Option.isSome_iff_exists.mp ho
  simp only [sinkAccepts, hbeat] at h
  match hl : s.env.sink.acceptsLeft with
  | some 0 => rfl
  | none | some (n + 1) => simp [hl, spend] at h

/-! ## The table invariant, in terms of the registers it speaks of -/

/-- The invariant of R194 for a table into which the codes up to RUNNING_CODE = `running` have been entered; `TableInv` is this
for the RUNNING_CODE of a state between two codes. -/
structure TableOf (clear : Nat) (last : Link) (running : Nat) (table : Nat → Link) : Prop where
  started : last ≠ Config.noCode → clear + 2 < running
  fresh : last = Config.noCode → running = clear + 2 ∧ ∀ e, e < 4096 → table e = Config.noCode
  defined : last ≠ Config.noCode → ∀ e, e < 4096 → (table e ≠ Config.noCode ↔ clear + 2 ≤ e ∧ e + 2 ≤ running)
  last : last ≠ Config.noCode → last.toNat < clear ∨ (last.toNat < 4096 ∧ table last.toNat ≠ Config.noCode)
  below : ∀ e, e < 4096 → table e ≠ Config.noCode →
    (table e).toNat < e ∧ ((table e).toNat < clear ∨ table (table e).toNat ≠ Config.noCode)

theorem tableInv_iff (s : State) :
    TableInv s ↔ TableOf (clearCode s.eng) s.eng.lastCode s.eng.runningCode.toNat (prefixAt s) :=
  ⟨fun ⟨h1, h2, h3, h4, h5⟩ => ⟨h1, h2, h3, h4, h5⟩, fun ⟨h1, h2, h3, h4, h5⟩ => ⟨h1, h2, h3, h4, h5⟩⟩

theorem TableInv.congr {s t : State} (h : TableInv s) (hm : t.eng.minCodeSize = s.eng.minCodeSize)
    (hl : t.eng.lastCode = s.eng.lastCode) (hr : t.eng.runningCode = s.eng.runningCode)
    (hp : ∀ j, prefixAt t j = prefixAt s j) : TableInv t := by
  rw [tableInv_iff] at h ⊢
  have hc : clearCode t.eng = clearCode s.eng := by rw [clearCode, hm]; rfl
  rwa [hc, hl, hr, funext hp]

/-! ## Changes that keep a state safe -/

theorem Safe.congr {s t : State} (h : Safe s) (he : t.eng = s.eng) (k : SameAround s t) : Safe t where
  ports := by rw [he, k.inFlight]; exact h.ports
  waits := by rw [he, k.byteRequest, k.offeredBeat, k.answersLeft, k.acceptsLeft]; exact h.waits
  setUp := by rw [he, k.setUp]; exact h.setUp
  notYet := by rw [he, k.setUp]; exact h.notYet
  ranges := by rw [he, k.setUp]; exact h.ranges
  position := by rw [he]; exact h.position
  table hb := by
    rw [betweenCodes, he, k.inFlight] at hb
    exact (h.table hb).congr (by rw [he]) (by rw [he]) (by rw [he]) k.prefixes

/-- A record of a fault leaves the ranges alone. -/
theorem Ranges.recordFault {e : Engine} (h : Ranges e) (c : Cause) (info : Word) : Ranges (recordFault c info e) :=
  ⟨h.m_le, h.width_ge, h.width_le, h.ceiling, h.running_ge, h.running_le, h.last, h.shift_le, h.acc_lt, h.stack_le,
    h.sub_block, h.col_le, h.left_le⟩

/-- In IDLE, DRAIN_BUSY, DONE and FAULT nothing is claimed of the position. -/
theorem LinePosition.of_ne {e : Engine} (hi : e.state ≠ .initBusy) (hr : e.state ≠ .ready) (hl : e.state ≠ .lineBusy) :
    LinePosition e := ⟨fun h => absurd h hi, fun h => absurd h hr, fun h => absurd h hl⟩

/-- In FAULT only the ranges of R79 are claimed. -/
theorem Safe.of_fault {t : State} (hf : t.eng.state = .fault) (hr : t.free.setUp = true → Ranges t.eng) : Safe t where
  ports _ h := absurd hf h
  waits h := by rw [hf] at h; cases h
  setUp h := by rw [hf] at h; cases h
  notYet h := by rw [hf] at h; cases h
  ranges := hr
  position := .of_ne (by simp [hf]) (by simp [hf]) (by simp [hf])
  table h := by simp [betweenCodes, hf] at h

/-- After a hardware reset nothing is claimed but that no port transaction is in flight. -/
theorem Safe.of_reset {t : State} (he : t.eng = Engine.reset) (hp : inFlight t.ports = false) (hu : t.free.setUp = false) :
    Safe t where
  ports _ _ := hp
  waits h := by rw [he] at h; cases h
  setUp h := by rw [he] at h; cases h
  notYet _ := hu
  ranges h := by rw [hu] at h; cases h
  position := by rw [he]; exact .of_ne (by decide) (by decide) (by decide)
  table h := by rw [betweenCodes, he] at h; cases h

/-- Settles O53: at reset no port transaction is in flight and the set-up has not begun. -/
theorem resetIsSafe : Obligations.ResetIsSafe := by
  unfold Obligations.ResetIsSafe
  exact Safe.of_reset rfl rfl rfl

/-- A safe state, reached without a fault that R195 rules out. -/
structure SafeEnd (t : State) : Prop where
  safe : Safe t
  reachable : t.eng.state = .fault → isUnreachableFault t.eng = false

theorem takeFault_of_ne {s : State} (h : s.eng.state ≠ .fault) (c : Cause) (info : Word) :
    takeFault c info s = (s.mapEng (recordFault c info)).mapHost (setPending .fault) := if_neg h

theorem safe_takeFault {s : State} (h : s.free.setUp = true → Ranges s.eng) (hn : s.eng.state ≠ .fault) (c : Cause)
    (info : Word) : Safe (takeFault c info s) := by
  rw [takeFault_of_ne hn]
  exact .of_fault rfl fun hu => (h hu).recordFault c info

/-- The causes of R195's checks. -/
def isUnreachableCause : Cause → Bool
  | .badChain | .traceRunaway | .widthOverflow => true
  | _ => false

theorem isUnreachableFault_recordFault (c : Cause) (info : Word) (e : Engine) :
    isUnreachableFault (recordFault c info e) = isUnreachableCause c := by cases c <;> rfl

theorem isUnreachableCause_of_kind_three {c : Cause} (h : causeKind c = 3) : isUnreachableCause c = false := by
  cases c <;> simp_all [causeKind, isUnreachableCause]

/-- How an access ends a command: in a safe state, if the ranges held before (R227, R250). -/
theorem EndedBy.safeEnd {s t : State} (h : EndedBy s t) (hr : s.free.setUp = true → Ranges s.eng) : SafeEnd t := by
  cases h with
  | refused c w kind eng mem source sink byteRequest offeredBeat resets setUp =>
    refine ⟨.of_fault (by rw [eng]; rfl) fun hu => ?_, fun _ => ?_⟩
    · rw [eng]
      exact (hr (setUp ▸ hu)).recordFault c w
    · rw [eng, isUnreachableFault_recordFault, isUnreachableCause_of_kind_three kind]
  | reset eng mem sink byteRequest offeredBeat resets setUp =>
    exact ⟨.of_reset eng (by simp [inFlight, byteRequest, offeredBeat]) setUp, by rw [eng]; intro h; cases h⟩

end Sys2Proof.Machine

namespace Sys2Proof.Machine
/-! # Assertions about a command in progress

`InCommand` holds at every instant of a command: it has the ranges of R79 and the position of the image. Its last part is an
assertion about the engine registers and about what PREFIX reads as; host accesses change neither. Each elementary action has
one rule, whatever accesses land before it. -/

section InCommand

variable {α β : Type}

/-- What can be asserted of the engine registers and of what PREFIX reads as. -/
abbrev Assertion := Engine → (Nat → Link) → Prop

/-- The engine is in STATE st, the set-up of the image is complete or not (su), the ports are idle or hold the named
transaction, and A holds of the engine registers and of PREFIX. -/
structure InCommand (st : EngineState) (su req off : Bool) (A : Assertion) (s : State) : Prop where
  state : s.eng.state = st
  setUp : s.free.setUp = su
  request : s.ports.byteRequest = req
  offer : s.ports.offeredBeat.isSome = off
  ranges : su = true → Ranges s.eng
  position : LinePosition s.eng
  holds : A s.eng (prefixAt s)

/-- Exactly these registers and this PREFIX. -/
def Exactly (e : Engine) (table : Nat → Link) : Assertion := fun e' table' => e' = e ∧ table' = table

/-- What the threads of the engine are shown to keep: however a command ends early, it ends in a safe state, unless the machine
stops because the stream was changed (U6); and at each instant after the set-up the ranges hold. -/
def safeEnds : Ends where
  early
    | .ended, t => SafeEnd t
    | .waiting, t => SafeEnd t
    | .undefined f, _ => f = .streamChangedInImage
  instant u := u.free.setUp = true → Ranges u.eng

variable {st st' : EngineState} {su req off : Bool} {A B : Assertion} {s t : State}

theorem InCommand.ranges_of_setUp (h : InCommand st su req off A s) (hu : s.free.setUp = true) : Ranges s.eng :=
  h.ranges (h.setUp ▸ hu)

theorem InCommand.busy (hb : isBusy st = true) (h : InCommand st su req off A s) : isBusy s.eng.state = true := h.state ▸ hb

theorem InCommand.exactly (h : InCommand st su req off A s) : InCommand st su req off (Exactly s.eng (prefixAt s)) s :=
  ⟨h.state, h.setUp, h.request, h.offer, h.ranges, h.position, rfl, rfl⟩

theorem InCommand.mono (h : InCommand st su req off A s) (k : A s.eng (prefixAt s) → B s.eng (prefixAt s)) :
    InCommand st su req off B s :=
  ⟨h.state, h.setUp, h.request, h.offer, h.ranges, h.position, k h.holds⟩

/-- A change that leaves the engine registers and PREFIX alone changes no more than the ports. -/
theorem InCommand.of_sameEng {req' off' : Bool} (h : InCommand st su req off A s) (he : t.eng = s.eng)
    (hp : ∀ j, prefixAt t j = prefixAt s j) (hu : t.free.setUp = s.free.setUp) (hr : t.ports.byteRequest = req')
    (ho : t.ports.offeredBeat.isSome = off') : InCommand st su req' off' A t :=
  ⟨he ▸ h.state, hu ▸ h.setUp, hr, ho, he ▸ h.ranges, he ▸ h.position, by rw [he, funext hp]; exact h.holds⟩

theorem landingKeeps_inCommand : LandingKeeps (InCommand st su req off A) := fun _ _ h k =>
  h.of_sameEng k.eng k.prefixAt k.setUp (k.byteRequest.trans h.request) (by rw [k.offeredBeat, h.offer])

theorem allowsAccess_inCommand : AllowsAccess (InCommand st su req off A) safeEnds where
  instant _ h := h.ranges_of_setUp
  ended _ _ h k := ⟨k.safeEnd h.ranges_of_setUp, (k.safeEnd h.ranges_of_setUp).safe.ranges⟩
  changed _ := rfl

/-- A command that has ended without a fault, or goes on, is safe; one that waits, waits for an agent that never completes. -/
theorem InCommand.safeEnd (h : InCommand st (isSetUp st) req off A s) (hf : st ≠ .fault)
    (hr : req = true → isBusy st = true ∧ s.env.source.answersLeft = some 0)
    (ho : off = true → isBusy st = true ∧ s.env.sink.acceptsLeft = some 0)
    (ht : betweenCodes s = true → TableInv s) : SafeEnd s where
  safe :=
    { ports := fun hb _ => by
        rw [h.state] at hb
        rw [inFlight, h.request, h.offer]
        cases req <;> cases off <;> simp_all
      waits := fun _ => ⟨fun hq => (hr (h.request ▸ hq)).2, fun hq => (ho (h.offer ▸ hq)).2⟩
      setUp := fun hu => h.setUp.trans (h.state ▸ hu)
      notYet := fun hi => by rw [h.setUp, ← h.state, hi]; rfl
      ranges := h.ranges_of_setUp
      position := h.position
      table := ht }
  reachable hf' := absurd (h.state.symm.trans hf') hf

/-- With a port transaction in flight nothing is claimed of the table (R194). -/
theorem not_betweenCodes_of_inFlight {s : State} (h : inFlight s.ports = true) : betweenCodes s = true → TableInv s := by
  simp [betweenCodes, h]

theorem ne_fault_of_busy (hb : isBusy st = true) : st ≠ .fault := by rintro rfl; cases hb

/-- The position of the image speaks of six registers only. -/
theorem LinePosition.frame {e e' : Engine} (h : LinePosition e) (hs : e'.state = e.state := by rfl)
    (hk : e'.skipped = e.skipped := by rfl) (hw : e'.curWidth = e.curWidth := by rfl)
    (hp : e'.pixelsLeft = e.pixelsLeft := by rfl) (hc : e'.col = e.col := by rfl)
    (hl : e'.lastLine = e.lastLine := by rfl) : LinePosition e' :=
  ⟨by rw [hs, hk]; exact h.init, by rw [hs, hk, hw, hp]; exact h.ready, by rw [hs, hk, hw, hp, hc, hl]; exact h.busy⟩

/-! ## The rules of the elementary actions -/

/-- The registers and the PREFIX a thread looks at are those it goes on with. -/
theorem keeps_look_inCommand {S : β → State → Prop} {f : State → Eng β}
    (hf : ∀ s, InCommand st su req off A s →
      Eng.Keeps (InCommand st su req off (Exactly s.eng (prefixAt s))) (f s) S safeEnds) :
    Eng.Keeps (InCommand st su req off A) (look >>= f) S safeEnds :=
  keeps_look fun s hs => keeps_pre (hf s hs) fun _ ht => ht ▸ hs.exactly

theorem keeps_exactly {Q : α → State → Prop} {x : Eng α} {e : Engine} {table : Nat → Link}
    (hx : Eng.Keeps (InCommand st su req off B) x Q safeEnds) (h : B e table) :
    Eng.Keeps (InCommand st su req off (Exactly e table)) x Q safeEnds :=
  keeps_pre hx fun _ k => ⟨k.state, k.setUp, k.request, k.offer, k.ranges, k.position, k.holds.1 ▸ k.holds.2 ▸ h⟩

theorem keeps_inCommand_mono {Q : α → State → Prop} {x : Eng α} (hx : Eng.Keeps (InCommand st su req off B) x Q safeEnds)
    (h : ∀ e table, A e table → B e table) : Eng.Keeps (InCommand st su req off A) x Q safeEnds :=
  keeps_pre hx fun _ k => ⟨k.state, k.setUp, k.request, k.offer, k.ranges, k.position, h _ _ k.holds⟩

/-- A fault of the engine's own (R226). -/
theorem keeps_raise_inCommand {Q : α → State → Prop} {c : Cause} {info : Word} (hb : isBusy st = true)
    (hc : isUnreachableCause c = false) : Eng.Keeps (InCommand st su req off A) (raise c info : Eng α) Q safeEnds :=
  keeps_raise (fun _ => InCommand.busy hb) landingKeeps_inCommand allowsAccess_inCommand fun s h => by
    have hn : s.eng.state ≠ .fault := h.state ▸ ne_fault_of_busy hb
    have hsafe := safe_takeFault h.ranges_of_setUp hn c info
    refine ⟨⟨hsafe, fun _ => ?_⟩, hsafe.ranges⟩
    rw [takeFault_of_ne hn]
    exact (isUnreachableFault_recordFault c info s.eng).trans hc

/-- One action of the engine. -/
theorem keeps_act_inCommand {su' : Bool} {f : State → State} (hb : isBusy st = true)
    (h : ∀ s, InCommand st su req off A s → InCommand st' su' req off B (f s)) :
    Eng.Keeps (InCommand st su req off A) (act f) (fun _ => InCommand st' su' req off B) safeEnds :=
  keeps_act (fun _ => InCommand.busy hb) landingKeeps_inCommand allowsAccess_inCommand (fun _ => InCommand.ranges_of_setUp) h

/-- An assignment to engine registers, STATE among them. -/
theorem keeps_wr_state {f : Engine → Engine} (hb : isBusy st = true)
    (h : ∀ e table, e.state = st → (su = true → Ranges e) → LinePosition e → A e table →
      (f e).state = st' ∧ (su = true → Ranges (f e)) ∧ LinePosition (f e) ∧ B (f e) table) :
    Eng.Keeps (InCommand st su req off A) (wr f) (fun _ => InCommand st' su req off B) safeEnds :=
  keeps_act_inCommand hb fun s k =>
    have ⟨hs, hr, hp, hB⟩ := h s.eng (prefixAt s) k.state k.ranges k.position k.holds
    ⟨hs, k.setUp, k.request, k.offer, hr, hp, hB⟩

/-- An assignment to engine registers but STATE. -/
theorem keeps_wr {f : Engine → Engine} (hb : isBusy st = true)
    (h : ∀ e table, e.state = st → (su = true → Ranges e) → LinePosition e → A e table →
      (su = true → Ranges (f e)) ∧ LinePosition (f e) ∧ B (f e) table)
    (hs : ∀ e, (f e).state = e.state := by exact fun _ => rfl) :
    Eng.Keeps (InCommand st su req off A) (wr f) (fun _ => InCommand st su req off B) safeEnds :=
  keeps_wr_state hb fun e table k hr hp hA => ⟨(hs e).trans k, h e table k hr hp hA⟩

/-- An assignment, the registers being known. -/
theorem keeps_wr_exactly {f : Engine → Engine} {e : Engine} {table : Nat → Link} (hb : isBusy st = true)
    (hr : su = true → Ranges (f e)) (hp : LinePosition (f e)) (hB : B (f e) table)
    (hs : ∀ e, (f e).state = e.state := by exact fun _ => rfl) :
    Eng.Keeps (InCommand st su req off (Exactly e table)) (wr f) (fun _ => InCommand st su req off B) safeEnds :=
  keeps_wr hb (fun _ _ _ _ _ k => k.1 ▸ k.2 ▸ ⟨hr, hp, hB⟩) hs

/-- A write to a RAM. -/
theorem keeps_ram {ram : RamName} {depth index : Nat} {f : Memory → Memory} (hb : isBusy st = true) (hi : index < depth)
    (h : ∀ s, InCommand st su req off A s → B s.eng (prefixAt (s.mapMem f))) :
    Eng.Keeps (InCommand st su req off A) (wrRam ram depth index f) (fun _ => InCommand st su req off B) safeEnds :=
  keeps_wrRam (fun _ => InCommand.busy hb) landingKeeps_inCommand allowsAccess_inCommand (fun _ => InCommand.ranges_of_setUp) hi
    fun s k => ⟨k.state, k.setUp, k.request, k.offer, k.ranges, k.position, h s k⟩

/-- A write to a byte RAM. -/
theorem keeps_byteRam {ram : RamName} {depth index : Nat} {f : Memory → Memory} (hb : isBusy st = true) (hi : index < depth)
    (h : ∀ m, (f m).prefixRam = m.prefixRam ∧ (f m).prefixCleared = m.prefixCleared) :
    Eng.Keeps (InCommand st su req off A) (wrRam ram depth index f) (fun _ => InCommand st su req off A) safeEnds :=
  keeps_ram hb hi fun s k => by
    rw [funext fun j => prefixAt_mapMem (h s.mem).1 (h s.mem).2 j]
    exact k.holds

theorem keeps_inRam {ram : RamName} {depth index : Nat} {P : State → Prop} (hi : index < depth) :
    Eng.Keeps P (inRam ram depth index) (fun _ => P) safeEnds :=
  keeps_of fun s hs => by rw [if_pos hi]; exact hs

/-- A transaction on the byte-source port. -/
theorem keeps_readSource_inCommand (hb : isBusy st = true) :
    Eng.Keeps (InCommand st (isSetUp st) false false A) readSource
      (fun _ => InCommand st (isSetUp st) false false A) safeEnds := by
  refine keeps_readSource (R := InCommand st (isSetUp st) true false A) (fun _ => InCommand.busy hb) landingKeeps_inCommand
    allowsAccess_inCommand (fun _ => InCommand.busy hb) landingKeeps_inCommand allowsAccess_inCommand
    (fun _ _ => InCommand.ranges_of_setUp) ?request ?waits ?answered
  case request => exact fun s h => h.of_sameEng rfl (fun _ => rfl) rfl rfl h.offer
  case waits =>
    intro s h hn
    exact h.safeEnd (ne_fault_of_busy hb) (fun _ => ⟨hb, answersLeft_of_waiting hn⟩) (fun ho => by cases ho)
      (not_betweenCodes_of_inFlight (by simp [inFlight, h.request]))
  case answered =>
    intro s byte t h ha
    obtain ⟨he, hm, hf, hports⟩ := sourceAnswers_frame ha
    exact h.of_sameEng he (fun j => prefixAt_congr hm (by rw [hf]) j) (by rw [hf]) (by rw [hports])
      (by rw [hports]; exact h.offer)

/-- A transaction on the pixel port. -/
theorem keeps_offerWith_inCommand {offer : State → State} (hb : isBusy st = true)
    (h : ∀ s, (offer s).eng = s.eng ∧ (offer s).mem = s.mem ∧ (offer s).free.resets = s.free.resets ∧
      (offer s).free.setUp = s.free.setUp ∧ (offer s).ports.byteRequest = s.ports.byteRequest ∧
      (offer s).ports.offeredBeat.isSome = true) :
    Eng.Keeps (InCommand st (isSetUp st) false false A) (offerWith offer)
      (fun _ => InCommand st (isSetUp st) false false A) safeEnds := by
  refine keeps_offerWith (R := InCommand st (isSetUp st) false true A) (fun _ => InCommand.busy hb) landingKeeps_inCommand
    allowsAccess_inCommand (fun _ => InCommand.busy hb) landingKeeps_inCommand allowsAccess_inCommand
    (fun _ => InCommand.ranges_of_setUp) ?offered ?waits ?accepted
  case offered =>
    intro s k
    obtain ⟨he, hm, hr, hu, hq, ho⟩ := h s
    exact k.of_sameEng he (fun j => prefixAt_congr hm hr j) hu (hq.trans k.request) ho
  case waits =>
    intro s k hn
    exact k.safeEnd (ne_fault_of_busy hb) (fun hq => by cases hq) (fun _ => ⟨hb, acceptsLeft_of_waiting k.offer hn⟩)
      (not_betweenCodes_of_inFlight (by simp [inFlight, k.offer]))
  case accepted =>
    intro s t k ha
    obtain ⟨he, hm, hf, -, hports⟩ := sinkAccepts_frame ha
    exact k.of_sameEng he (fun j => prefixAt_congr hm (by rw [hf]) j) (by rw [hf]) (by rw [hports]; exact k.request)
      (by rw [hports]; rfl)

end InCommand
end Sys2Proof.Machine

namespace Sys2Proof.Machine
/-! # The code reader keeps a LINE safe (41_code_reader.md)

`ReadCode` writes its own registers and counts the code in RUNNING_CODE. The ranges of R79 that bound the sub-block and the bit
buffer are those its own checks keep up. -/

section ReaderSafety

variable {st : EngineState} {A : Assertion}

/-- Between two actions of a command that has its set-up behind it, no port transaction being in flight. -/
abbrev InLine (A : Assertion) : State → Prop := InCommand .lineBusy true false false A

/-- From A the thread goes to B, inside a LINE between two actions, and it ends safely where it ends early. -/
abbrev Eng.KeepsLine {α : Type} (x : Eng α) (A B : Assertion) : Prop := Eng.Keeps (InLine A) x (fun _ => InLine B) safeEnds

/-! ## Sub-blocks -/

theorem keeps_storeByte (hb : isBusy st = true) {su : Bool} {k : Nat} (hk : k < 255) (b : Byte) :
    Eng.Keeps (InCommand st su false false A) (wrRam .sbbuf Config.subBlockMax k (setSbbuf k b))
      (fun _ => InCommand st su false false A) safeEnds :=
  keeps_byteRam hb hk fun _ => ⟨rfl, rfl⟩

theorem keeps_fetchBytes (hb : isBusy st = true) (policy : ShortReadPolicy) (len : Nat) {cause : Cause}
    (hc : isUnreachableCause cause = false) : ∀ (n k : Nat) (exhausted : Bool), k + n ≤ 255 →
    Eng.Keeps (InCommand st (isSetUp st) false false A) (fetchBytes policy len cause n k exhausted)
      (fun _ => InCommand st (isSetUp st) false false A) safeEnds := by
  intro n
  induction n with
  | zero => exact fun _ _ _ => keeps_pure fun _ => id
  | succ n ih =>
    intro k exhausted hk
    have store := fun b exhausted => keeps_bind (keeps_storeByte (A := A) (su := isSetUp st) hb (show k < 255 by omega) b)
      fun _ => ih (k + 1) exhausted (by omega)
    cases exhausted with
    | true => exact store 0 true
    | false =>
      refine keeps_bind (keeps_readSource_inCommand hb) fun byte => ?_
      cases byte with
      | some b => exact store b false
      | none =>
        cases policy with
        | fault => exact keeps_raise_inCommand hb hc
        | zeroFill => exact store 0 true

theorem keeps_fetchSubBlock (hb : isBusy st = true) (len : Byte) {cause : Cause} (hc : isUnreachableCause cause = false) :
    Eng.Keeps (InCommand st (isSetUp st) false false A) (fetchSubBlock len cause)
      (fun _ => InCommand st (isSetUp st) false false A) safeEnds :=
  keeps_fetchBytes hb _ _ hc _ _ _ (by have := len.isLt; omega)

/-- The assertion says nothing of the registers of the sub-block. -/
def BlindToSubBlock (A : Assertion) : Prop :=
  ∀ e table remaining position, A e table → A { e with sbRem := remaining, sbPos := position } table

/-- The assertion says nothing of the bit buffer. -/
def BlindToShift (A : Assertion) : Prop :=
  ∀ e table acc bits, A e table → A { e with shiftAcc := acc, shiftState := bits } table

theorem keeps_newSubBlock (hA : BlindToSubBlock A) :
    Eng.KeepsLine newSubBlock A (fun e table => A e table ∧ e.sbRem ≠ 0) := by
  refine keeps_bind (keeps_readSource_inCommand (st := .lineBusy) rfl) fun byte => ?_
  cases byte with
  | none => exact keeps_raise_inCommand rfl rfl
  | some len =>
    by_cases h0 : len = 0
    · simp only [if_pos h0]
      exact keeps_raise_inCommand rfl rfl
    · simp only [if_neg h0]
      refine keeps_bind (keeps_fetchSubBlock (st := .lineBusy) rfl len rfl) fun _ => keeps_wr rfl ?_
      intro e table _ hr hp ha
      have hlen : (0#8).toNat + len.toNat ≤ 255 := by bv_omega
      exact ⟨fun hu => { hr hu with sub_block := hlen }, hp.frame, hA e table _ _ ha, h0⟩

theorem subBlock_taken {position remaining : BitVec 8} (h0 : remaining ≠ 0)
    (h : position.toNat + remaining.toNat ≤ 255) : (position + 1).toNat + (remaining - 1).toNat ≤ 255 := by
  bv_omega

theorem keeps_nextDataByte (hA : BlindToSubBlock A) : Eng.KeepsLine nextDataByte A A := by
  have take : Eng.KeepsLine (look >>= fun s => inRam .sbbuf Config.subBlockMax s.eng.sbPos.toNat >>= fun _ =>
      (wr fun e => { e with sbPos := e.sbPos + 1, sbRem := e.sbRem - 1 }) >>= fun _ =>
        pure (sbbufAt s s.eng.sbPos.toNat)) (fun e table => A e table ∧ e.sbRem ≠ 0) A := by
    refine keeps_look_inCommand fun s hs => ?_
    obtain ⟨ha, h0⟩ := hs.holds
    have hsum := (hs.ranges rfl).sub_block
    have hr : Ranges { s.eng with sbPos := s.eng.sbPos + 1, sbRem := s.eng.sbRem - 1 } :=
      { hs.ranges rfl with sub_block := subBlock_taken h0 hsum }
    exact keeps_bind (keeps_inRam (show _ < 255 by bv_omega)) fun _ =>
      keeps_bind (keeps_wr_exactly rfl (fun _ => hr) hs.position.frame (hA _ _ _ _ ha)) fun _ => keeps_pure fun _ => id
  refine keeps_look_inCommand fun s hs => ?_
  by_cases h0 : s.eng.sbRem = 0
  · simp only [if_pos h0]
    exact keeps_bind (keeps_exactly (keeps_newSubBlock hA) hs.holds) fun _ => take
  · simp only [if_neg h0]
    exact keeps_exactly take ⟨hs.holds, h0⟩

/-! ## The bit buffer -/

theorem byte_fits {width : BitVec 4} {bits : BitVec 5} (hlt : bits.toNat < width.toNat) (hw : width.toNat ≤ 12) :
    (bits + 8).toNat = bits.toNat + 8 := by
  bv_omega

/-- A byte is still needed, and at most n more after it. -/
def ShortOfBits (n : Nat) (A : Assertion) : Assertion := fun e table =>
  A e table ∧ e.shiftState.toNat < e.codeWidth.toNat ∧ e.codeWidth.toNat ≤ e.shiftState.toNat + 8 * (n + 1)

/-- `Fill()` buffers CODE_WIDTH bits, if it may take enough bytes (R164). -/
theorem keeps_fill (hs : BlindToSubBlock A) (hA : BlindToShift A) : ∀ n : Nat,
    Eng.KeepsLine (fill n) (fun e table => A e table ∧ e.codeWidth.toNat ≤ e.shiftState.toNat + 8 * n)
      (fun e table => A e table ∧ e.codeWidth.toNat ≤ e.shiftState.toNat)
  | 0 => keeps_pure fun _ h => h
  | n + 1 => by
    refine keeps_look_inCommand fun s h => ?_
    obtain ⟨ha, hn⟩ := h.holds
    by_cases hlt : s.eng.shiftState.toNat < s.eng.codeWidth.toNat
    · simp only [if_pos hlt]
      have hshort : BlindToSubBlock (ShortOfBits n A) := fun e table r p k => ⟨hs e table r p k.1, k.2⟩
      refine keeps_exactly (keeps_bind (keeps_nextDataByte hshort) fun b => keeps_bind (keeps_wr rfl ?_) fun _ =>
        keeps_fill hs hA n) ⟨ha, hlt, hn⟩
      intro e table _ hr hp ⟨ha, hlt, hn⟩
      have hle := (hr rfl).width_le
      have h8 := byte_fits hlt hle
      refine ⟨fun hu => { hr hu with shift_le := ?_, acc_lt := ?_ }, hp.frame, hA e table _ _ ha, ?_⟩
      · show (e.shiftState + 8).toNat ≤ 19
        omega
      · show (e.shiftAcc ||| (b.setWidth 20 <<< e.shiftState.toNat)).toNat < 2 ^ (e.shiftState + 8).toNat
        rw [h8]
        exact accumulate_lt _ b (hr hu).acc_lt
      · show e.codeWidth.toNat ≤ (e.shiftState + 8).toNat + 8 * n
        omega
    · simp only [if_neg hlt]
      exact keeps_exactly (keeps_pure fun _ => id) ⟨ha, by omega⟩

/-! ## Counting the code -/

/-- The assertion says nothing of the registers that count codes. -/
def BlindToCount (A : Assertion) : Prop :=
  ∀ e table width ceiling running, A e table →
    A { e with codeWidth := width, maxCode1 := ceiling, runningCode := running } table

/-- RUNNING_CODE is `running` (R27). -/
def CountIs (running : Nat) (A : Assertion) : Assertion :=
  fun e table => A e table ∧ e.runningCode.toNat = running

/-- A higher RUNNING_CODE keeps the ranges, up to 4097. -/
theorem Ranges.count {e : Engine} (h : Ranges e) {running : Link} (hge : e.runningCode.toNat ≤ running.toNat)
    (hle : running.toNat ≤ 4097) : Ranges { e with runningCode := running } :=
  { h with
    running_ge := h.running_ge.trans hge
    running_le := hle
    last := h.last.imp_right fun k => k.imp_right fun k => ⟨k.1, k.2.trans hge⟩ }

/-- MAX_CODE1 doubles as CODE_WIDTH grows (R26, R167). -/
theorem Ranges.grow {e : Engine} (h : Ranges e) (hw : e.codeWidth.toNat < 12) :
    Ranges { e with maxCode1 := e.maxCode1 <<< 1, codeWidth := e.codeWidth + 1 } := by
  have hw1 : (e.codeWidth + 1).toNat = e.codeWidth.toNat + 1 := by bv_omega
  refine { h with width_ge := ?_, width_le := ?_, ceiling := ?_ }
  · show e.minCodeSize.toNat + 1 ≤ (e.codeWidth + 1).toNat
    have := h.width_ge
    omega
  · show (e.codeWidth + 1).toNat ≤ 12
    omega
  · show (e.maxCode1 <<< 1).toNat = 2 ^ (e.codeWidth + 1).toNat
    have hpow : 2 ^ (e.codeWidth.toNat + 1) ≤ 2 ^ 12 := Nat.pow_le_pow_right (by decide) hw
    rw [hw1, BitVec.toNat_shiftLeft, h.ceiling, Nat.shiftLeft_eq, ← Nat.pow_succ]
    exact Nat.mod_eq_of_lt (by omega)

theorem keeps_bumpRunningCode (hA : BlindToCount A) (running : Nat) :
    Eng.KeepsLine bumpRunningCode (CountIs running A) (CountIs (min (running + 1) 4097) A) := by
  refine keeps_look_inCommand fun s h => ?_
  obtain ⟨ha, hrun⟩ := h.holds
  by_cases hlt : s.eng.runningCode.toNat < Config.runningCodeCap
  · simp only [if_pos hlt]
    have hlt' : running < 4097 := hrun ▸ hlt
    have hcount : (s.eng.runningCode + 1).toNat = running + 1 := by bv_omega
    have hmin : min (running + 1) 4097 = running + 1 := by omega
    refine keeps_bind (Q := fun _ => InLine (CountIs (min (running + 1) 4097) A)) (keeps_wr_exactly rfl
      (fun hu => (h.ranges hu).count (by omega) (by omega)) h.position.frame ⟨hA _ _ _ _ _ ha, hcount.trans hmin.symm⟩)
      fun _ => keeps_look_inCommand fun t k => ?_
    by_cases hg : t.eng.maxCode1 < t.eng.runningCode ∧ t.eng.codeWidth.toNat < Config.maxCodeBits
    · simp only [if_pos hg]
      exact keeps_wr_exactly rfl (fun hu => (k.ranges hu).grow hg.2) k.position.frame ⟨hA _ _ _ _ _ k.holds.1, k.holds.2⟩
    · simp only [if_neg hg]
      exact keeps_exactly (keeps_pure fun _ => id) k.holds
  · simp only [if_neg hlt]
    have hle : running ≤ 4097 := hrun ▸ (h.ranges rfl).running_le
    have hge : 4097 ≤ running := hrun ▸ Nat.le_of_not_lt hlt
    exact keeps_exactly (keeps_pure fun _ => id) ⟨ha, by omega⟩

/-! ## ReadCode -/

/-- The code leaves the bit buffer (R165). -/
theorem Ranges.consume {e : Engine} (h : Ranges e) (hw : e.codeWidth.toNat ≤ e.shiftState.toNat) :
    Ranges { e with shiftAcc := e.shiftAcc >>> e.codeWidth.toNat } ∧ Ranges (consumed e.codeWidth e) := by
  have hstate := consumed_shiftState hw
  have hbits := consumed_lt hw h.acc_lt
  refine ⟨{ h with acc_lt := ?_ }, { h with shift_le := ?_, acc_lt := hbits }⟩
  · refine Nat.lt_of_lt_of_le hbits (Nat.pow_le_pow_right (by decide) ?_)
    show _ ≤ e.shiftState.toNat
    omega
  · have := h.shift_le
    omega

theorem keeps_readCode (hs : BlindToSubBlock A) (hb : BlindToShift A) (hc : BlindToCount A) (running : Nat) :
    Eng.KeepsLine readCode (CountIs running A) (CountIs (min (running + 1) 4097) A) := by
  refine keeps_look_inCommand fun s h => ?_
  have hw : s.eng.codeWidth.toNat ≤ 12 := (h.ranges rfl).width_le
  simp only [if_neg (show ¬Config.maxCodeBits < s.eng.codeWidth.toNat from Nat.not_lt.mpr hw)]
  have hfill := keeps_fill (A := CountIs running A) (fun e table r p k => ⟨hs e table r p k.1, k.2⟩)
    (fun e table a b k => ⟨hb e table a b k.1, k.2⟩) maxBytesPerCode
  have htwo : s.eng.codeWidth.toNat ≤ s.eng.shiftState.toNat + 8 * maxBytesPerCode := by
    show _ ≤ _ + 8 * 2
    omega
  refine keeps_bind (keeps_exactly hfill ⟨h.holds, htwo⟩) fun _ => keeps_look_inCommand fun t k => ?_
  obtain ⟨⟨ha, hrun⟩, hbits⟩ := k.holds
  obtain ⟨hshifted, hconsumed⟩ := (k.ranges rfl).consume hbits
  exact keeps_bind (keeps_wr_exactly rfl (fun _ => hshifted) k.position.frame ⟨rfl, rfl⟩) fun _ =>
    keeps_bind (keeps_wr_exactly rfl (fun _ => hconsumed) k.position.frame ⟨hb t.eng _ _ _ ha, hrun⟩) fun _ =>
      keeps_bind (keeps_bumpRunningCode hc running) fun _ => keeps_pure fun _ => id

end ReaderSafety
end Sys2Proof.Machine

namespace Sys2Proof.Machine
/-! # The table between two codes (R194)

What one code does to the table invariant, without a machine: the code is counted, the previous one is appended as the entry
RUNNING_CODE - 2 if that is undefined, and the code becomes the last one. -/

section Table

variable {clear running next : Nat} {last : Link} {table : Nat → Link}

theorem noCode_toNat : Config.noCode.toNat = 4098 := rfl

/-- A code as a value of LAST_CODE and of PREFIX. -/
theorem code_toNat (c : Code) : (c.setWidth 13 : Link).toNat = c.toNat := BitVec.toNat_setWidth_of_le (by decide)

theorem ne_noCode_of_lt {p : Link} (h : p.toNat < 4096) : p ≠ Config.noCode := by
  rintro rfl
  rw [noCode_toNat] at h
  omega

/-- PREFIX after the append of the code that is counted as `running` (R190). -/
def tableAfter (running : Nat) (last : Link) (table : Nat → Link) : Nat → Link := fun j =>
  if j + 2 = running ∧ last ≠ Config.noCode ∧ table j = Config.noCode then last else table j

/-- A code that can become the last one: a pixel, a defined entry, or the entry that its own append defines (R108). -/
def CanEnter (clear running : Nat) (last : Link) (table : Nat → Link) (c : Code) : Prop :=
  c.toNat < clear ∨ table c.toNat ≠ Config.noCode ∨ c.toNat + 2 = running ∧ last ≠ Config.noCode

/-- A table with a defined entry has a last code. -/
theorem TableOf.started_of_defined (h : TableOf clear last running table) {e : Nat} (he : e < 4096)
    (hd : table e ≠ Config.noCode) : last ≠ Config.noCode := fun hl => hd ((h.fresh hl).2 e he)

theorem TableOf.bounds (h : TableOf clear last running table) {e : Nat} (he : e < 4096) (hd : table e ≠ Config.noCode) :
    clear + 2 ≤ e ∧ e + 2 ≤ running := (h.defined (h.started_of_defined he hd) e he).mp hd

/-- Until there is a last code nothing is appended. -/
theorem TableOf.enter_first (h : TableOf clear last running table) (hnext : next = min (running + 1) 4097)
    (hclear : clear ≤ 256) (hl : last = Config.noCode) {c : Code} (hc : CanEnter clear next last table c) :
    TableOf clear (c.setWidth 13) next (tableAfter next last table) := by
  obtain ⟨hrun, hnone⟩ := h.fresh hl
  have htable : tableAfter next last table = table := funext fun j => if_neg fun k => k.2.1 hl
  have hlt := c.isLt
  have hw := code_toNat c
  have hpixel : c.toNat < clear := by
    rcases hc with hc | hc | hc
    · exact hc
    · exact absurd (hnone _ hlt) hc
    · exact absurd hl hc.2
  rw [htable]
  exact
    { started := fun _ => by omega
      fresh := fun k => absurd k (ne_noCode_of_lt (hw ▸ hlt))
      defined := fun _ e he => ⟨fun k => absurd (hnone e he) k, fun k => by omega⟩
      last := fun _ => .inl (hw ▸ hpixel)
      below := fun e he k => absurd (hnone e he) k }

/-- With a last code, the entry of the code before is there once the code is counted, whether it was appended now or before. -/
theorem TableOf.defined_after (h : TableOf clear last running table) (hnext : next = min (running + 1) 4097)
    (hclear : clear ≤ 256) (hl : last ≠ Config.noCode) {e : Nat} (he : e < 4096) :
    tableAfter next last table e ≠ Config.noCode ↔ clear + 2 ≤ e ∧ e + 2 ≤ next := by
  have hd := h.defined hl e he
  have hs := h.started hl
  rw [tableAfter]
  split
  next k => exact ⟨fun _ => by omega, fun _ => hl⟩
  next k =>
    rw [hd]
    refine ⟨fun k => by omega, fun hk => ⟨hk.1, ?_⟩⟩
    by_contra hlt
    exact k ⟨by omega, hl, by_contra fun hne => hlt (hd.mp hne).2⟩

theorem TableOf.enter_next (h : TableOf clear last running table) (hnext : next = min (running + 1) 4097)
    (hclear : clear ≤ 256) (hl : last ≠ Config.noCode) {c : Code} (hc : CanEnter clear next last table c) :
    TableOf clear (c.setWidth 13) next (tableAfter next last table) := by
  have hlt := c.isLt
  have hw := code_toNat c
  have hs := h.started hl
  have keeps : ∀ {j : Nat}, table j ≠ Config.noCode → tableAfter next last table j = table j :=
    fun hj => if_neg fun k => hj k.2.2
  have stays : ∀ {p : Link}, p.toNat < clear ∨ table p.toNat ≠ Config.noCode →
      p.toNat < clear ∨ tableAfter next last table p.toNat ≠ Config.noCode :=
    fun hp => hp.imp_right fun k => (keeps k).symm ▸ k
  exact
    { started := fun _ => by omega
      fresh := fun k => absurd k (ne_noCode_of_lt (hw ▸ hlt))
      defined := fun _ e he => h.defined_after hnext hclear hl he
      last := fun _ => by
        rw [hw]
        rcases hc with hc | hc | hc
        · exact .inl hc
        · exact .inr ⟨hlt, (keeps hc).symm ▸ hc⟩
        · exact .inr ⟨hlt, (h.defined_after hnext hclear hl hlt).mpr (by omega)⟩
      below := fun e he k => by
        by_cases hd : table e = Config.noCode
        · have hnew : tableAfter next last table e = last := by
            by_contra hne
            rw [tableAfter] at k hne
            split at k
            next hc => exact hne (if_pos hc)
            next => exact k hd
          rw [hnew]
          have hb := (h.defined_after hnext hclear hl he).mp k
          have hne : ¬(clear + 2 ≤ e ∧ e + 2 ≤ running) := fun k => (h.defined hl e he).mpr k hd
          rcases h.last hl with hl' | ⟨hl', hdef⟩
          · exact ⟨by omega, .inl hl'⟩
          · have := h.bounds hl' hdef
            exact ⟨by omega, stays (.inr hdef)⟩
        · rw [keeps hd]
          exact ⟨(h.below e he hd).1, stays (h.below e he hd).2⟩ }

/-- The table invariant goes from one code to the next (R194). -/
theorem TableOf.enter (h : TableOf clear last running table) (hnext : next = min (running + 1) 4097)
    (hclear : clear ≤ 256) {c : Code} (hc : CanEnter clear next last table c) :
    TableOf clear (c.setWidth 13) next (tableAfter next last table) := by
  by_cases hl : last = Config.noCode
  · exact h.enter_first hnext hclear hl hc
  · exact h.enter_next hnext hclear hl hc

/-- The table after ClearPrefix (R182, R142). -/
theorem TableOf.cleared (clear : Nat) : TableOf clear Config.noCode (clear + 2) fun _ => Config.noCode where
  started h := absurd rfl h
  fresh _ := ⟨rfl, fun _ _ => rfl⟩
  defined h := absurd rfl h
  last h := absurd rfl h
  below _ _ h := absurd rfl h

/-! ## Chains (R188, R195) -/

/-- A link at which a chain walk stops or goes on, and raises no fault: a pixel or a defined entry. -/
def Walkable (clear : Nat) (table : Nat → Link) (p : Link) : Prop :=
  p.toNat < clear ∨ clear < p.toNat ∧ p.toNat < 4096 ∧ table p.toNat ≠ Config.noCode

theorem TableOf.walkable (h : TableOf clear last running table) {p : Link} (hlt : p.toNat < 4096)
    (hp : p.toNat < clear ∨ table p.toNat ≠ Config.noCode) : Walkable clear table p :=
  hp.imp_right fun hd => ⟨by have := (h.bounds hlt hd).1; omega, hlt, hd⟩

/-- A chain falls from link to link. -/
theorem TableOf.walkable_next (h : TableOf clear last running table) {p : Link} (hlt : p.toNat < 4096)
    (hd : table p.toNat ≠ Config.noCode) : Walkable clear table (table p.toNat) ∧ (table p.toNat).toNat < p.toNat := by
  obtain ⟨hfall, hnext⟩ := h.below _ hlt hd
  exact ⟨h.walkable (hfall.trans hlt) hnext, hfall⟩

theorem TableOf.last_walkable (h : TableOf clear last running table) (hl : last ≠ Config.noCode) :
    Walkable clear table last := by
  rcases h.last hl with hp | ⟨hlt, hd⟩
  · exact .inl hp
  · exact h.walkable hlt (.inr hd)

end Table
end Sys2Proof.Machine

namespace Sys2Proof.Machine
/-! # The code classes keep a LINE safe (42_code_classes.md) -/

section CodeSafety

variable {A : Assertion}

theorem clearCode_le {e : Engine} (h : Ranges e) : clearCode e ≤ 256 :=
  Nat.pow_le_pow_right (n := 2) (by decide) h.m_le

/-! ## What is asserted inside a code -/

/-- The assertion says nothing of the column. -/
def BlindToColumn (A : Assertion) : Prop := ∀ e table column, A e table → A { e with col := column } table

/-- The assertion says nothing of the depth of the trace-back stack. -/
def BlindToStack (A : Assertion) : Prop :=
  ∀ e table pointer, A e table → A { e with stackPtr := pointer } table

/-- Between two codes of an image (R194; log 16). -/
def BetweenCodes (e : Engine) (table : Nat → Link) : Prop :=
  e.skipped = false → TableOf (clearCode e) e.lastCode e.runningCode.toNat table

/-- A code has been read and no END taken; the table holds what stood in it before, for a RUNNING_CODE of `running`. -/
def CodeRead (running : Nat) (e : Engine) (table : Nat → Link) : Prop :=
  e.skipped = false ∧ TableOf (clearCode e) e.lastCode running table

/-- A code c that has been read and counted can become the last one. -/
def InCode (running : Nat) (c : Code) (e : Engine) (table : Nat → Link) : Prop :=
  CountIs (min (running + 1) 4097) (CodeRead running) e table ∧
    CanEnter (clearCode e) e.runningCode.toNat e.lastCode table c

/-- The code c has been entered; LAST_CODE is still the one before. -/
def CodeEntered (c : Code) (e : Engine) (table : Nat → Link) : Prop :=
  e.skipped = false ∧ TableOf (clearCode e) (c.setWidth 13) e.runningCode.toNat table

theorem InCode.table {running : Nat} {c : Code} {e : Engine} {table : Nat → Link} (h : InCode running c e table) :
    TableOf (clearCode e) e.lastCode running table := h.1.1.2

/-! ## Pixels and the trace-back stack -/

theorem keeps_emitPixel (pix : Byte) : Eng.KeepsLine (emitPixel pix) A A :=
  keeps_look_inCommand fun _ h =>
    keeps_exactly (keeps_offerWith_inCommand (st := .lineBusy) rfl fun _ => ⟨rfl, rfl, rfl, rfl, rfl, rfl⟩) h.holds

theorem Ranges.column {e : Engine} (h : Ranges e) {column : BitVec 16} (hc : column ≤ e.curWidth) :
    Ranges { e with col := column } := { h with col_le := hc }

theorem Ranges.pointer {e : Engine} (h : Ranges e) {pointer : BitVec 13} (hp : pointer.toNat ≤ 4096) :
    Ranges { e with stackPtr := pointer } := { h with stack_le := hp }

/-- Before the skip beat the column is free within the row (R180). -/
theorem LinePosition.column {e : Engine} (h : LinePosition e) (hk : e.skipped = false) (column : BitVec 16) :
    LinePosition { e with col := column } :=
  ⟨h.init, h.ready, fun hs =>
    have ⟨hw, hd, hl, _⟩ := h.busy hs
    ⟨hw, hd, hl, fun hk' => absurd (hk.symm.trans hk') (by decide)⟩⟩

/-- A LINE with room in its row has not taken the skip beat. -/
theorem LinePosition.not_skipped {e : Engine} (h : LinePosition e) (hs : e.state = .lineBusy) (hroom : e.col < e.curWidth) :
    e.skipped = false := by
  by_contra hk
  obtain ⟨hfull, -⟩ := (h.busy hs).2.2.2 (by simpa using hk)
  exact absurd (hfull ▸ hroom) (by bv_omega)

/-- There is room in the row, and no END was taken. -/
def HasRoom (A : Assertion) : Assertion := fun e table => A e table ∧ e.col < e.curWidth ∧ e.skipped = false

theorem keeps_nextCol (hA : BlindToColumn A) :
    Eng.KeepsLine nextCol (HasRoom A) A :=
  keeps_wr rfl fun e table _ hr hp ⟨ha, hc, hk⟩ =>
    ⟨fun hu => (hr hu).column (by bv_omega), hp.column hk _, hA e table _ ha⟩

theorem keeps_push (hA : BlindToStack A) (code : Code) (v : Byte) {n : Nat} (hn : n < 4096) :
    Eng.KeepsLine (push code v) (fun e table => A e table ∧ e.stackPtr.toNat = n)
      (fun e table => A e table ∧ e.stackPtr.toNat = n + 1) := by
  refine keeps_look_inCommand fun s h => ?_
  obtain ⟨ha, hptr⟩ := h.holds
  have hnext : (s.eng.stackPtr + 1).toNat = n + 1 := by bv_omega
  simp only [if_neg (show ¬s.eng.stackPtr.toNat = Config.stackDepth by show ¬_ = 4096; omega)]
  exact keeps_bind (keeps_byteRam rfl (show s.eng.stackPtr.toNat < 4096 by omega) fun _ => ⟨rfl, rfl⟩) fun _ =>
    keeps_wr_exactly rfl (fun hu => (h.ranges hu).pointer (by omega)) h.position.frame
      ⟨hA s.eng _ _ ha, hnext⟩

theorem keeps_pop (hA : BlindToStack A) :
    Eng.KeepsLine pop (fun e table => A e table ∧ e.stackPtr ≠ 0) A := by
  refine keeps_bind (Q := fun _ => InLine fun e table => A e table ∧ e.stackPtr.toNat < 4096) (keeps_wr rfl ?_) fun _ =>
    keeps_look_inCommand fun s h => keeps_bind (keeps_inRam h.holds.2) fun _ => keeps_exactly (keeps_pure fun _ => id) h.holds.1
  intro e table _ hr hp ⟨ha, h0⟩
  have hle := (hr rfl).stack_le
  have hlt : (e.stackPtr - 1).toNat < 4096 := by bv_omega
  exact ⟨fun hu => (hr hu).pointer (by omega), hp.frame, hA e table _ ha, hlt⟩

theorem keeps_popPixels (hc : BlindToColumn A) (hs : BlindToStack A) : ∀ n : Nat,
    Eng.KeepsLine (popPixels n) A A
  | 0 => keeps_pure fun _ => id
  | n + 1 => by
    refine keeps_look_inCommand fun s h => ?_
    by_cases hroom : s.eng.stackPtr ≠ 0 ∧ s.eng.col < s.eng.curWidth
    · simp only [if_pos hroom]
      have hskip := h.position.not_skipped h.state hroom.2
      have hblind : BlindToStack (HasRoom A) := fun e table p k => ⟨hs e table p k.1, k.2⟩
      exact keeps_exactly (keeps_bind (keeps_pop hblind) fun v => keeps_bind (keeps_emitPixel v) fun _ =>
        keeps_bind (keeps_nextCol hc) fun _ => keeps_popPixels hc hs n) ⟨⟨h.holds, hroom.2, hskip⟩, hroom.1⟩
    · simp only [if_neg hroom]
      exact keeps_exactly (keeps_pure fun _ => id) h.holds

theorem keeps_popString (hc : BlindToColumn A) (hs : BlindToStack A) :
    Eng.KeepsLine popString A A :=
  keeps_look_inCommand fun _ h => keeps_exactly (keeps_popPixels hc hs _) h.holds

/-! ## Chain walks (R188) -/

/-- At a link that can be walked the checks of R188 find the root or go on. -/
theorem keeps_linkChecks {s : State} {P : State → Prop} {Q : Link → State → Prop} {p : Link}
    {atRoot badClear badEntry goOn : Eng Link}
    (h : Walkable (clearCode s.eng) (prefixAt s) p) (hroot : p.toNat < clearCode s.eng → Eng.Keeps P atRoot Q safeEnds)
    (hnext : p.toNat < 4096 → prefixAt s p.toNat ≠ Config.noCode → Eng.Keeps P goOn Q safeEnds) :
    Eng.Keeps P (if p.toNat < clearCode s.eng then atRoot
      else if p.toNat = clearCode s.eng then badClear
      else if 4095 < p.toNat ∨ prefixAt s p.toNat = Config.noCode then badEntry
      else goOn) Q safeEnds := by
  rcases h with hp | ⟨hc, hlt, hd⟩
  · rw [if_pos hp]
    exact hroot hp
  · rw [if_neg (by omega), if_neg (by omega), if_neg (by rintro (k | k); exacts [absurd k (by omega), hd k])]
    exact hnext hlt hd

/-- Inside the code c, with k pixels on the stack, at a link p that can be walked. -/
def AtLink (running : Nat) (c : Code) (p : Link) (k : Nat) (e : Engine) (table : Nat → Link) : Prop :=
  (InCode running c e table ∧ Walkable (clearCode e) table p) ∧ e.stackPtr.toNat = k

/-- `Trace` ends: the chain falls, so neither TRACE_LIMIT nor the stack is exhausted (R195). -/
theorem keeps_traceFrom {running : Nat} {c : Code} (code : Code) : ∀ (n : Nat) (p : Link) (k : Nat),
    p.toNat ≤ n → k + p.toNat < 4096 →
    Eng.KeepsLine (traceFrom code n p) (AtLink running c p k) (InCode running c) := by
  have root : ∀ (p : Link) (k : Nat), k + p.toNat < 4096 →
      Eng.KeepsLine (push code (p.setWidth 8) >>= fun _ => pure p) (AtLink running c p k) (InCode running c) := fun p k hk =>
    keeps_bind (keeps_push (fun _ _ _ h => h) code _ (show k < 4096 by omega)) fun _ =>
      keeps_pure fun _ h => h.mono fun k => k.1.1
  intro n
  induction n with
  | zero =>
    intro p k hn hk
    unfold traceFrom
    refine keeps_look_inCommand fun s h => ?_
    have hpos : 0 < clearCode s.eng := Nat.two_pow_pos _
    simp only [if_pos (show p.toNat < clearCode s.eng by omega)]
    exact keeps_exactly (root p k hk) h.holds
  | succ n ih =>
    intro p k hn hk
    unfold traceFrom
    refine keeps_look_inCommand fun s h => ?_
    obtain ⟨⟨hin, hwalk⟩, hptr⟩ := h.holds
    refine keeps_linkChecks hwalk (fun _ => keeps_exactly (root p k hk) h.holds) fun hlt hd => ?_
    obtain ⟨hnext, hfall⟩ := hin.table.walkable_next hlt hd
    exact keeps_exactly (keeps_bind (keeps_push (A := fun e table => InCode running c e table ∧
      Walkable (clearCode e) table (prefixAt s p.toNat)) (fun _ _ _ h => h) code _ (show k < 4096 by omega)) fun _ =>
        ih (prefixAt s p.toNat) (k + 1) (by omega) (by omega)) ⟨⟨hin, hnext⟩, hptr⟩

/-- `Root` ends, and changes nothing. -/
theorem keeps_rootFrom {running : Nat} (hA : ∀ e table, A e table → TableOf (clearCode e) e.lastCode running table)
    (code : Code) : ∀ (n : Nat) (p : Link), p.toNat ≤ n →
    Eng.KeepsLine (rootFrom code n p) (fun e table => A e table ∧ Walkable (clearCode e) table p) A := by
  intro n
  induction n with
  | zero =>
    intro p hn
    unfold rootFrom
    refine keeps_look_inCommand fun s h => ?_
    have hpos : 0 < clearCode s.eng := Nat.two_pow_pos _
    simp only [if_pos (show p.toNat < clearCode s.eng by omega)]
    exact keeps_exactly (keeps_pure fun _ => id) h.holds.1
  | succ n ih =>
    intro p hn
    unfold rootFrom
    refine keeps_look_inCommand fun s h => ?_
    obtain ⟨ha, hwalk⟩ := h.holds
    refine keeps_linkChecks hwalk (fun _ => keeps_exactly (keeps_pure fun _ => id) ha) fun hlt hd => ?_
    obtain ⟨hnext, hfall⟩ := (hA _ _ ha).walkable_next hlt hd
    exact keeps_exactly (ih (prefixAt s p.toNat) (by omega)) ⟨ha, hnext⟩

/-! ## The table append, and the end of a code -/

/-- The append of a code other than NO_CODE. -/
theorem prefixAt_setPrefix_of_ne (s : State) (i : Nat) {v : Link} (hv : v ≠ Config.noCode) :
    prefixAt (s.mapMem (setPrefix i v)) = fun j => if i = j then v else prefixAt s j := by
  funext j
  simp only [prefixAt, prefixUnlisted, mapMem_mem, mapMem_free, setPrefix, if_neg (fun h : _ ∧ _ => hv h.2), cellGet_set]
  split <;> rfl

/-- `Append` writes the entry RUNNING_CODE - 2, if it is undefined and there is a last code (R190). -/
theorem keeps_append {running : Nat} {c : Code} (pix : Byte) :
    Eng.KeepsLine (append pix) (InCode running c) (CodeEntered c) := by
  refine keeps_look_inCommand fun s h => ?_
  obtain ⟨⟨⟨hskip, htable⟩, hrun⟩, hcan⟩ := h.holds
  have hr := h.ranges rfl
  have hge := hr.running_ge
  have hle := hr.running_le
  have hindex : appendIndex s.eng + 2 = s.eng.runningCode.toNat := by
    rw [appendIndex_eq (by omega)]
    omega
  have hentered := htable.enter hrun (clearCode_le hr) hcan
  refine keeps_bind (keeps_inRam (show appendIndex s.eng < 4096 by omega)) fun _ => ?_
  by_cases hg : s.eng.lastCode ≠ Config.noCode ∧ prefixAt s (appendIndex s.eng) = Config.noCode
  · have hafter : (fun j => if appendIndex s.eng = j then s.eng.lastCode else prefixAt s j) =
        tableAfter s.eng.runningCode.toNat s.eng.lastCode (prefixAt s) := by
      funext j
      rw [tableAfter]
      by_cases hj : appendIndex s.eng = j
      · rw [if_pos hj, if_pos ⟨hj ▸ hindex, hg.1, hj ▸ hg.2⟩]
      · rw [if_neg hj, if_neg fun k => hj (by omega)]
    simp only [if_pos hg]
    refine keeps_bind (Q := fun _ => InLine (CodeEntered c)) (keeps_ram rfl (show appendIndex s.eng < 4096 by omega) ?_)
      fun _ => keeps_byteRam rfl (show appendIndex s.eng < 4096 by omega) fun _ => ⟨rfl, rfl⟩
    intro t k
    obtain ⟨he, ht⟩ := k.holds
    rw [he, prefixAt_setPrefix_of_ne t _ hg.1, ht, hafter]
    exact ⟨hskip, hentered⟩
  · have hafter : tableAfter s.eng.runningCode.toNat s.eng.lastCode (prefixAt s) = prefixAt s := by
      funext j
      exact if_neg fun k => hg ⟨k.2.1, by rw [show appendIndex s.eng = j by omega]; exact k.2.2⟩
    simp only [if_neg hg]
    exact keeps_exactly (keeps_pure fun _ => id) ⟨hskip, hafter ▸ hentered⟩

/-- The code that was entered is a code that can be the last one (R79). -/
theorem Ranges.enterLast {e : Engine} {c : Code} {table : Nat → Link} (h : Ranges e)
    (ht : TableOf (clearCode e) (c.setWidth 13) e.runningCode.toNat table) : Ranges { e with lastCode := c.setWidth 13 } := by
  have hlt : (c.setWidth 13).toNat < 4096 := code_toNat c ▸ c.isLt
  refine { h with last := .inr ((ht.last (ne_noCode_of_lt hlt)).imp_right fun k => ?_) }
  exact ht.bounds k.1 k.2

theorem keeps_setLast (c : Code) : Eng.KeepsLine (setLast c) (CodeEntered c) BetweenCodes :=
  keeps_wr rfl fun _ _ _ hr hp ⟨_, ht⟩ => ⟨fun hu => (hr hu).enterLast ht, hp.frame, fun _ => ht⟩

/-! ## The code classes -/

/-- The end of KNOWN and of KWKWK: the string of a link is traced, popped and appended. -/
theorem keeps_emitString {running : Nat} {c : Code} {start : Link} {k : Nat} (hk : k + start.toNat < 4096) :
    Eng.KeepsLine (emitString start c) (AtLink running c start k) BetweenCodes :=
  keeps_bind (keeps_traceFrom c _ start k (show _ ≤ 4096 by omega) hk) fun _ =>
    keeps_bind (keeps_popString (fun _ _ _ h => h) (fun _ _ _ h => h)) fun _ =>
      keeps_bind (keeps_append _) fun _ => keeps_setLast c

/-- A code is read in a LINE that has room and no pixel to carry over (R148). -/
def Reading (running : Nat) (e : Engine) (table : Nat → Link) : Prop :=
  CodeRead running e table ∧ e.stackPtr = 0 ∧ e.col < e.curWidth

/-- It has been read and counted. -/
def AtCode (running : Nat) : Assertion := CountIs (min (running + 1) 4097) (Reading running)

theorem keeps_pixelActions {running : Nat} (c : Code) :
    Eng.KeepsLine (pixelActions c) (fun e table => AtCode running e table ∧ c.toNat < clearCode e) BetweenCodes := by
  refine keeps_bind (keeps_emitPixel _) fun _ => keeps_bind (Q := fun _ => InLine (InCode running c))
    (keeps_inCommand_mono (keeps_nextCol fun _ _ _ h => h) ?_) fun _ => keeps_bind (keeps_append _) fun _ => keeps_setLast c
  exact fun e table ⟨⟨⟨hread, _, hroom⟩, hcount⟩, hpixel⟩ =>
    ⟨⟨⟨hread, hcount⟩, .inl hpixel⟩, hroom, hread.1⟩

theorem keeps_knownActions {running : Nat} (c : Code) :
    Eng.KeepsLine (knownActions c) (fun e table => AtCode running e table ∧ table c.toNat ≠ Config.noCode)
      BetweenCodes := by
  have hw := code_toNat c
  have hlt := c.isLt
  rw [knownActions_eq]
  refine keeps_inCommand_mono (keeps_emitString (running := running) (k := 0) (by omega)) ?_
  intro e table ⟨⟨⟨⟨hskip, htable⟩, hptr, _⟩, hcount⟩, hd⟩
  have hin : InCode running c e table := ⟨⟨⟨hskip, htable⟩, hcount⟩, .inr (.inl hd)⟩
  exact ⟨⟨hin, htable.walkable (hw ▸ hlt) (.inr (hw.symm ▸ hd))⟩, by rw [hptr]; rfl⟩

theorem keeps_kwkwkActions {running : Nat} (c : Code) :
    Eng.KeepsLine (kwkwkActions c) (fun e table => AtCode running e table ∧ c.toNat + 2 = e.runningCode.toNat ∧
      e.lastCode ≠ Config.noCode ∧ table c.toNat = Config.noCode) BetweenCodes := by
  rw [kwkwkActions_eq]
  refine keeps_look_inCommand fun s h => ?_
  obtain ⟨⟨⟨⟨hskip, htable⟩, hptr, _⟩, hcount⟩, hrun, hlast, hnew⟩ := h.holds
  have hr := h.ranges rfl
  have hlt := c.isLt
  have hbelow : s.eng.lastCode.toNat < c.toNat := by
    have hclear := clearCode_le hr
    have hstart := htable.started hlast
    have hout : ¬(clearCode s.eng + 2 ≤ c.toNat ∧ c.toNat + 2 ≤ running) := fun k =>
      (htable.defined hlast c.toNat hlt).mpr k hnew
    rcases htable.last hlast with hp | ⟨hl, hd⟩
    · omega
    · have := htable.bounds hl hd
      omega
  have hin : InCode running c s.eng (prefixAt s) := ⟨⟨⟨hskip, htable⟩, hcount⟩, .inr (.inr ⟨hrun, hlast⟩)⟩
  have hlink : AtLink running c s.eng.lastCode 0 s.eng (prefixAt s) :=
    ⟨⟨hin, htable.last_walkable hlast⟩, by rw [hptr]; rfl⟩
  exact keeps_bind (keeps_exactly (keeps_rootFrom (A := AtLink running c s.eng.lastCode 0) (fun _ _ k => k.1.1.table) c
      Config.traceLimit s.eng.lastCode (show _ ≤ 4096 by omega)) ⟨hlink, hlink.1.2⟩) fun _ =>
    keeps_bind (keeps_byteRam rfl hlt fun _ => ⟨rfl, rfl⟩) fun _ =>
      keeps_bind (keeps_push (fun _ _ _ k => k) c _ (by decide)) fun _ => keeps_emitString (k := 1) (by omega)

/-! ## The codes of a LINE -/

theorem keeps_endActions : Eng.KeepsLine endActions (fun e _ => e.skipped = false) BetweenCodes := by
  refine keeps_look_inCommand fun s h => ?_
  by_cases hend : s.eng.col.toNat + 1 = s.eng.curWidth.toNat ∧ s.eng.lastLine
  · simp only [if_pos hend]
    have hcol : s.eng.col + 1 = s.eng.curWidth := by bv_omega
    have hfull : LinePosition { s.eng with col := s.eng.col + 1, skipped := true } :=
      ⟨fun hi => absurd (h.state.symm.trans hi) (by decide), fun hr => absurd (h.state.symm.trans hr) (by decide), fun hs =>
        have ⟨hw, hd, hl, _⟩ := h.position.busy hs
        ⟨hw, hd, hl, fun _ => ⟨hcol, hend.2⟩⟩⟩
    have hr : Ranges { s.eng with col := s.eng.col + 1 } := (h.ranges rfl).column (by bv_omega)
    exact keeps_bind (keeps_offerWith_inCommand (st := .lineBusy) rfl fun _ => ⟨rfl, rfl, rfl, rfl, rfl, rfl⟩) fun _ =>
      keeps_bind (Q := fun _ => InLine (Exactly { s.eng with col := s.eng.col + 1 } (prefixAt s)))
        (keeps_wr_exactly rfl (fun _ => hr) (h.position.column h.holds _) ⟨rfl, rfl⟩)
        fun _ => keeps_wr_exactly rfl (fun _ => { hr with }) hfull fun hk => Bool.noConfusion hk
  · simp only [if_neg hend]
    exact keeps_raise_inCommand rfl rfl

/-- The registers that CLEAR writes, as INIT does (R142, R182). -/
theorem clearedRegisters {m : BitVec 4} (hm : m.toNat ≤ 8) :
    (BitVec.ofNat 13 (2 ^ m.toNat + 2)).toNat = 2 ^ m.toNat + 2 ∧ 2 ^ m.toNat + 2 ≤ 4097 ∧
      (m + 1).toNat = m.toNat + 1 ∧ (BitVec.ofNat 13 (2 ^ (m.toNat + 1))).toNat = 2 ^ (m.toNat + 1) := by
  have hp : 2 ^ m.toNat ≤ 2 ^ 8 := Nat.pow_le_pow_right (by decide) hm
  have hle : 2 ^ m.toNat + 2 ≤ 4097 := (Nat.add_le_add_right hp 2).trans (by decide)
  refine ⟨Nat.mod_eq_of_lt (lt_of_le_of_lt hle (by decide)), hle, by bv_omega, Nat.mod_eq_of_lt ?_⟩
  exact lt_of_le_of_lt (Nat.pow_le_pow_right (by decide) (Nat.succ_le_succ hm)) (by decide)

theorem keeps_clearPrefix {st : EngineState} {su req off : Bool} {B : Assertion} (hb : isBusy st = true)
    (h : ∀ e table, A e table → B e fun _ => Config.noCode) :
    Eng.Keeps (InCommand st su req off A) (act (State.mapMem clearPrefix)) (fun _ => InCommand st su req off B) safeEnds :=
  keeps_act_inCommand hb fun s k => ⟨k.state, k.setUp, k.request, k.offer, k.ranges, k.position, by
      rw [show prefixAt (s.mapMem clearPrefix) = fun _ => Config.noCode from funext (prefixAt_clearPrefix s)]
      exact h _ _ k.holds⟩

theorem keeps_clearActions : Eng.KeepsLine clearActions (fun _ _ => True) BetweenCodes := by
  refine keeps_bind (Q := fun _ => InLine fun _ table => table = fun _ => Config.noCode)
    (keeps_clearPrefix rfl fun _ _ _ => rfl) fun _ => keeps_wr rfl ?_
  rintro e table - hr hp rfl
  have hm := (hr rfl).m_le
  obtain ⟨hrun, hle, hwidth, hceiling⟩ := clearedRegisters hm
  refine ⟨fun hu => { hr hu with
      width_ge := hwidth.ge
      width_le := by show (e.minCodeSize + 1).toNat ≤ 12; omega
      ceiling := by show (BitVec.ofNat 13 (2 ^ (e.minCodeSize.toNat + 1))).toNat = _; rw [hceiling, hwidth]
      running_ge := hrun.ge
      running_le := hrun.trans_le hle
      last := .inl rfl }, hp.frame, fun _ => ?_⟩
  show TableOf (clearCode e) Config.noCode (BitVec.ofNat 13 (clearCode e + 2)).toNat _
  rw [clearCode, hrun]
  exact .cleared _

theorem keeps_instrActions {running : Nat} {s : State} {c : Code} (h : InLine (AtCode running) s) :
    Eng.KeepsLine (instrActions (classify (codeCtx s c) c)) (Exactly s.eng (prefixAt s)) BetweenCodes := by
  obtain ⟨⟨⟨hskip, _⟩, _⟩, _⟩ := h.holds
  rw [classify]
  split_ifs with hend hclear hpixel hknown hkwkwk
  · exact keeps_exactly keeps_endActions hskip
  · exact keeps_exactly keeps_clearActions trivial
  · exact keeps_exactly (keeps_pixelActions c) ⟨h.holds, hpixel⟩
  · exact keeps_exactly (keeps_knownActions c) ⟨h.holds, by simpa [codeCtx] using hknown⟩
  · refine keeps_exactly (keeps_kwkwkActions c) ⟨h.holds, ?_⟩
    obtain ⟨hrun, hlast⟩ : c.toNat + 2 = s.eng.runningCode.toNat ∧ s.eng.lastCode ≠ Config.noCode := by
      simpa [CodeCtx.isNext, codeCtx] using hkwkwk
    exact ⟨hrun, hlast, by simpa [codeCtx] using hknown⟩
  · exact keeps_raise_inCommand rfl rfl

/-- The next code of a LINE, read and executed. -/
theorem keeps_codeActions :
    Eng.KeepsLine codeActions (fun e table => BetweenCodes e table ∧ e.stackPtr = 0 ∧ e.col < e.curWidth) BetweenCodes := by
  intro s h
  obtain ⟨htable, hptr, hroom⟩ := h.holds
  have hskip := h.position.not_skipped h.state hroom
  have hread := keeps_readCode (A := Reading s.eng.runningCode.toNat) (fun _ _ _ _ k => k) (fun _ _ _ _ k => k)
    (fun _ _ _ _ _ k => k) s.eng.runningCode.toNat
  have hstart : InLine (CountIs s.eng.runningCode.toNat (Reading s.eng.runningCode.toNat)) s :=
    h.mono fun _ => ⟨⟨⟨hskip, htable hskip⟩, hptr, hroom⟩, rfl⟩
  exact keeps_bind hread (fun _ => keeps_look_inCommand fun _ => keeps_instrActions) s hstart

end CodeSafety
end Sys2Proof.Machine

namespace Sys2Proof.Machine
/-! # Every task of the engine keeps a safe state safe (R22) -/

section TaskSafety

variable {A : Assertion} {st : EngineState} {s : State}

/-! ## The ends of a command -/

/-- A command that goes on, or has ended without a fault, is safe with the table invariant where it is claimed. -/
theorem InCommand.safeEnd_idle (h : InCommand st (isSetUp st) false false A s) (hf : st ≠ .fault)
    (ht : A s.eng (prefixAt s) → st = .ready ∨ st = .lineBusy → BetweenCodes s.eng (prefixAt s)) : SafeEnd s := by
  refine h.safeEnd hf (fun hq => by cases hq) (fun ho => by cases ho) fun hb => (tableInv_iff s).mpr ?_
  simp only [betweenCodes, h.state, Bool.and_eq_true, Bool.or_eq_true, decide_eq_true_eq, Bool.not_eq_true'] at hb
  rcases hb.1 with hready | ⟨hline, hskip⟩
  · exact ht h.holds (.inl hready) (h.position.ready (h.state.trans hready)).2.2.2
  · exact ht h.holds (.inr hline) hskip

/-- No assertion at all. -/
abbrev Anything : Assertion := fun _ _ => True

/-- DRAIN_BUSY and DONE claim nothing of the position or the table. -/
theorem InCommand.safeEnd_drain (h : InCommand st true false false A s) (hst : st = .drainBusy ∨ st = .done) : SafeEnd s := by
  rcases hst with rfl | rfl
  · exact h.safeEnd_idle (by decide) fun _ k => by rcases k with k | k <;> cases k
  · exact h.safeEnd_idle (by decide) fun _ k => by rcases k with k | k <;> cases k

/-! ## The drain -/

theorem keeps_startDrain (hb : isBusy st = true) :
    Eng.Keeps (InCommand st true false false A) startDrain (fun _ => SafeEnd) safeEnds := by
  have hdrain : ∀ e : Engine, e.state = .drainBusy → LinePosition e := fun e h =>
    .of_ne (by simp [h]) (by simp [h]) (by simp [h])
  refine keeps_post (Q := fun _ => InCommand .drainBusy true false false Anything) ?_ fun _ t h => h.safeEnd_drain (.inl rfl)
  refine keeps_bind (Q := fun _ => InCommand .drainBusy true false false Anything)
    (keeps_wr_state hb fun e _ _ hr _ _ => ⟨rfl, fun hu => { hr hu with }, hdrain _ rfl, trivial⟩) fun _ =>
    keeps_bind (Q := fun _ => InCommand .drainBusy true false false Anything)
      (keeps_wr rfl fun e _ _ hr hp _ => ⟨fun hu => { hr hu with sub_block := ?_ }, hp.frame, trivial⟩) fun _ =>
      keeps_wr rfl fun e _ _ hr hp _ => ⟨fun hu => { hr hu with sub_block := ?_ }, hp.frame, trivial⟩
  · show e.sbPos.toNat + (0#8).toNat ≤ 255
    bv_omega
  · show (0#8).toNat + e.sbRem.toNat ≤ 255
    bv_omega

theorem keeps_drainRound :
    Eng.Keeps (InCommand .drainBusy true false false A) drainRound (fun _ => SafeEnd) safeEnds := by
  refine keeps_bind (keeps_readSource_inCommand (st := .drainBusy) rfl) fun byte => ?_
  cases byte with
  | none => exact keeps_raise_inCommand rfl rfl
  | some len =>
    by_cases h0 : len = 0
    · simp only [if_pos h0]
      refine keeps_post (Q := fun _ => InCommand .done true false false Anything) (keeps_act_inCommand rfl fun s k => ?_)
        fun _ t h => h.safeEnd_drain (.inr rfl)
      have hdone : LinePosition { s.eng with state := .done } := .of_ne (by simp) (by simp) (by simp)
      exact ⟨rfl, k.setUp, k.request, k.offer, fun hu => { k.ranges hu with }, hdone, trivial⟩
    · simp only [if_neg h0]
      exact keeps_post (keeps_fetchSubBlock (st := .drainBusy) rfl len rfl) fun _ t h => h.safeEnd_drain (.inl rfl)

/-! ## The end of a LINE -/

/-- The row sequencer writes ROW and PASS only (R216). -/
def BlindToRow (A : Assertion) : Prop :=
  ∀ e table row pass, A e table → A { e with row := row, pass := pass } table

theorem keeps_row (hA : BlindToRow A) {f : Engine → Engine}
    (h : ∀ e, ∃ row pass, f e = { e with row := row, pass := pass }) :
    Eng.KeepsLine (wr f) A A :=
  keeps_wr_state rfl fun e table hs hr hp ha => by
    obtain ⟨row, pass, he⟩ := h e
    rw [he]
    exact ⟨hs, fun hu => { hr hu with }, hp.frame, hA e table row pass ha⟩

theorem keeps_skipPasses (hA : BlindToRow A) : ∀ n : Nat, Eng.KeepsLine (skipPasses n) A A
  | 0 => keeps_pure fun _ => id
  | n + 1 => by
    refine keeps_look_inCommand fun s h => ?_
    by_cases hc : s.eng.curHeight.toNat ≤ s.eng.row.toNat ∧ s.eng.pass.toNat < 3
    · simp only [if_pos hc]
      exact keeps_exactly (keeps_bind (keeps_row hA fun e => ⟨e.row, _, rfl⟩) fun _ =>
        keeps_bind (keeps_row hA fun e => ⟨_, e.pass, rfl⟩) fun _ => keeps_skipPasses hA n) h.holds
    · simp only [if_neg hc]
      exact keeps_exactly (keeps_pure fun _ => id) h.holds

theorem keeps_advanceRow (hA : BlindToRow A) : Eng.KeepsLine advanceRow A A := by
  refine keeps_look_inCommand fun s h => ?_
  by_cases hi : s.eng.curInterlace = true
  · simp only [if_pos hi]
    exact keeps_exactly (keeps_bind (keeps_row hA fun e => ⟨_, e.pass, rfl⟩) fun _ => keeps_skipPasses hA _) h.holds
  · simp only [if_neg hi]
    exact keeps_exactly (keeps_row hA fun e => ⟨_, e.pass, rfl⟩) h.holds

theorem keeps_setReady {st : EngineState} (hb : isBusy st = true)
    (h : ∀ e table, e.state = st → LinePosition e → A e table → (e.curWidth ≠ 0 ∧ e.pixelsLeft ≠ 0 ∧
      e.curWidth.toNat ∣ e.pixelsLeft.toNat ∧ e.skipped = false) ∧ BetweenCodes e table) :
    Eng.Keeps (InCommand st true false false A) (wr fun e => { e with state := .ready }) (fun _ => SafeEnd) safeEnds := by
  refine keeps_post (Q := fun _ => InCommand .ready true false false BetweenCodes) (keeps_wr_state hb ?_)
    fun _ t k => k.safeEnd_idle (by decide) fun hb _ => hb
  intro e table hs hr hp ha
  obtain ⟨hready, hbetween⟩ := h e table hs hp ha
  exact ⟨rfl, fun hu => { hr hu with }, ⟨fun k => (by cases k), fun _ => hready, fun k => (by cases k)⟩, hbetween⟩

theorem keeps_finishLine : Eng.Keeps (InLine BetweenCodes) finishLine (fun _ => SafeEnd) safeEnds := by
  refine keeps_bind (keeps_advanceRow fun _ _ _ _ k => k) fun _ => keeps_bind (Q := fun _ => InLine BetweenCodes)
    (keeps_act_inCommand rfl fun _ k => ⟨k.state, k.setUp, k.request, k.offer, k.ranges, k.position, k.holds⟩) fun _ =>
    keeps_look_inCommand fun s h => ?_
  by_cases hl : s.eng.lastLine = true
  · simp only [if_pos hl]
    exact keeps_startDrain rfl
  · simp only [if_neg hl]
    refine keeps_setReady rfl ?_
    rintro e table hs hp ⟨rfl, rfl⟩
    obtain ⟨hw, hd, hlast, hskip⟩ := hp.busy hs
    refine ⟨⟨hw, fun h0 => hl (by rw [hlast, h0]; rfl), hd, ?_⟩, h.holds⟩
    by_contra hk
    exact hl (hskip (by simpa using hk)).2

/-! ## INIT -/

/-- The registers after the set-up of INIT, for the minimum code size m (R142). -/
def initialRegisters (m : BitVec 4) (e : Engine) : Engine :=
  { e with
    minCodeSize := m
    codeWidth := m + 1
    maxCode1 := BitVec.ofNat 13 (2 ^ (m.toNat + 1))
    runningCode := BitVec.ofNat 13 (2 ^ m.toNat + 2)
    lastCode := Config.noCode
    stackPtr := 0
    shiftAcc := 0
    shiftState := 0
    sbRem := 0
    sbPos := 0
    pixelsLeft := e.curWidth.setWidth 32 * e.curHeight.setWidth 32
    row := 0
    pass := 0
    col := 0
    lastLine := false }

/-- The product of the two 16-bit sizes fits (R142). -/
theorem pixelsLeft_toNat (w h : BitVec 16) : (w.setWidth 32 * h.setWidth 32).toNat = w.toNat * h.toNat := by
  have hprod : w.toNat * h.toNat ≤ 65535 * 65535 := Nat.mul_le_mul (Nat.le_of_lt_succ w.isLt) (Nat.le_of_lt_succ h.isLt)
  rw [BitVec.toNat_mul, BitVec.toNat_setWidth_of_le (by decide), BitVec.toNat_setWidth_of_le (by decide)]
  exact Nat.mod_eq_of_lt (by omega)

theorem ranges_initialRegisters {m : BitVec 4} (hm : m.toNat ≤ 8) (e : Engine) : Ranges (initialRegisters m e) := by
  obtain ⟨hrun, hle, hwidth, hceiling⟩ := clearedRegisters hm
  exact
    { m_le := hm
      width_ge := hwidth.ge
      width_le := hwidth.trans_le (by omega)
      ceiling := by rw [initialRegisters, hceiling, hwidth]
      running_ge := hrun.ge
      running_le := hrun.trans_le hle
      last := .inl rfl
      shift_le := Nat.zero_le _
      acc_lt := Nat.one_pos
      stack_le := Nat.zero_le _
      sub_block := Nat.zero_le _
      col_le := Nat.zero_le _
      left_le := (pixelsLeft_toNat e.curWidth e.curHeight).le }

/-- The set-up of INIT is complete, and its image is the one latched (R142). -/
def InitialOf (e : Engine) (table : Nat → Link) : Prop :=
  e.pixelsLeft.toNat = e.curWidth.toNat * e.curHeight.toNat ∧ BetweenCodes e table

theorem initialOf_initialRegisters {m : BitVec 4} (hm : m.toNat ≤ 8) (e : Engine) :
    InitialOf (initialRegisters m e) fun _ => Config.noCode := by
  refine ⟨pixelsLeft_toNat e.curWidth e.curHeight, fun _ => ?_⟩
  show TableOf (2 ^ m.toNat) Config.noCode (BitVec.ofNat 13 (2 ^ m.toNat + 2)).toNat _
  rw [(clearedRegisters hm).1]
  exact .cleared _

theorem LinePosition.of_init {e : Engine} (hs : e.state = .initBusy) (hk : e.skipped = false) : LinePosition e :=
  ⟨fun _ => hk, fun h => absurd (hs.symm.trans h) (by decide), fun h => absurd (hs.symm.trans h) (by decide)⟩

/-- An assignment of INIT's set-up: before it is complete no range is claimed. -/
theorem keeps_setUpAssign {f : Engine → Engine} {x : Eng Unit} {Q : Unit → State → Prop} {e : Engine}
    {table : Nat → Link} (hx : Eng.Keeps (InCommand .initBusy false false false (Exactly (f e) table)) x Q safeEnds)
    (hf : ∀ e, (f e).state = e.state ∧ (f e).skipped = e.skipped := by exact fun _ => ⟨rfl, rfl⟩) :
    Eng.Keeps (InCommand .initBusy false false false (Exactly e table)) (wr f >>= fun _ => x) Q safeEnds := by
  refine keeps_bind (keeps_wr rfl (fun e' _ hs _ hp k => ⟨fun hu => ?_, ?_, congrArg f k.1, k.2⟩) fun e => (hf e).1)
    fun _ => hx
  · cases hu
  · exact .of_init ((hf e').1.trans hs) ((hf e').2.trans (hp.init hs))

/-- INIT's set-up is a chain of assignments that ends in `initialRegisters` (R142). -/
theorem keeps_setUpDecoder {b : Byte} (hb : b.toNat ≤ 8) :
    Eng.Keeps (InCommand .initBusy false false false A) (setUpDecoder b)
      (fun _ => InCommand .initBusy true false false InitialOf) safeEnds := by
  have hm : (b.setWidth 4).toNat ≤ 8 := by rw [BitVec.toNat_setWidth]; omega
  intro s h
  have hchain : Eng.Keeps (InCommand .initBusy false false false (Exactly s.eng (prefixAt s))) (setUpDecoder b)
      (fun _ => InCommand .initBusy true false false InitialOf) safeEnds := by
    iterate 4 refine keeps_setUpAssign ?_
    refine keeps_bind (keeps_clearPrefix (B := Exactly _ fun _ => Config.noCode) rfl fun _ _ k => ⟨k.1, rfl⟩) fun _ => ?_
    iterate 10 refine keeps_setUpAssign ?_
    refine keeps_act_inCommand rfl fun t k => ?_
    obtain ⟨he, htable⟩ := k.holds
    have heng : { t.eng with lastLine := false } = initialRegisters (b.setWidth 4) s.eng := by rw [he]; rfl
    have hr : Ranges { t.eng with lastLine := false } := heng ▸ ranges_initialRegisters hm s.eng
    have hinitial : InitialOf { t.eng with lastLine := false } (prefixAt t) := by
      rw [heng, htable]
      exact initialOf_initialRegisters hm s.eng
    exact ⟨k.state, rfl, k.request, k.offer, fun _ => hr, .of_init k.state (k.position.init k.state), hinitial⟩
  exact hchain s h.exactly

theorem keeps_finishInit :
    Eng.Keeps (InCommand .initBusy true false false InitialOf) finishInit (fun _ => SafeEnd) safeEnds := by
  refine keeps_look_inCommand fun s h => ?_
  by_cases h0 : s.eng.pixelsLeft = 0
  · simp only [if_pos h0]
    exact keeps_startDrain rfl
  · simp only [if_neg h0]
    refine keeps_setReady rfl ?_
    rintro e table hs hp ⟨rfl, rfl⟩
    obtain ⟨hleft, hbetween⟩ := h.holds
    refine ⟨⟨fun hw => h0 (BitVec.eq_of_toNat_eq ?_), h0, Dvd.intro _ hleft.symm, hp.init hs⟩, hbetween⟩
    rw [hleft, hw]
    exact Nat.zero_mul _

theorem keeps_initBody : Eng.Keeps (InCommand .initBusy false false false A) initBody (fun _ => SafeEnd) safeEnds := by
  refine keeps_bind (keeps_readSource_inCommand (st := .initBusy) rfl) fun byte => ?_
  cases byte with
  | none => exact keeps_raise_inCommand rfl rfl
  | some b =>
    by_cases hm : Config.maxMinCodeSize < b.toNat
    · simp only [if_pos hm]
      exact keeps_raise_inCommand rfl rfl
    · simp only [if_neg hm]
      exact keeps_bind (keeps_setUpDecoder (Nat.le_of_not_lt hm)) fun _ => keeps_finishInit

/-! ## The task a state is due -/

theorem Eng.Keeps.safeEnd {P : State → Prop} {x : Eng Unit} (h : Eng.Keeps P x (fun _ => InLine BetweenCodes) safeEnds) :
    Eng.Keeps P x (fun _ => SafeEnd) safeEnds :=
  keeps_post h fun _ _ k => k.safeEnd_idle (by decide) fun hk _ => hk

theorem Safe.inCommand (h : Safe s) (hb : Busy s) (hp : inFlight s.ports = false) :
    InCommand s.eng.state (isSetUp s.eng.state) false false (Exactly s.eng (prefixAt s)) s := by
  have hports : s.ports.byteRequest = false ∧ s.ports.offeredBeat.isSome = false := by simpa [inFlight] using hp
  have hsetUp : s.free.setUp = isSetUp s.eng.state := by
    cases hu : isSetUp s.eng.state with
    | true => exact h.setUp hu
    | false =>
      refine h.notYet ?_
      revert hb hu
      rw [Busy]
      cases s.eng.state <;> simp [isBusy, isSetUp]
  exact ⟨rfl, hsetUp, hports.1, hports.2, fun hu => h.ranges (hsetUp.trans hu), h.position, rfl, rfl⟩

theorem Safe.table_of_line (h : Safe s) (hst : s.eng.state = .lineBusy) (hp : inFlight s.ports = false) :
    BetweenCodes s.eng (prefixAt s) := fun hk =>
  (tableInv_iff s).mp (h.table (by simp [betweenCodes, hst, hk, hp]))

/-- The task of a safe command ends in a safe state, however it ends. -/
theorem keeps_taskActions (h : Safe s) (hb : Busy s) (hp : inFlight s.ports = false) :
    Eng.Keeps (fun t => t = s) (taskActions s) (fun _ => SafeEnd) safeEnds := by
  have start := h.inCommand hb hp
  have hline := fun hst => h.table_of_line hst hp
  refine keeps_pre (R := InCommand s.eng.state (isSetUp s.eng.state) false false (Exactly s.eng (prefixAt s))) ?_
    fun t ht => ht ▸ start
  rw [taskActions, engineTask]
  revert hline
  cases hst : s.eng.state with
  | idle | ready | done | fault => rw [Busy, hst] at hb; cases hb
  | initBusy => exact fun _ => keeps_initBody
  | drainBusy => exact fun _ => keeps_drainRound
  | lineBusy =>
    intro hline
    by_cases hfull : s.eng.curWidth ≤ s.eng.col
    · simp only [if_pos hfull]
      exact keeps_exactly keeps_finishLine (hline rfl)
    · by_cases hptr : s.eng.stackPtr ≠ 0
      · simp only [if_neg hfull, if_pos hptr]
        exact keeps_exactly (keeps_popString (fun _ _ _ k => k) fun _ _ _ k => k).safeEnd (hline rfl)
      · simp only [if_neg hfull, if_neg hptr]
        have hroom : s.eng.col < s.eng.curWidth := by bv_omega
        exact keeps_exactly keeps_codeActions.safeEnd ⟨hline rfl, by simpa using hptr, hroom⟩

end TaskSafety
end Sys2Proof.Machine

namespace Sys2Proof.Machine
/-! # What a step can do, and that it keeps a safe state safe (O54, O58) -/

section StepSafety

variable {s t : State}

/-! ## A host access as a step -/

/-- The state in which a host access acts: it is off the list of those to come. -/
abbrev taken (rest : List BusItem) (s : State) : State := s.mapEnv fun v => { v with bus := rest }

/-- What a host access does as a step of its own, in any STATE: nothing `Landed` speaks of; new bytes for the source between two
images; a CommandError; the entry of INIT or of LINE; or a reset (R130 to R134, R250, R254). -/
inductive Accessed (rest : List BusItem) (s : State) : State → Prop where
  | landed {t : State} (h : Landed s t) : Accessed rest s t
  | positioned (bytes : List Byte) (h : imageInProgress s.eng.state = false) :
      Accessed rest s (positionSource bytes (taken rest s))
  | refused (c : Cause) (w : Word) (kind : causeKind c = 3) (h : s.eng.state ≠ .fault) :
      Accessed rest s (takeFault c w (taken rest s))
  | init (h : s.eng.state = .idle ∨ s.eng.state = .done) : Accessed rest s (enterInit (taken rest s))
  | line (h : s.eng.state = .ready) : Accessed rest s (enterLine (taken rest s))
  | reset : Accessed rest s (hardReset (taken rest s))

theorem landed_taken (rest : List BusItem) (s : State) : Landed s (taken rest s) := ⟨rfl, rfl, rfl, rfl, rfl, rfl, rfl, rfl⟩

theorem landed_doRead (index : BitVec 6) (s : State) : Landed s (doRead index s) := by
  simp only [doRead, readReg]
  split
  next => exact ⟨rfl, rfl, rfl, rfl, rfl, rfl, rfl, rfl⟩
  next => split <;> exact ⟨rfl, rfl, rfl, rfl, rfl, rfl, rfl, rfl⟩

theorem landed_writeReg (index : BitVec 6) (w : Word) (s : State) : Landed s (writeReg index w s) := by
  simp only [writeReg]
  split <;> exact ⟨rfl, rfl, rfl, rfl, rfl, rfl, rfl, rfl⟩

/-- A command that decodes is executed as the CMD write it is (R130). -/
theorem exec_decoded {w : Word} {i : Instr} (h : decodeCommand w = .ok i) (s : State) : exec i s = .next (writeCmd w s) := by
  rw [writeCmd, h]
  rw [decodeCommand] at h
  split at h
  next => cases h
  next =>
    cases h
    rw [decodeOpcode]
    split_ifs <;> rfl

theorem stepCmd_eq (w : Word) (s : State) :
    stepCmd w s = .next (if s.ports.rst then s else if s.eng.state = .fault then s else writeCmd w s) := by
  rw [stepCmd]
  split_ifs with hr hf
  · rfl
  · rfl
  · cases hd : decodeCommand w with
    | ok i => exact exec_decoded hd s
    | error r => cases r; simp only [writeCmd, hd]

/-- A CMD write outside FAULT: it does nothing, is refused, or starts INIT or LINE where R132 has them legal. -/
theorem accessed_writeCmd {rest : List BusItem} (hf : s.eng.state ≠ .fault) (w : Word) :
    Accessed rest s (writeCmd w (taken rest s)) := by
  have hstate : (taken rest s).eng.state = s.eng.state := rfl
  rw [writeCmd]
  cases hd : decodeCommand w with
  | error r => cases r; exact .refused _ _ rfl hf
  | ok i =>
    cases i with
    | nop =>
      show Accessed rest s (writeNop _)
      rw [writeNop, hstate]
      cases hs : s.eng.state with
      | fault => exact absurd hs hf
      | _ => exact .landed (landed_taken rest s)
    | init =>
      show Accessed rest s (writeInit _)
      rw [writeInit, hstate]
      cases hs : s.eng.state with
      | fault => exact absurd hs hf
      | idle => exact .init (.inl hs)
      | done => exact .init (.inr hs)
      | _ => exact .refused _ _ rfl hf
    | line =>
      show Accessed rest s (writeLine _)
      rw [writeLine, hstate]
      cases hs : s.eng.state with
      | fault => exact absurd hs hf
      | ready => exact .line hs
      | _ => exact .refused _ _ rfl hf
    | reservedCommand op => exact .refused _ _ rfl hf
    | _ => exact .landed (landed_taken rest s)

theorem accessed_of_stepHost {event : HostEvent} {rest : List BusItem} (h : stepHost event rest s = .next t) :
    Accessed rest s t := by
  cases event with
  | read index =>
    cases h
    exact .landed ((landed_taken rest s).trans (landed_doRead index _))
  | write index w =>
    rw [stepHost] at h
    split at h
    next =>
      rw [stepCmd_eq] at h
      cases h
      split_ifs with hr hf
      · exact .landed (landed_taken rest s)
      · exact .landed (landed_taken rest s)
      · exact accessed_writeCmd (s := s) hf w
    next hi =>
      have hw : Landed s (doWrite index w (taken rest s)) := by
        rw [doWrite, if_neg hi]
        split_ifs
        · exact landed_taken rest s
        · exact (landed_taken rest s).trans (landed_writeReg index w _)
      simp only [land, Eng.outcome, run_did] at h
      split_ifs at h <;> cases h <;> exact .landed hw
  | reset level =>
    cases level with
    | true => cases h; exact .reset
    | false => cases h; exact .landed ⟨rfl, rfl, rfl, rfl, rfl, rfl, rfl, rfl⟩
  | position bytes =>
    simp only [stepHost, land, Eng.outcome, run_did] at h
    split_ifs at h with hi
    cases h
    exact .positioned bytes (by simpa using hi)

/-! ## Host accesses keep a safe state safe -/

theorem safe_enterInit (h : Safe s) (hst : s.eng.state = .idle ∨ s.eng.state = .done) : Safe (enterInit s) where
  ports hb := by cases hb
  waits _ := by
    have hp : inFlight s.ports = false := by
      rcases hst with hst | hst <;> exact h.ports (by rw [hst]; rfl) (by rw [hst]; decide)
    obtain ⟨hr, ho⟩ : s.ports.byteRequest = false ∧ s.ports.offeredBeat.isSome = false := by simpa [inFlight] using hp
    exact ⟨fun k => absurd (hr.symm.trans k) (by decide), fun k => absurd (ho.symm.trans k) (by decide)⟩
  setUp hu := by cases hu
  notYet _ := rfl
  ranges hu := by cases hu
  position := .of_init rfl rfl
  table hb := by cases hb

/-- The pixels left once a LINE has started (R146). -/
theorem pixelsLeft_enterLine {left : BitVec 32} {w : BitVec 16} (h0 : left ≠ 0) (hd : w.toNat ∣ left.toNat) :
    (left - w.setWidth 32).toNat = left.toNat - w.toNat := by
  have hpos : 0 < left.toNat := Nat.pos_of_ne_zero fun h => h0 (BitVec.eq_of_toNat_eq h)
  have hle := Nat.le_of_dvd hpos hd
  have hw : (w.setWidth 32).toNat = w.toNat := BitVec.toNat_setWidth_of_le (by decide)
  bv_omega

theorem safe_enterLine (h : Safe s) (hst : s.eng.state = .ready) : Safe (enterLine s) := by
  obtain ⟨hw, h0, hd, hskip⟩ := h.position.ready hst
  have hp : inFlight s.ports = false := h.ports (by rw [hst]; rfl) (by rw [hst]; decide)
  have hports : s.ports.byteRequest = false ∧ s.ports.offeredBeat.isSome = false := by simpa [inFlight] using hp
  have hu : s.free.setUp = true := h.setUp (by rw [hst]; rfl)
  have hr := h.ranges hu
  have hleft := pixelsLeft_enterLine h0 hd
  have hin : InLine BetweenCodes (enterLine s) :=
    { state := rfl
      setUp := hu
      request := hports.1
      offer := hports.2
      ranges := fun _ => { hr with
        col_le := Nat.zero_le _
        left_le := hleft.trans_le ((Nat.sub_le _ _).trans hr.left_le) }
      position := ⟨fun k => (by cases k), fun k => (by cases k), fun _ =>
        ⟨hw, hleft ▸ Nat.dvd_sub hd (dvd_refl _), rfl, fun k => absurd (hskip.symm.trans k) (by decide)⟩⟩
      holds := fun _ => (tableInv_iff s).mp (h.table (by simp [betweenCodes, hst, hp])) }
  exact (hin.safeEnd_idle (by decide) fun k _ => k).safe

theorem Accessed.safe {rest : List BusItem} (h : Safe s) (k : Accessed rest s t) : Safe t := by
  have htaken := h.congr (t := taken rest s) rfl (landed_taken rest s).sameAround
  cases k with
  | landed k => exact h.congr k.eng k.sameAround
  | positioned bytes hi => exact h.congr rfl ⟨fun _ => rfl, rfl, rfl, rfl, rfl, rfl⟩
  | refused c w _ hf => exact safe_takeFault htaken.ranges hf c w
  | init hst => exact safe_enterInit htaken hst
  | line hst => exact safe_enterLine htaken hst
  | reset => exact .of_reset rfl rfl rfl

/-! ## A step -/

theorem step_of_hostMoves (h : hostMoves s = true) :
    ∃ it rest, s.env.bus = it :: rest ∧ step s = stepHost it.event rest s := by
  rw [step]
  split
  next hbus => simp [hostMoves, hbus] at h
  next it rest hbus => exact ⟨it, rest, hbus, if_pos h⟩

/-- The port that completes leaves the engine and the model's record alone, and was in flight. -/
theorem portCompletes_frame (h : portCompletes s = some t) :
    t.eng = s.eng ∧ t.mem = s.mem ∧ t.free = s.free ∧ inFlight s.ports = true := by
  rw [portCompletes] at h
  split at h
  next hr =>
    obtain ⟨⟨byte, u⟩, ha, rfl⟩ := Option.map_eq_some_iff.mp h
    obtain ⟨he, hm, hf, -⟩ := sourceAnswers_frame ha
    exact ⟨he, hm, hf, by simp [inFlight, hr]⟩
  next =>
    obtain ⟨he, hm, hf, ho, -⟩ := sinkAccepts_frame h
    exact ⟨he, hm, hf, by simp [inFlight, ho]⟩

theorem Safe.outcome {x : Eng Unit} {P : State → Prop} (hx : Eng.Keeps P x (fun _ => SafeEnd) safeEnds) (hs : P s)
    (h : Eng.outcome x s = .next t) : Safe t := by
  have hends := (hx s hs).1
  rw [Eng.outcome] at h
  revert h hends
  rcases x.run s with ⟨_, u⟩ | ⟨_ | _ | _, u⟩
  · rintro ⟨⟩ k
    exact k.safe
  · rintro ⟨⟩ k
    exact k.safe
  · rintro ⟨⟩ k
    exact k.safe
  · rintro ⟨⟩

theorem safe_of_stepBlock (h : Safe s) (ht : stepBlock s = .next t) : Safe t := by
  by_cases hb : Busy s
  · cases hp : inFlight s.ports with
    | true => rw [stepBlock, if_pos hb, if_pos hp] at ht; cases ht
    | false =>
      rw [stepBlock_of_busy hb hp, stepEngine_eq] at ht
      exact .outcome (keeps_taskActions h hb hp) rfl ht
  · rw [stepBlock, if_neg hb] at ht
    cases hc : portCompletes s with
    | none => rw [hc] at ht; cases ht; exact h
    | some u =>
      rw [hc] at ht
      cases ht
      obtain ⟨he, -, hfree, hp⟩ := portCompletes_frame hc
      have hfault : s.eng.state = .fault := by
        by_contra hf
        exact absurd (hp.symm.trans (h.ports (by simpa using hb) hf)) (by decide)
      exact .of_fault (he ▸ hfault) (by rw [he, hfree]; exact h.ranges)

/-- Settles O54: a host access keeps a safe state safe (`Accessed.safe`), and so does each task of the engine, whatever accesses
land inside it (`keeps_taskActions`). -/
theorem stepKeepsSafety : Obligations.StepKeepsSafety := by
  unfold Obligations.StepKeepsSafety
  intro s t h ht
  cases hm : hostMoves s with
  | true =>
    obtain ⟨it, rest, -, hstep⟩ := step_of_hostMoves hm
    exact (accessed_of_stepHost (hstep ▸ ht)).safe h
  | false => exact safe_of_stepBlock h (step_of_not_hostMoves hm ▸ ht)

/-- Settles O58: every instant of a task after the set-up has the ranges (`safeEnds`), and a port that completes leaves the
registers alone. -/
theorem everyInstantKeepsRanges : Obligations.EveryInstantKeepsRanges := by
  unfold Obligations.EveryInstantKeepsRanges
  intro s u h hu
  cases hm : hostMoves s with
  | true => rw [instants_of_hostMoves hm] at hu; cases hu
  | false =>
    rw [instants_of_not_hostMoves hm] at hu
    by_cases hb : Busy s
    · cases hp : inFlight s.ports with
      | true => rw [blockInstants, if_pos hb, if_pos hp] at hu; cases hu
      | false =>
        rw [blockInstants_of_busy hb hp] at hu
        exact (keeps_taskActions h hb hp s rfl).2 u hu
    · rw [blockInstants, if_neg hb, Option.mem_toList] at hu
      obtain ⟨he, -, hfree, -⟩ := portCompletes_frame hu
      rw [he, hfree]
      exact h.ranges

end StepSafety
end Sys2Proof.Machine

namespace Sys2Proof.Machine
/-! # The geometry of the image in progress is latched (O48)

No single action but the entry of INIT writes CUR_WIDTH, CUR_HEIGHT or CUR_INTERLACE, and no INIT is legal while an image is in
progress. So the claim is one about instants, which follow one another by single actions (`NextInstant`). -/

section Geometry

variable {s t u : State}

/-- The latched geometry (R35). -/
def geometry (e : Engine) : BitVec 16 × BitVec 16 × Bool := (e.curWidth, e.curHeight, e.curInterlace)

/-- From s to t the geometry is the same, unless the block was reset between them. -/
structure GeometryKept (s t : State) : Prop where
  resets : s.free.resets ≤ t.free.resets
  same : t.free.resets = s.free.resets → geometry t.eng = geometry s.eng

theorem GeometryKept.trans (h : GeometryKept s t) (k : GeometryKept t u) : GeometryKept s u where
  resets := h.resets.trans k.resets
  same hr :=
    have htu : u.free.resets = t.free.resets := le_antisymm (hr.trans_le h.resets) k.resets
    (k.same htu).trans (h.same (htu.symm.trans hr))

theorem GeometryKept.of_eq (hr : t.free.resets = s.free.resets) (hg : geometry t.eng = geometry s.eng) : GeometryKept s t :=
  ⟨hr.ge, fun _ => hg⟩

theorem GeometryKept.of_frame (he : t.eng = s.eng) (hf : t.free = s.free) : GeometryKept s t := .of_eq (by rw [hf]) (by rw [he])

theorem GeometryKept.of_landed (h : Landed s t) : GeometryKept s t := .of_eq h.resets (by rw [h.eng])

theorem GeometryKept.of_reset (h : t.free.resets = s.free.resets + 1) : GeometryKept s t :=
  ⟨by omega, fun hr => absurd (h.symm.trans hr) (by omega)⟩

theorem geometryKept_takeFault (c : Cause) (info : Word) (s : State) : GeometryKept s (takeFault c info s) := by
  rw [takeFault]
  split_ifs <;> exact .of_eq rfl rfl

theorem geometryKept_nearer (s : State) : GeometryKept s (nearer s) := by
  rw [nearer]
  split <;> exact .of_eq rfl rfl

theorem GeometryKept.of_endedBy (h : EndedBy s t) : GeometryKept s t := by
  cases h with
  | refused c w _ eng _ _ _ _ _ resets _ => exact .of_eq resets (by rw [eng]; rfl)
  | reset _ _ _ _ _ resets _ => exact .of_reset resets

theorem geometry_assigns {e e' : Engine} (h : Assigns e e') : geometry e' = geometry e := by cases h <;> rfl

/-- No single action of the engine writes the geometry. -/
theorem GeometryKept.of_action (h : EngineAction s t) : GeometryKept s t := by
  cases h with
  | assign h => exact .of_eq rfl (geometry_assigns h)
  | ram _ | setUpDone | lineDone | imageDone | request | offer _ | offerSkip => exact .of_eq rfl rfl
  | fault c info _ => exact geometryKept_takeFault c info s
  | answer h =>
    obtain ⟨he, -, hf, -⟩ := sourceAnswers_frame h
    exact .of_frame he hf
  | accept h =>
    obtain ⟨he, -, hf, -, -⟩ := sinkAccepts_frame h
    exact .of_frame he hf

theorem GeometryKept.of_nextInstant (h : NextInstant s t) : GeometryKept s t := by
  cases h with
  | @access it rest _ busy next due lands =>
    rcases land_busy busy it.event rest with ⟨u, hu, k⟩ | ⟨u, hu, k⟩ | ⟨u, hu⟩ <;> rw [hu] at lands
    · obtain rfl : u = t := by simpa using lands
      exact .of_landed k
    · obtain rfl : u = t := by simpa using lands
      exact .of_endedBy k
    · simp at lands
  | action _ _ does => exact (geometryKept_nearer s).trans (.of_action does)
  | port _ completes =>
    obtain ⟨he, -, hf, -⟩ := portCompletes_frame completes
    exact .of_frame he hf

theorem GeometryKept.of_leads {l : List State} (h : Leads s l) : GeometryKept s (l.getLastD s) := by
  induction l generalizing s with
  | nil => exact .of_eq rfl rfl
  | cons u l ih =>
    rw [List.getLastD_cons]
    exact (of_nextInstant h.1).trans (ih h.2)

/-- A host access as a step of its own: INIT is not legal while an image is in progress (R132). -/
theorem Accessed.geometryKept {rest : List BusItem} (hi : imageInProgress s.eng.state = true) (h : Accessed rest s t) :
    GeometryKept s t := by
  cases h with
  | landed h => exact .of_landed h
  | positioned _ _ | line _ => exact .of_eq rfl rfl
  | refused c w _ _ => exact (GeometryKept.of_landed (landed_taken rest s)).trans (geometryKept_takeFault c w _)
  | init hst => rcases hst with hst | hst <;> rw [hst] at hi <;> cases hi
  | reset => exact .of_reset rfl

theorem GeometryKept.of_stepBlock (h : stepBlock s = .next t) : GeometryKept s t := by
  by_cases hb : Busy s
  · cases hp : inFlight s.ports with
    | true => rw [stepBlock, if_pos hb, if_pos hp] at h; cases h
    | false =>
      rw [stepBlock_of_busy hb hp, stepEngine_eq] at h
      obtain ⟨hleads, hends⟩ := completes_taskActions s s hb
      have hlast := of_leads hleads
      rcases next_of_endsAt hends h with rfl | ⟨-, -, rfl⟩
      · exact hlast
      · exact hlast.trans (geometryKept_nearer _)
  · rw [stepBlock, if_neg hb] at h
    cases hc : portCompletes s with
    | none => rw [hc] at h; cases h; exact .of_eq rfl rfl
    | some u =>
      rw [hc] at h
      cases h
      obtain ⟨he, -, hf, -⟩ := portCompletes_frame hc
      exact .of_frame he hf

/-- Settles O48: each instant of a step keeps the geometry, and so does a host access that is a step of its own. -/
theorem geometryIsLatched : Obligations.GeometryIsLatched := by
  unfold Obligations.GeometryIsLatched
  intro s t hi ht hr
  have hkept : GeometryKept s t := by
    cases hm : hostMoves s with
    | true =>
      obtain ⟨it, rest, -, hstep⟩ := step_of_hostMoves hm
      exact (accessed_of_stepHost (hstep ▸ ht)).geometryKept hi
    | false => exact .of_stepBlock (step_of_not_hostMoves hm ▸ ht)
  simpa only [geometry, Prod.mk.injEq] using hkept.same hr

end Geometry
end Sys2Proof.Machine

namespace Sys2Proof.Machine
/-! # Registers as the host reads them (O1, O4, O6) -/

section RegisterReads

variable {s : State} {index : BitVec 6} {r : Reg}

/-! ## The interrupt line -/

/-- Settles O6: a word is not 0 exactly when one of its bits is set. -/
theorem irqIsAnEnabledPendingBit : Obligations.IrqIsAnEnabledPendingBit := by
  unfold Obligations.IrqIsAnEnabledPendingBit
  intro h
  rw [irq, decide_eq_true_iff, ne_eq, BitVec.eq_of_getLsbD_eq_iff]
  simp

/-! ## After a hardware reset -/

/-- Settles O1: each of the 64 offsets is read from the reset state, in which no RAM lists an entry. -/
theorem resetRegistersReadSpecValues : Obligations.ResetRegistersReadSpecValues := by
  unfold Obligations.ResetRegistersReadSpecValues
  exact ⟨by decide, rfl, rfl, rfl, rfl, rfl, rfl, rfl, rfl, fun j => ⟨rfl, rfl, rfl, rfl⟩⟩

/-! ## The words of the register map -/

theorem toNat_append_eq_add {n m : Nat} (x : BitVec n) (y : BitVec m) : (x ++ y).toNat = 2 ^ m * x.toNat + y.toNat := by
  rw [BitVec.toNat_append, ← Nat.shiftLeft_add_eq_or_of_lt y.isLt, Nat.shiftLeft_eq, Nat.mul_comm]

/-- The fields of STATUS stand at their places (R56). -/
theorem statusWord_toNat (e : Engine) : (statusWord e).toNat =
    (stateBits e.state).toNat + 2 ^ 3 * (isBusy e.state).toNat + 2 ^ 4 * (decide (e.state = .fault)).toNat +
      2 ^ 5 * e.skipped.toNat + 2 ^ 8 * e.faultKind.toNat + 2 ^ 12 * e.faultCause.toNat := by
  simp only [statusWord, bit, toNat_append_eq_add, BitVec.toNat_ofBool, BitVec.toNat_ofNat]
  omega

/-! ## What a read returns, and what it leaves alone -/

/-- A read changes nothing but the counter of free draws and the record of what was read. -/
theorem doRead_frame (index : BitVec 6) (s : State) :
    (doRead index s).eng = s.eng ∧ (doRead index s).host = s.host ∧ (doRead index s).mem = s.mem ∧
      (doRead index s).ports = s.ports ∧ (doRead index s).free.resets = s.free.resets ∧
      (doRead index s).env = { s.env with reads := s.env.reads ++ [{ index := index, value := (readReg index s).1 }] } := by
  have hstate : (readReg index s).2 = s ∨ (readReg index s).2 = s.drawn := by
    rw [readReg]
    split
    next => exact .inl rfl
    next => split <;> simp
  rw [doRead]
  rcases hstate with h | h <;> rw [h] <;> exact ⟨rfl, rfl, rfl, rfl, rfl, rfl⟩

theorem readReg_exact (hr : regAt index = some r) (hm : busyMask r = none) :
    (readReg index s).1 = exactValue r s.eng s.host := by
  simp only [readReg, hr, hm]
  cases isBusy s.eng.state <;> rfl

/-- A diagnostic register read while BUSY has no bit outside its defined fields (R78, U4). -/
theorem readReg_masked {mask reserved : Word} (hb : isBusy s.eng.state = true) (hr : regAt index = some r)
    (hm : busyMask r = some mask) (h : mask &&& reserved = 0) : (readReg index s).1 &&& reserved = 0 := by
  simp only [readReg, hr, hb, hm]
  rw [BitVec.and_assoc, h]
  exact BitVec.and_zero

theorem readReg_reserved (hr : regAt index = none) : (readReg index s).1 = 0 := by
  simp only [readReg, hr]
  rfl

theorem regAt_of_le : ∀ index : BitVec 6, 16 ≤ index.toNat → regAt index = none := by decide

theorem regAt_of_toNat {k : Nat} (hk : index.toNat = k) (h : regAt (BitVec.ofNat 6 k) = some r) : regAt index = some r := by
  rw [← h, ← hk, BitVec.ofNat_toNat, BitVec.setWidth_eq]

theorem toNat_zero_append {n m : Nat} (x : BitVec m) : (0#n ++ x).toNat = x.toNat := by simp

/-- An access that is due lands before anything else (R228). -/
theorem step_of_due {event : HostEvent} {rest : List BusItem} (h : s.env.bus = { gap := 0, event := event } :: rest) :
    step s = stepHost event rest s := by
  rw [step, h]
  exact if_pos (by simp [hostMoves, h])

/-- Settles O4: the register at each offset is read exactly, or under the mask of its defined fields. -/
theorem busyReadsKeepStatusExact : Obligations.BusyReadsKeepStatusExact := by
  unfold Obligations.BusyReadsKeepStatusExact
  intro s index rest hbus hb
  obtain ⟨heng, hhost, hmem, hports, hresets, henv⟩ := doRead_frame index (taken rest s)
  have reads {k : Nat} {r : Reg} (hk : index.toNat = k) (h : regAt (BitVec.ofNat 6 k) = some r) (hm : busyMask r = none) :
      (readReg index (taken rest s)).1 = exactValue r s.eng s.host := readReg_exact (regAt_of_toNat hk h) hm
  have field {k n : Nat} {r : Reg} (hk : index.toNat = k) (h : regAt (BitVec.ofNat 6 k) = some r) (hm : busyMask r = none)
      (hv : (exactValue r s.eng s.host).toNat = n) : (readReg index (taken rest s)).1.toNat = n :=
    (congrArg BitVec.toNat (reads hk h hm)).trans hv
  have masked {k : Nat} {r : Reg} {mask reserved : Word} (hk : index.toNat = k) (h : regAt (BitVec.ofNat 6 k) = some r)
      (hm : busyMask r = some mask) (hd : mask &&& reserved = 0) : (readReg index (taken rest s)).1 &&& reserved = 0 :=
    readReg_masked (s := taken rest s) hb (regAt_of_toNat hk h) hm hd
  have hstatus : (statusWord s.eng).toNat = (stateBits s.eng.state).toNat + 2 ^ 3 + 2 ^ 5 * s.eng.skipped.toNat +
      2 ^ 8 * s.eng.faultKind.toNat + 2 ^ 12 * s.eng.faultCause.toNat := by
    rw [statusWord_toNat, hb, decide_eq_false (ne_fault_of_busy hb)]
    simp
  exact ⟨doRead index (taken rest s), (readReg index (taken rest s)).1, (step_of_due hbus).trans rfl, heng, hhost, hmem,
    hports, hresets, henv, fun hk => field hk rfl rfl ((toNat_zero_append (bit _)).trans (BitVec.toNat_ofBool _)),
    fun hk => field hk rfl rfl (toNat_zero_append _), fun hk => field hk rfl rfl (toNat_zero_append _),
    fun hk => reads hk rfl rfl, fun hk => field hk rfl rfl hstatus, fun hk => field hk rfl rfl (toNat_zero_append _),
    fun hk => field hk rfl rfl (toNat_zero_append _), fun hk => reads hk rfl rfl,
    fun hk => masked hk rfl rfl (by decide), fun hk => masked hk rfl rfl (by decide), fun hk => masked hk rfl rfl (by decide),
    fun hk => masked hk rfl rfl (by decide), fun hk => masked hk rfl rfl (by decide), fun hk => masked hk rfl rfl (by decide),
    fun hk => masked hk rfl rfl (by decide), fun hk => readReg_reserved (regAt_of_le index hk)⟩

end RegisterReads
end Sys2Proof.Machine

namespace Sys2Proof.Machine
/-! # ReadCode takes the next bits of the code stream (O22)

`Fill` buffers CODE_WIDTH bits and loses none of the stream (`fill_quiet`); the buffered bits are then those of the code that
leaves and those that stay (`buffered_split`). -/

section CodeStream

/-- What `BumpRunningCode()` leaves in the registers is the count of one more code (R166, R167). -/
theorem bumped_eq_counted (e : Engine) : bumped e = counted e := by
  simp only [bumped, counted]
  by_cases hr : e.runningCode.toNat < 4097
  · by_cases hg : e.maxCode1.toNat < e.runningCode.toNat + 1 ∧ e.codeWidth.toNat < 12
    · simp only [if_pos hr, if_pos hg, if_pos (And.intro hr hg)]
    · simp only [if_pos hr, if_neg hg, if_neg (fun h : _ ∧ _ => hg h.2)]
  · simp only [if_neg hr, if_neg (fun h : _ ∧ _ => hr h.1)]

/-- The registers of a `ReadCode()` after its `Fill()`: the code is consumed and counted (R165). -/
abbrev codeTaken (e : Engine) : Engine := counted (consumed e.codeWidth e)

/-- The pending bits are those of the code at the bottom of SHIFT_ACC, then those that are pending once it is taken. -/
theorem pendingBits_codeTaken {s : State} (hw : s.eng.codeWidth.toNat ≤ 12)
    (hb : s.eng.codeWidth.toNat ≤ s.eng.shiftState.toNat) :
    pendingBits s = encodeCodeBits s.eng.codeWidth.toNat (lowBits s.eng.shiftAcc s.eng.codeWidth.toNat) ++
      pendingBits (s.mapEng codeTaken) := by
  rw [pendingBits, buffered_split hw hb, List.append_assoc]
  rfl

/-- A stream that begins with the bits of a code tells the code and the rest. -/
theorem encodeCodeBits_append_inj {w : Nat} {c d : Code} {more rest : List Bool} (hc : c.toNat < 2 ^ w)
    (hd : d.toNat < 2 ^ w) (h : encodeCodeBits w c ++ more = encodeCodeBits w d ++ rest) : c = d ∧ more = rest := by
  obtain ⟨hcode, hrest⟩ := List.append_inj h (by simp [encodeCodeBits])
  exact ⟨encodeCodeBits_inj hc hd hcode, hrest⟩

/-- Settles O22: after `Fill` the code stands at the bottom of SHIFT_ACC (`pendingBits_codeTaken`), and its bits tell it. -/
theorem readCodeTakesTheNextBitsOfTheStream : Obligations.ReadCodeTakesTheNextBitsOfTheStream := by
  unfold Obligations.ReadCodeTakesTheNextBitsOfTheStream
  intro s c more hq hfair hw hacc hpos hc hpend
  have henough : s.eng.codeWidth.toNat ≤ (pendingBits s).length := by simp [hpend, encodeCodeBits]
  obtain ⟨t, hfill, honly, hacct, hpost, hbits, hkept⟩ := fill_quiet 2 hq hfair.1 hw hacc hpos (by omega) henough
  have hwidth : t.eng.codeWidth = s.eng.codeWidth := by rw [honly.eng]
  rw [← hwidth] at hw hc hpend hbits
  obtain ⟨rfl, rfl⟩ := encodeCodeBits_append_inj hc (by rw [lowBits_toNat hw]; exact Nat.mod_lt _ (Nat.two_pow_pos _))
    (hpend.symm.trans (hkept.symm.trans (pendingBits_codeTaken hw hbits)))
  refine ⟨t.mapEng codeTaken, ?_, rfl, consumed_lt hbits hacct, hpost, ?_, honly.table, honly.stack, honly.sink,
    honly.host, honly.free, honly.bus, honly.reads⟩
  · rw [readCode_quiet (hwidth ▸ hw) hfill (honly.bus.trans hq) hwidth, ← hwidth]
    simp only [bumped_eq_counted, State.mapEng]
  · rw [mapEng_eng, honly.eng]
    rfl

end CodeStream
end Sys2Proof.Machine

namespace Sys2Proof.Machine
/-! # What every instant keeps, a step keeps; the RAMs and the byte source (O51, O52, O47) -/

section KeptByInstants

variable {s t u : State}

/-! ## From instants to steps -/

/-- An assertion that every instant keeps (R8, R92), and that an access which comes nearer does not touch. -/
structure KeptByInstants (P : State → Prop) : Prop where
  next : ∀ s t, P s → NextInstant s t → P t
  nearer : ∀ s, P s → P (nearer s)

variable {P : State → Prop}

theorem KeptByInstants.leads (hP : KeptByInstants P) {l : List State} (hs : P s) (h : Leads s l) : P (l.getLastD s) := by
  induction l generalizing s with
  | nil => exact hs
  | cons u l ih =>
    rw [List.getLastD_cons]
    exact ih (hP.next s u hs h.1) h.2

/-- A step in which no host access lands first ends at an instant of its task, or waits for a port there, or is the one
instant of a port that completes. -/
theorem KeptByInstants.stepBlock (hP : KeptByInstants P) (hs : P s) (h : stepBlock s = .next t) : P t := by
  by_cases hb : Busy s
  · cases hp : inFlight s.ports with
    | true => rw [Machine.stepBlock, if_pos hb, if_pos hp] at h; cases h
    | false =>
      rw [stepBlock_of_busy hb hp, stepEngine_eq] at h
      obtain ⟨hleads, hends⟩ := completes_taskActions s s hb
      have hlast := hP.leads hs hleads
      rcases next_of_endsAt hends h with rfl | ⟨-, -, rfl⟩
      · exact hlast
      · exact hP.nearer _ hlast
  · rw [Machine.stepBlock, if_neg hb] at h
    cases hc : portCompletes s with
    | none => rw [hc] at h; cases h; exact hs
    | some u => rw [hc] at h; cases h; exact hP.next s t hs (.port (by simpa using hb) hc)

/-- An access that lands as one instant while a command is in progress lets it go on or ends it. -/
theorem landed_or_endedBy {it : BusItem} {rest : List BusItem} (hb : Busy s)
    (h : (land it.event rest).run s = .ok () t ∨ (land it.event rest).run s = .error .ended t) :
    Landed s t ∨ EndedBy s t := by
  rcases land_busy hb it.event rest with ⟨u, hu, k⟩ | ⟨u, hu, k⟩ | ⟨u, hu⟩ <;> rw [hu] at h
  · obtain rfl : u = t := by simpa using h
    exact .inl k
  · obtain rfl : u = t := by simpa using h
    exact .inr k
  · simp at h

/-! ## The RAMs in canonical form (R80 to R83) -/

theorem takeFault_mem (c : Cause) (info : Word) (s : State) : (takeFault c info s).mem = s.mem := by
  rw [takeFault]
  split_ifs <;> rfl

theorem nearer_mem (s : State) : (nearer s).mem = s.mem := by
  rw [nearer]
  split <;> rfl

theorem WritesRam.wf {m m' : Memory} (h : WritesRam m m') (hm : m.wf = true) : m'.wf = true := by
  cases h with
  | prefixEntry j v hj => exact wf_setPrefix hm hj v
  | suffixEntry j v hj => exact wf_setSuffix hm hj v
  | stackEntry j v hj => exact wf_setStack hm hj v
  | sbbufEntry k v hk => exact wf_setSbbuf hm hk v
  | clear => exact wf_clearPrefix hm

/-- The RAMs change by writes of entries only. -/
theorem EngineAction.wf (h : EngineAction s t) (hs : s.mem.wf = true) : t.mem.wf = true := by
  cases h with
  | ram hw => exact hw.wf hs
  | assign _ | setUpDone | lineDone | imageDone | request | offer _ | offerSkip => exact hs
  | fault c info _ => rwa [takeFault_mem]
  | answer ha =>
    obtain ⟨-, hm, -, -⟩ := sourceAnswers_frame ha
    rwa [hm]
  | accept ha =>
    obtain ⟨-, hm, -, -, -⟩ := sinkAccepts_frame ha
    rwa [hm]

theorem EndedBy.wf (h : EndedBy s t) (hs : s.mem.wf = true) : t.mem.wf = true := by
  cases h with
  | refused _ _ _ _ mem => rwa [mem]
  | reset _ mem => rw [mem]; exact wf_unwritten

theorem NextInstant.wf (h : NextInstant s t) (hs : s.mem.wf = true) : t.mem.wf = true := by
  cases h with
  | access busy _ _ lands =>
    rcases landed_or_endedBy busy lands with k | k
    · rwa [k.mem]
    · exact k.wf hs
  | action _ _ does => exact does.wf (by rwa [nearer_mem])
  | port _ completes =>
    obtain ⟨-, hm, -, -⟩ := portCompletes_frame completes
    rwa [hm]

theorem Accessed.wf {rest : List BusItem} (h : Accessed rest s t) (hs : s.mem.wf = true) : t.mem.wf = true := by
  cases h with
  | landed k => rwa [k.mem]
  | positioned _ _ | init _ | line _ => exact hs
  | refused c w _ _ => rwa [takeFault_mem]
  | reset => exact wf_unwritten

theorem keptByInstants_wf : KeptByInstants fun s => s.mem.wf = true where
  next _ _ hs h := h.wf hs
  nearer s hs := by rwa [nearer_mem]

/-- Settles O51: no RAM lists an entry at reset. -/
theorem resetRamsAreCanonical : Obligations.ResetRamsAreCanonical := by
  unfold Obligations.ResetRamsAreCanonical
  exact wf_reset

/-- Settles O52: each instant of a step keeps the form (`NextInstant.wf`), and so does a host access that is a step of its
own. -/
theorem stepKeepsRamsCanonical : Obligations.StepKeepsRamsCanonical := by
  unfold Obligations.StepKeepsRamsCanonical
  intro s t hs ht
  cases hm : hostMoves s with
  | true =>
    obtain ⟨it, rest, -, hstep⟩ := step_of_hostMoves hm
    exact (accessed_of_stepHost (hstep ▸ ht)).wf hs
  | false => exact keptByInstants_wf.stepBlock hs (step_of_not_hostMoves hm ▸ ht)

/-! ## The byte source is read forwards (R22, R90) -/

/-- From s to t the source has only been read: its bytes are the same, its cursor has not moved back, nor past their end; and
the host's accesses to come are the same. -/
structure ReadForwards (s t : State) : Prop where
  bus : t.env.bus = s.env.bus
  buffer : t.env.source.buffer = s.env.source.buffer
  cursor : s.env.source.cursor ≤ t.env.source.cursor
  inside : s.env.source.cursor ≤ s.env.source.buffer.length → t.env.source.cursor ≤ t.env.source.buffer.length

theorem ReadForwards.trans (h : ReadForwards s t) (k : ReadForwards t u) : ReadForwards s u where
  bus := k.bus.trans h.bus
  buffer := k.buffer.trans h.buffer
  cursor := h.cursor.trans k.cursor
  inside hs := k.inside (h.inside hs)

theorem ReadForwards.of_eq (hb : t.env.bus = s.env.bus) (hu : t.env.source.buffer = s.env.source.buffer)
    (hc : t.env.source.cursor = s.env.source.cursor) : ReadForwards s t :=
  ⟨hb, hu, hc.ge, fun hs => by rwa [hc, hu]⟩

theorem ReadForwards.of_env (h : t.env = s.env) : ReadForwards s t := .of_eq (by rw [h]) (by rw [h]) (by rw [h])

/-- `Byte(b)` moves the cursor by one, over a byte that is there; `Exhausted` leaves it (R60). -/
theorem ReadForwards.of_answer {byte : Option Byte} (h : sourceAnswers s = some (byte, t)) : ReadForwards s t := by
  simp only [sourceAnswers] at h
  split at h <;> cases h
  cases hbyte : s.env.source.buffer[s.env.source.cursor]? with
  | none => exact .of_eq rfl rfl rfl
  | some b => exact ⟨rfl, rfl, Nat.le_succ _, fun _ => (List.getElem?_eq_some_iff.mp hbyte).1⟩

theorem ReadForwards.of_accept (h : sinkAccepts s = some t) : ReadForwards s t := by
  simp only [sinkAccepts] at h
  split at h <;> cases h
  exact .of_eq rfl rfl rfl

theorem takeFault_env (c : Cause) (info : Word) (s : State) : (takeFault c info s).env = s.env := by
  rw [takeFault]
  split_ifs <;> rfl

/-- No action of the engine but a request that is answered touches the source's bytes or its cursor. -/
theorem ReadForwards.of_action (h : EngineAction s t) : ReadForwards s t := by
  cases h with
  | assign _ | ram _ | setUpDone | lineDone | imageDone | request | offer _ | offerSkip => exact .of_eq rfl rfl rfl
  | fault c info _ => exact .of_env (takeFault_env c info s)
  | answer h => exact .of_answer h
  | accept h => exact .of_accept h

theorem ReadForwards.of_port (h : portCompletes s = some t) : ReadForwards s t := by
  rw [portCompletes] at h
  split at h
  next =>
    obtain ⟨⟨byte, u⟩, ha, rfl⟩ := Option.map_eq_some_iff.mp h
    exact .of_answer ha
  next => exact .of_accept h

theorem nearer_quiet (hq : Quiet s) : nearer s = s := by
  rw [nearer, hq]

theorem ReadForwards.of_nextInstant (hq : Quiet s) (h : NextInstant s t) : ReadForwards s t := by
  cases h with
  | access _ next => rw [hq] at next; cases next
  | action _ _ does => exact .of_action (nearer_quiet hq ▸ does)
  | port _ completes => exact .of_port completes

theorem keptByInstants_readForwards (hq : Quiet s) : KeptByInstants (ReadForwards s) where
  next t _ h hn := h.trans (.of_nextInstant (h.bus.trans hq) hn)
  nearer t h := by rwa [nearer_quiet (h.bus.trans hq)]

theorem step_quiet (hq : Quiet s) : step s = stepBlock s := by
  rw [step, hq]

/-- The host's access that positions the source, when it is due: the new bytes between two images, no behaviour inside one
(R254, R263). -/
theorem step_position {bytes : List Byte} {rest : List BusItem}
    (h : s.env.bus = { gap := 0, event := .position bytes } :: rest) :
    step s = if imageInProgress s.eng.state then .fault .streamChangedInImage
      else .next (positionSource bytes (taken rest s)) := by
  have hland : (land (.position bytes) rest).run s =
      if imageInProgress s.eng.state then .error (.undefined .streamChangedInImage) (taken rest s)
      else .ok () (positionSource bytes (taken rest s)) := by
    rw [land, run_did]
    rfl
  have hstep : step s = Eng.outcome (land (.position bytes) rest) s := step_of_due h
  rw [hstep, Eng.outcome, hland]
  split_ifs <;> rfl

/-- Settles O47: each instant of a quiet step reads the source forwards (`ReadForwards.of_nextInstant`); an access that positions
it is one write of its bytes, and a stop inside an image. -/
theorem streamIsReadForwards : Obligations.StreamIsReadForwards := by
  unfold Obligations.StreamIsReadForwards
  refine ⟨fun s t hq ht => ?_, fun s bytes rest hbus => ⟨fun hst => ?_, fun hi => ?_⟩⟩
  · have h := (keptByInstants_readForwards hq).stepBlock (.of_env rfl) (step_quiet hq ▸ ht)
    exact ⟨h.buffer, h.cursor, h.inside⟩
  · have hi : imageInProgress s.eng.state = false := by rcases hst with h | h | h <;> rw [h] <;> rfl
    exact ⟨positionSource bytes (taken rest s), by rw [step_position hbus, hi]; rfl, rfl, rfl⟩
  · rw [step_position hbus, hi]
    rfl

end KeptByInstants
end Sys2Proof.Machine

namespace Sys2Proof.Machine
/-! # The decoder and the CMD write (O7, O8, O9, O12, O16)

A CMD word below 16 is one OPCODE with the reserved bits zero, and only such words decode (R100 to R102); the class of
a code is the one whose condition of R108 it meets. -/

section Encoding

/-! ## The two fields of a CMD word -/

@[simp] theorem opcodeField_commandWord (op : BitVec 4) : opcodeField (commandWord op) = op :=
  BitVec.extractLsb'_append_eq_right

@[simp] theorem reservedField_commandWord (op : BitVec 4) : reservedField (commandWord op) = 0#28 :=
  BitVec.extractLsb'_append_eq_left

theorem commandWord_toNat (op : BitVec 4) : (commandWord op).toNat = op.toNat := toNat_zero_append op

/-- The reserved bits are zero exactly in the words of an OPCODE alone. -/
theorem reservedField_eq_zero_iff {w : Word} : reservedField w = 0#28 ↔ w.toNat < 16 := by
  have hfield : (reservedField w).toNat = w.toNat / 16 := by
    rw [reservedField, BitVec.extractLsb'_toNat, Nat.shiftRight_eq_div_pow]
    exact Nat.mod_eq_of_lt (by omega)
  rw [← BitVec.toNat_inj, hfield, BitVec.toNat_ofNat]
  omega

/-- A word with no reserved bit set is the word of its OPCODE. -/
theorem commandWord_opcodeField {w : Word} (h : w.toNat < 16) : commandWord (opcodeField w) = w := by
  apply BitVec.eq_of_toNat_eq
  rw [commandWord_toNat, opcodeField, BitVec.extractLsb'_toNat, Nat.shiftRight_zero]
  exact Nat.mod_eq_of_lt h

/-! ## What a CMD word decodes to (R101, R102) -/

@[simp] theorem decodeCommand_commandWord (op : BitVec 4) : decodeCommand (commandWord op) = .ok (decodeOpcode op) := by
  rw [decodeCommand, reservedField_commandWord, opcodeField_commandWord, if_neg (not_not.mpr rfl)]

theorem decodeCommand_of_le {w : Word} (h : 16 ≤ w.toNat) : decodeCommand w = .error (.reservedBits w) := by
  rw [decodeCommand, if_pos]
  exact fun k => absurd (reservedField_eq_zero_iff.mp k) (by omega)

/-- Only the word of an OPCODE decodes, and to what the opcode map has there. -/
theorem exists_opcode_of_decodeCommand {w : Word} {i : Instr} (h : decodeCommand w = .ok i) :
    ∃ op, w = commandWord op ∧ i = decodeOpcode op := by
  by_cases hw : w.toNat < 16
  · rw [← commandWord_opcodeField hw, decodeCommand_commandWord] at h
    exact ⟨opcodeField w, (commandWord_opcodeField hw).symm, (Except.ok.inj h).symm⟩
  · rw [decodeCommand_of_le (by omega)] at h
    cases h

theorem decodeOpcode_of_le {op : BitVec 4} (h : 3 ≤ op.toNat) : decodeOpcode op = .reservedCommand op := by
  have hne {v : BitVec 4} (hv : v.toNat < 3) : op ≠ v := by
    rintro rfl
    omega
  rw [decodeOpcode, if_neg (hne (by decide)), if_neg (hne (by decide)), if_neg (hne (by decide))]

theorem encode_decodeOpcode (op : BitVec 4) : encode (decodeOpcode op) = .command (commandWord op) := by
  rw [decodeOpcode]
  split_ifs with h0 h1 h2
  · rw [h0, encode]
  · rw [h1, encode]
  · rw [h2, encode]
  · rfl

theorem wellFormed_decodeOpcode (x : CodeCtx) (op : BitVec 4) : (decodeOpcode op).wellFormed x = true := by
  rw [decodeOpcode]
  split_ifs with h0 h1 h2
  · rfl
  · rfl
  · rfl
  · exact decide_eq_true (by bv_omega)

/-- Settles O7: the words below 16 are those of an OPCODE, the others have a reserved bit set. -/
theorem commandWordsDecodeAsTheOpcodeMap : Obligations.CommandWordsDecodeAsTheOpcodeMap := by
  unfold Obligations.CommandWordsDecodeAsTheOpcodeMap
  exact ⟨decodeCommand_commandWord 0x0, decodeCommand_commandWord 0x1, decodeCommand_commandWord 0x2,
    decodeCommand_commandWord 0x3, decodeCommand_commandWord 0xF, decodeCommand_of_le (by decide),
    decodeCommand_of_le (by decide)⟩

/-! ## The class of a code (R108) -/

theorem encode_classify (x : CodeCtx) (c : Code) : encode (classify x c) = .code c := by
  rw [classify]
  split_ifs <;> rfl

/-- A code that is none of END, CLEAR and PIXEL is a TABLE code. -/
theorem endCode_lt {x : CodeCtx} {c : Code} (hend : c.toNat ≠ x.endCode) (hclear : c.toNat ≠ x.clearCode)
    (hpixel : ¬c.toNat < x.clearCode) : x.endCode < c.toNat := by
  rw [CodeCtx.endCode] at hend ⊢
  omega

/-- A TABLE code is told by its entry of PREFIX and by whether it is the next code. -/
theorem classify_of_endCode_lt {x : CodeCtx} {c : Code} (h : x.endCode < c.toNat) :
    classify x c = if x.defined then .known c else if x.isNext c then .kwkwk c else .invalid c := by
  have hclear : x.clearCode < c.toNat := Nat.lt_of_succ_lt h
  rw [classify, if_neg h.ne', if_neg hclear.ne', if_neg hclear.not_gt]

/-- The tests of R108, in their order, leave each class its own condition. -/
theorem wellFormed_classify (x : CodeCtx) (c : Code) : (classify x c).wellFormed x = true := by
  rw [classify]
  split_ifs with hend hclear hpixel hdefined hnext
  · exact decide_eq_true hend
  · exact decide_eq_true hclear
  · exact decide_eq_true hpixel
  · simp [Instr.wellFormed, endCode_lt hend hclear hpixel, hdefined]
  · simp [Instr.wellFormed, endCode_lt hend hclear hpixel, hdefined, hnext]
  · simp [Instr.wellFormed, endCode_lt hend hclear hpixel, hdefined, hnext]

/-- The conditions of R108 exclude one another, so a code has no class but its own. -/
theorem classify_of_wellFormed {x : CodeCtx} {i : Instr} {c : Code} (hi : i.wellFormed x = true) (hc : encode i = .code c) :
    classify x c = i := by
  have hend : x.endCode = x.clearCode + 1 := rfl
  cases i <;> cases hc <;> simp only [Instr.wellFormed, Bool.and_eq_true, Bool.not_eq_true', decide_eq_true_eq] at hi
  case endCode => rw [classify, if_pos hi]
  case clear => rw [classify, if_neg (by omega), if_pos hi]
  case pixel => rw [classify, if_neg (by omega), if_neg hi.ne, if_pos hi]
  case known =>
    obtain ⟨htable, hdefined⟩ := hi
    rw [classify_of_endCode_lt htable, if_pos hdefined]
  case kwkwk =>
    obtain ⟨⟨htable, hdefined⟩, hnext⟩ := hi
    rw [classify_of_endCode_lt htable, if_neg (by simp [hdefined]), if_pos hnext]
  case invalid =>
    obtain ⟨⟨htable, hdefined⟩, hnext⟩ := hi
    rw [classify_of_endCode_lt htable, if_neg (by simp [hdefined]), if_neg (by simp [hnext])]

/-! ## Decode and encode -/

theorem decode_encode {x : CodeCtx} {i : Instr} (hi : i.wellFormed x = true) : decode x (encode i) = .ok i := by
  cases i with
  | nop => exact decodeCommand_commandWord 0x0
  | init => exact decodeCommand_commandWord 0x1
  | line => exact decodeCommand_commandWord 0x2
  | reservedCommand op =>
    exact (decodeCommand_commandWord op).trans (congrArg Except.ok (decodeOpcode_of_le (of_decide_eq_true hi)))
  | _ => exact congrArg Except.ok (classify_of_wellFormed hi rfl)

/-- Settles O8: a CMD word decodes by the opcode map of its one field (`exists_opcode_of_decodeCommand`), a code by the conditions
of R108, which exclude one another (`classify_of_wellFormed`). -/
theorem decodeAndEncodeAgree : Obligations.DecodeAndEncodeAgree := by
  unfold Obligations.DecodeAndEncodeAgree
  refine fun x => ⟨fun i => decode_encode, fun e i h => ?_⟩
  cases e with
  | command w =>
    obtain ⟨op, rfl, rfl⟩ := exists_opcode_of_decodeCommand h
    exact ⟨wellFormed_decodeOpcode x op, encode_decodeOpcode op⟩
  | code c =>
    cases h
    exact ⟨wellFormed_classify x c, encode_classify x c⟩

/-! ## What a CMD write does (R102, R131, R132) -/

/-- A CommandError changes the fault record, STATE and IRQ_STATUS.FAULT (R131, R226). -/
theorem refuseWord_of_ne {s : State} (h : s.eng.state ≠ .fault) (c : Cause) (w : Word) :
    refuseWord c w s = { s with
      eng := { s.eng with state := .fault, faultKind := causeKind c, faultCause := causeCode c, faultInfo := w }
      host := { s.host with irqStatus := s.host.irqStatus ||| 4#3 } } :=
  takeFault_of_ne h c w

theorem writeNop_eq (s : State) : writeNop s = s := by
  rw [writeNop]
  cases s.eng.state <;> rfl

/-- In FAULT the refusal is without effect, so R132's column INIT is one test. -/
theorem writeInit_eq (s : State) :
    writeInit s = if s.eng.state = .idle ∨ s.eng.state = .done then enterInit s else refuseWord .illegalInState 1#32 s := by
  rw [writeInit]
  cases h : s.eng.state with
  | fault => exact (if_pos h).symm
  | _ => rfl

/-- In FAULT the refusal is without effect, so R132's column LINE is one test. -/
theorem writeLine_eq (s : State) :
    writeLine s = if s.eng.state = .ready then enterLine s else refuseWord .illegalInState 2#32 s := by
  rw [writeLine]
  cases h : s.eng.state with
  | fault => exact (if_pos h).symm
  | _ => rfl

theorem writeCmd_of_le {w : Word} (h : 16 ≤ w.toNat) (s : State) : writeCmd w s = refuseWord .reservedBits w s := by
  rw [writeCmd, decodeCommand_of_le h]

theorem writeCmd_of_reserved {w : Word} (hlt : w.toNat < 16) (hle : 3 ≤ w.toNat) (s : State) :
    writeCmd w s = refuseWord .reservedOpcode w s := by
  have hword := commandWord_opcodeField hlt
  have hop : 3 ≤ (opcodeField w).toNat := by rwa [← commandWord_toNat, hword]
  have hdecode : decodeCommand w = .ok (.reservedCommand (opcodeField w)) := by
    rw [← decodeOpcode_of_le hop, ← decodeCommand_commandWord, hword]
  simp only [writeCmd, hdecode, hword]

/-- The tests of R102 after the one for FAULT, in their order. -/
theorem writeCmd_eq (w : Word) (s : State) :
    writeCmd w s =
      if 16 ≤ w.toNat then refuseWord .reservedBits w s
      else if 3 ≤ w.toNat then refuseWord .reservedOpcode w s
      else if w = 0#32 then s
      else if w = 1#32 then writeInit s
      else writeLine s := by
  split_ifs with hbits hopcode hnop hinit
  · exact writeCmd_of_le hbits s
  · exact writeCmd_of_reserved (by omega) hopcode s
  · subst hnop
    exact writeNop_eq s
  · subst hinit
    rfl
  · obtain rfl : w = 2#32 := by bv_omega
    rfl

/-- A CMD write that is due, with `rst` released, is this step (R130, R228). -/
theorem step_cmdWrite {s : State} {w : Word} {rest : List BusItem}
    (hbus : s.env.bus = { gap := 0, event := .write 3#6 w } :: rest) (hrst : s.ports.rst = false) :
    step s = .next (if s.eng.state = .fault then taken rest s else writeCmd w (taken rest s)) := by
  rw [step_of_due hbus]
  show stepCmd w (taken rest s) = _
  rw [stepCmd_eq, mapEnv_ports, hrst]
  rfl

/-- Settles O16: the refusal of a reserved opcode is the fault entry, and its word is the opcode zero-extended. -/
theorem reservedOpcodeFaults : Obligations.ReservedOpcodeFaults := by
  unfold Obligations.ReservedOpcodeFaults
  intro s op hf _
  have hinfo : commandWord op = op.setWidth 32 := BitVec.eq_of_toNat_eq <| by
    rw [commandWord_toNat, BitVec.toNat_setWidth_of_le (by decide)]
  rw [← hinfo]
  exact congrArg _ (refuseWord_of_ne hf .reservedOpcode (commandWord op))

/-- Settles O9: outside FAULT the step is the CMD write, which is what `exec` does with the decoded word, or the refusal. -/
theorem stepExecutesTheCommandWord : Obligations.StepExecutesTheCommandWord := by
  unfold Obligations.StepExecutesTheCommandWord
  intro s w rest hbus hrst hf
  rw [step_cmdWrite hbus hrst, if_neg hf]
  refine ⟨fun i hi => (exec_decoded hi _).symm, fun hw => ?_⟩
  rw [writeCmd_of_le hw]
  exact congrArg _ (refuseWord_of_ne (s := taken rest s) hf .reservedBits w)

/-- Settles O12: the tests of the statement are those of `writeCmd_eq`. -/
theorem cmdWritesAreDecodedInOrder : Obligations.CmdWritesAreDecodedInOrder := by
  unfold Obligations.CmdWritesAreDecodedInOrder
  rintro s _ w rest hbus hrst rfl
  refine ⟨_, step_cmdWrite hbus hrst, fun hf => if_pos hf, fun hf => ?_⟩
  have refused (c : Cause) := refuseWord_of_ne (s := taken rest s) hf c w
  rw [if_neg hf, writeCmd_eq]
  dsimp only
  split_ifs with hbits hopcode hnop hinit hlegal hready
  · exact refused .reservedBits
  · exact refused .reservedOpcode
  · rfl
  · rw [writeInit_eq, mapEnv_eng, if_pos hlegal]
    exact ⟨rfl, rfl⟩
  · rw [writeInit_eq, mapEnv_eng, if_neg hlegal, ← hinit]
    exact refused .illegalInState
  · rw [writeLine_eq, mapEnv_eng, if_pos hready]
    exact ⟨rfl, rfl⟩
  · have hline : w = 2#32 := by bv_omega
    rw [writeLine_eq, mapEnv_eng, if_neg hready, ← hline]
    exact refused .illegalInState

end Encoding
end Sys2Proof.Machine

namespace Sys2Proof.Machine
/-! # The schedule of code widths (O24)

`BumpRunningCode()` is `counted` on the registers, so k of them are `counted` iterated; `OnSchedule` is what the iteration
keeps. -/

section Schedule

variable {m k : Nat} {e : Engine}

theorem bumpTimes_quiet {s : State} (hq : Quiet s) : ∀ k, (bumpTimes k).run s = .ok () (s.mapEng counted^[k])
  | 0 => rfl
  | k + 1 => by
    rw [bumpTimes, run_bind, bumpTimes_quiet hq k]
    show bumpRunningCode.run (s.mapEng counted^[k]) = _
    rw [bumpRunningCode_quiet (s := s.mapEng counted^[k]) hq, funext bumped_eq_counted, Function.iterate_succ']
    rfl

/-- The registers after k codes since an INIT or a CLEAR, m being the minimum code size (R106). -/
structure OnSchedule (m k : Nat) (e : Engine) : Prop where
  running : e.runningCode.toNat = min 4097 (2 ^ m + 2 + k)
  ceiling : e.maxCode1.toNat = 2 ^ e.codeWidth.toNat
  width_le : e.codeWidth.toNat ≤ 12
  /-- Before the first code the width is m + 1, which for m = 0 is too small for RUNNING_CODE. -/
  first : k = 0 → e.codeWidth.toNat = m + 1
  reaches : 1 ≤ k → 2 ^ m + 2 + k ≤ 2 ^ e.codeWidth.toNat ∨ e.codeWidth.toNat = 12
  least : e.codeWidth.toNat = m + 1 ∨ 2 ^ (e.codeWidth.toNat - 1) < 2 ^ m + 2 + k

/-- MAX_CODE1 doubles as CODE_WIDTH grows (R167). -/
theorem ceiling_grow (hc : e.maxCode1.toNat = 2 ^ e.codeWidth.toNat) (hw : e.codeWidth.toNat < 12) :
    (e.codeWidth + 1).toNat = e.codeWidth.toNat + 1 ∧ (e.maxCode1 <<< 1).toNat = 2 ^ (e.codeWidth.toNat + 1) := by
  have hpow : 2 ^ (e.codeWidth.toNat + 1) ≤ 2 ^ 12 := Nat.pow_le_pow_right (by decide) hw
  refine ⟨by bv_omega, ?_⟩
  rw [BitVec.toNat_shiftLeft, hc, Nat.shiftLeft_eq, ← Nat.pow_succ]
  exact Nat.mod_eq_of_lt (by omega)

/-- One growth of the width is enough for the next RUNNING_CODE, also from the width before the first code. -/
theorem OnSchedule.reaches_grow (h : OnSchedule m k e) (hw : e.codeWidth.toNat < 12) :
    2 ^ m + 2 + (k + 1) ≤ 2 ^ (e.codeWidth.toNat + 1) := by
  have hm : 0 < 2 ^ m := Nat.two_pow_pos m
  rw [Nat.pow_succ]
  rcases Nat.eq_zero_or_pos k with hk | hk
  · rw [h.first hk, Nat.pow_succ]
    omega
  · have := h.reaches hk
    omega

/-- RUNNING_CODE at its cap needs the greatest width. -/
theorem OnSchedule.width_of_capped (h : OnSchedule m k e) (hm : m ≤ 8) (hcap : ¬e.runningCode.toNat < 4097) :
    e.codeWidth.toNat = 12 := by
  have hpow : 2 ^ m ≤ 2 ^ 8 := Nat.pow_le_pow_right (by decide) hm
  have hwidth : 2 ^ e.codeWidth.toNat ≤ 2 ^ 12 := Nat.pow_le_pow_right (by decide) h.width_le
  have hrunning := h.running
  have := h.reaches (by omega)
  omega

theorem OnSchedule.next (h : OnSchedule m k e) (hm : m ≤ 8) : OnSchedule m (k + 1) (counted e) := by
  have hrunning := h.running
  rw [← bumped_eq_counted, bumped]
  split_ifs with hlt hgrow
  · obtain ⟨hover, hw⟩ := hgrow
    obtain ⟨hwidth, hceiling⟩ := ceiling_grow h.ceiling hw
    rw [h.ceiling] at hover
    exact {
      running := by bv_omega
      ceiling := hceiling.trans (by rw [hwidth])
      width_le := hwidth.trans_le hw
      first := nofun
      reaches := fun _ => .inl (by simpa only [hwidth] using h.reaches_grow hw)
      least := .inr (by simp only [hwidth, Nat.add_sub_cancel]; omega) }
  · rw [h.ceiling] at hgrow
    have hle := h.width_le
    exact { h with
      running := by bv_omega
      first := nofun
      reaches := fun _ => by
        show _ ≤ 2 ^ e.codeWidth.toNat ∨ e.codeWidth.toNat = 12
        omega
      least := h.least.imp_right Nat.lt_succ_of_lt }
  · have hcap := h.width_of_capped hm hlt
    exact { h with
      running := by omega
      first := nofun
      reaches := fun _ => .inr hcap
      least := h.least.imp_right Nat.lt_succ_of_lt }

theorem OnSchedule.iterate (h : OnSchedule m 0 e) (hm : m ≤ 8) : ∀ k, OnSchedule m k (counted^[k] e)
  | 0 => h
  | k + 1 => by
    rw [Function.iterate_succ_apply']
    exact (h.iterate hm k).next hm

/-- Settles O24: the registers after k codes are `counted` iterated, which keeps to the schedule. -/
theorem codeWidthFollowsTheSchedule : Obligations.CodeWidthFollowsTheSchedule := by
  unfold Obligations.CodeWidthFollowsTheSchedule
  intro s k hq hm hwidth hceiling hrunning
  have hpow : 2 ^ s.eng.minCodeSize.toNat ≤ 2 ^ 8 := Nat.pow_le_pow_right (by decide) hm
  have start : OnSchedule s.eng.minCodeSize.toNat 0 s.eng :=
    { running := by omega
      ceiling := by rw [hceiling, hwidth]
      width_le := by omega
      first := fun _ => hwidth
      reaches := nofun
      least := .inl hwidth }
  have h := start.iterate hm k
  exact ⟨_, bumpTimes_quiet hq k, h.running, h.ceiling, h.width_le, by rintro rfl; rfl,
    fun hk => ⟨h.reaches hk, h.least⟩⟩

end Schedule
end Sys2Proof.Machine

namespace Sys2Proof.Machine
/-! # What the CMD writes of NOP, INIT and LINE do (O11, O13, O14, O15) -/

section CommandEntries

variable {s : State}

/-- Settles O11: in no STATE has a NOP an effect (`writeNop_eq`). -/
theorem nopChangesNothing : Obligations.NopChangesNothing := by
  unfold Obligations.NopChangesNothing
  exact ⟨decodeCommand_commandWord 0x0, fun s => congrArg _ (writeNop_eq s)⟩

/-- Settles O13: where R132 has INIT legal its CMD write is `enterInit`. -/
theorem initEntryLatchesGeometry : Obligations.InitEntryLatchesGeometry := by
  unfold Obligations.InitEntryLatchesGeometry
  intro s hlegal
  exact congrArg _ ((writeInit_eq s).trans (if_pos hlegal))

/-- Settles O15: where R132 has INIT or LINE illegal its CMD write is refused, with its own word as info. -/
theorem illegalCommandsFault : Obligations.IllegalCommandsFault := by
  unfold Obligations.IllegalCommandsFault
  refine fun s hf => ⟨fun hidle hdone => ?_, fun hready => ?_⟩
  · have hillegal : ¬(s.eng.state = .idle ∨ s.eng.state = .done) := not_or.mpr ⟨hidle, hdone⟩
    exact congrArg _ ((writeInit_eq s).trans ((if_neg hillegal).trans (refuseWord_of_ne hf .illegalInState 1#32)))
  · exact congrArg _ ((writeLine_eq s).trans ((if_neg hready).trans (refuseWord_of_ne hf .illegalInState 2#32)))

/-- One row off the count of pixels does not wrap while a row is left (R146). -/
theorem toNat_sub_row {left : BitVec 32} {width : BitVec 16} (h : width.toNat ≤ left.toNat) :
    (left - width.setWidth 32).toNat = left.toNat - width.toNat := by
  have hwidth : (width.setWidth 32).toNat = width.toNat := BitVec.toNat_setWidth_of_le (by decide)
  rw [BitVec.toNat_sub_of_le (BitVec.le_def.mpr (hwidth.trans_le h)), hwidth]

/-- Settles O14: in READY the CMD write of LINE is `enterLine`, whose difference does not wrap. -/
theorem lineEntryTakesOneRow : Obligations.LineEntryTakesOneRow := by
  unfold Obligations.LineEntryTakesOneRow
  intro s hready hrow
  have hleft := toNat_sub_row hrow
  refine ⟨enterLine s, congrArg _ ((writeLine_eq s).trans (if_pos hready)), rfl, hleft, ?_⟩
  calc decide (s.eng.pixelsLeft - s.eng.curWidth.setWidth 32 = 0#32) = true
    _ ↔ (s.eng.pixelsLeft - s.eng.curWidth.setWidth 32).toNat = 0 := by rw [decide_eq_true_iff, ← BitVec.toNat_inj]; rfl
    _ ↔ s.eng.pixelsLeft.toNat = s.eng.curWidth.toNat := by omega

end CommandEntries
end Sys2Proof.Machine

namespace Sys2Proof.Machine
/-! # Register reads while idle, and register writes (O3, O5) -/

section RegisterAccesses

variable {s : State} {index : BitVec 6}

/-! ## Reads while BUSY = 0 -/

/-- While BUSY = 0 a read is no free draw (R78). -/
theorem readReg_idle (hb : isBusy s.eng.state = false) (index : BitVec 6) :
    readReg index s = ((regAt index).elim 0#32 fun r => exactValue r s.eng s.host, s) := by
  rw [readReg]
  cases regAt index with
  | none => rfl
  | some r => simp only [hb]; rfl

/-- The fields of each register at their places, the reserved bits 0 (R51 to R59, R74 to R78). -/
def laidOut (r : Reg) (e : Engine) (h : HostRegs) : Nat :=
  match r with
  | .ctrl => h.interlace.toNat
  | .imgWidth => h.imgWidth.toNat
  | .imgHeight => h.imgHeight.toNat
  | .cmd => 0
  | .status => (stateBits e.state).toNat + 2 ^ 3 * (isBusy e.state).toNat + 2 ^ 4 * (decide (e.state = .fault)).toNat +
      2 ^ 5 * e.skipped.toNat + 2 ^ 8 * e.faultKind.toNat + 2 ^ 12 * e.faultCause.toNat
  | .irqEnable => h.irqEnable.toNat
  | .irqStatus => h.irqStatus.toNat
  | .faultInfo => e.faultInfo.toNat
  | .pixelsLeft => e.pixelsLeft.toNat
  | .position => e.row.toNat + 2 ^ 17 * e.pass.toNat
  | .column => e.col.toNat
  | .diagWidth => e.minCodeSize.toNat + 2 ^ 8 * e.codeWidth.toNat + 2 ^ 16 * e.maxCode1.toNat
  | .diagCodes => clearCode e % 2 ^ 9 + 2 ^ 16 * (endCode e % 2 ^ 9)
  | .diagRun => e.runningCode.toNat + 2 ^ 16 * e.lastCode.toNat
  | .diagStack => e.stackPtr.toNat + 2 ^ 16 * e.sbRem.toNat + 2 ^ 24 * e.sbPos.toNat
  | .diagShift => e.shiftAcc.toNat + 2 ^ 24 * e.shiftState.toNat

theorem exactValue_toNat (r : Reg) (e : Engine) (h : HostRegs) : (exactValue r e h).toNat = laidOut r e h := by
  cases r with
  | status => exact statusWord_toNat e
  | _ =>
    simp only [exactValue, laidOut, bit, toNat_append_eq_add, BitVec.toNat_ofBool, BitVec.toNat_ofNat] <;> omega

/-- Settles O3: each offset is read as its register laid out (`exactValue_toNat`), a reserved one as 0. -/
theorem idleRegisterReadsLayOutFields : Obligations.IdleRegisterReadsLayOutFields := by
  unfold Obligations.IdleRegisterReadsLayOutFields
  intro s index rest hbus hb
  have hread := readReg_idle (s := taken rest s) hb index
  have hfree : (doRead index (taken rest s)).free = s.free := by rw [doRead, hread]; rfl
  obtain ⟨heng, hhost, hmem, hports, -, henv⟩ := doRead_frame index (taken rest s)
  refine ⟨doRead index (taken rest s), _, (step_of_due hbus).trans rfl, heng, hhost, hmem, hports, hfree, henv, ?_⟩
  have field {k : Nat} {r : Reg} (hk : index.toNat = k) (h : regAt (BitVec.ofNat 6 k) = some r) :
      (readReg index (taken rest s)).1.toNat = laidOut r s.eng s.host := by
    rw [hread, regAt_of_toNat hk h]
    exact exactValue_toNat r s.eng s.host
  split
  -- STATUS, whose BUSY is 0
  case h_4 hk =>
    have hstatus := field hk rfl
    rw [laidOut, hb] at hstatus
    exact hstatus
  -- CMD and the reserved offsets
  case h_16 =>
    simp only [imp_false] at *
    by_cases hcmd : index.toNat = 3
    · exact field hcmd rfl
    · rw [readReg_reserved (regAt_of_le index (by omega))]
      rfl
  all_goals
    rename_i hk
    have hregister := field hk rfl
    exact hregister

/-! ## Writes other than to CMD -/

/-- The host writes a register at these five offsets only; CMD is not one of them (R50, R134). -/
theorem writeReg_readOnly {w : Word} (h0 : index ≠ 0#6) (h1 : index ≠ 1#6) (h2 : index ≠ 2#6) (h5 : index ≠ 5#6)
    (h6 : index ≠ 6#6) (s : State) : writeReg index w s = s := by
  have hreg : ∀ index : BitVec 6, index ≠ 0#6 → index ≠ 1#6 → index ≠ 2#6 → index ≠ 5#6 → index ≠ 6#6 →
      regAt index ≠ some .ctrl ∧ regAt index ≠ some .imgWidth ∧ regAt index ≠ some .imgHeight ∧
        regAt index ≠ some .irqEnable ∧ regAt index ≠ some .irqStatus := by decide
  have hne := hreg index h0 h1 h2 h5 h6
  rw [writeReg]
  revert hne
  cases regAt index with
  | none => exact fun _ => rfl
  | some r =>
    cases r with
    | ctrl | imgWidth | imgHeight | irqEnable | irqStatus => simp
    | _ => exact fun _ => rfl

/-- The host-written registers after a register write (R52 to R54, R57, R58, R134). -/
theorem writeReg_eq (index : BitVec 6) (w : Word) (s : State) :
    writeReg index w s = { s with host :=
      { interlace := if index = 0#6 then w.getLsbD 0 else s.host.interlace
        imgWidth := if index = 1#6 then w.setWidth 16 else s.host.imgWidth
        imgHeight := if index = 2#6 then w.setWidth 16 else s.host.imgHeight
        irqEnable := if index = 5#6 then w.setWidth 3 else s.host.irqEnable
        irqStatus := if index = 6#6 then s.host.irqStatus &&& ~~~(w.setWidth 3) else s.host.irqStatus } } := by
  by_cases h0 : index = 0#6
  · subst h0; rfl
  by_cases h1 : index = 1#6
  · subst h1; rfl
  by_cases h2 : index = 2#6
  · subst h2; rfl
  by_cases h5 : index = 5#6
  · subst h5; rfl
  by_cases h6 : index = 6#6
  · subst h6; rfl
  rw [writeReg_readOnly h0 h1 h2 h5 h6, if_neg h0, if_neg h1, if_neg h2, if_neg h5, if_neg h6]

/-- A register write that is due, with `rst` released, is this step (R134, R228). -/
theorem step_registerWrite {w : Word} {rest : List BusItem}
    (hbus : s.env.bus = { gap := 0, event := .write index w } :: rest) (hi : index ≠ 3#6) (hrst : s.ports.rst = false) :
    step s = .next (writeReg index w (taken rest s)) := by
  have hwrite : doWrite index w (taken rest s) = writeReg index w (taken rest s) := by
    rw [doWrite, if_neg (by simp [hrst]), if_neg (show index ≠ cmdIndex from hi)]
  rw [step_of_due hbus, stepHost, if_neg (show index ≠ cmdIndex from hi), Eng.outcome, land, run_did]
  dsimp only
  rw [hwrite]
  split_ifs <;> rfl

/-! ## Accesses that wait for nothing but the host -/

/-- What a host access does does not depend on the accesses still to come, which `rest` names (R228). -/
theorem stepHost_taken (event : HostEvent) (rest bus : List BusItem) (s : State) :
    stepHost event rest (taken bus s) = stepHost event rest s := by
  have hland : Eng.outcome (land event rest) (taken bus s) = Eng.outcome (land event rest) s := by
    rw [Eng.outcome, Eng.outcome, land, run_did, run_did]
    rfl
  cases event with
  | write index w => rw [stepHost, stepHost, hland]; rfl
  | read _ | reset _ | position _ => exact hland

/-- A port whose other side never completes its transaction does not complete one (U8, U9). -/
theorem portCompletes_eq_none (hreq : s.ports.byteRequest = true → s.env.source.answersLeft = some 0)
    (hoff : s.ports.offeredBeat.isSome = true → s.env.sink.acceptsLeft = some 0) : portCompletes s = none := by
  rw [portCompletes]
  split_ifs with hr
  · rw [sourceAnswers, hreq hr]
    rfl
  · rw [sinkAccepts]
    cases ho : s.ports.offeredBeat with
    | none => rfl
    | some beat => rw [hoff (by rw [ho]; rfl)]; rfl

/-- Settles O5: a register write is `writeReg`; and where nothing else can move the host moves, whatever the access's gap. -/
theorem registerWritesChangeOnlyTheirRegister : Obligations.RegisterWritesChangeOnlyTheirRegister := by
  unfold Obligations.RegisterWritesChangeOnlyTheirRegister
  refine ⟨fun s index w rest hbus hi hrst => ?_, fun s gap event rest hbus hstuck => ?_⟩
  · refine ⟨_, step_registerWrite hbus hi hrst, ?_⟩
    rw [writeReg_eq]
    exact ⟨rfl, rfl, rfl, rfl, rfl, rfl, rfl, rfl, rfl, rfl⟩
  · have hmoves : hostMoves s = true := by
      simp only [hostMoves, hbus, Bool.or_eq_true]
      rcases hstuck with ⟨hb, hp⟩ | ⟨hb, hreq, hoff⟩
      · simpa [hb, inFlight] using .inr hp
      · simp [hb, portCompletes_eq_none hreq hoff]
    obtain ⟨it, more, hbus', hstep⟩ := step_of_hostMoves hmoves
    cases hbus.symm.trans hbus'
    have hdue : step (taken ({ gap := 0, event := event } :: rest) s) = stepHost event rest s := by
      rw [step_of_due rfl, stepHost_taken]
    exact hstep.trans hdue.symm

end RegisterAccesses
end Sys2Proof.Machine

namespace Sys2Proof.Machine
/-! # The engine's next task as a step; INIT after its CMD write (O10, O19, O20, O21) -/

section QuietTasks

variable {s : State}

/-- With a command in progress, no port in flight and nothing due, the step is the engine's next task (R22, R228). -/
theorem step_engine (hb : Busy s) (hreq : s.ports.byteRequest = false) (hoff : s.ports.offeredBeat = none)
    (hn : NothingDue s) : step s = stepEngine s := by
  have hp : inFlight s.ports = false := by simp [inFlight, hreq, hoff]
  rw [step_of_not_hostMoves (not_hostMoves_of_nothingDue hb hp hn), stepBlock_of_busy hb hp]

theorem nothingDue_of_quiet (hq : Quiet s) : NothingDue s := by
  intro it rest hbus
  rw [hq] at hbus
  cases hbus

/-- In a LINE with room in its row and no pixel left over, the next task is a code (R148). -/
theorem engineTask_code {e : Engine} (hs : e.state = .lineBusy) (hroom : e.col < e.curWidth) (hptr : e.stackPtr = 0) :
    engineTask e = .code := by
  simp only [engineTask, hs, hptr]
  rw [if_neg (by bv_omega), if_neg (not_not.mpr rfl)]

/-- Settles O10: the engine's task is a code, whose meaning `stepCode` takes from the code that was read. -/
theorem stepExecutesTheNextCode : Obligations.StepExecutesTheNextCode := by
  unfold Obligations.StepExecutesTheNextCode
  intro s t c i hs hroom hptr hn hreq hoff hread hdecode
  rw [step_engine (by rw [Busy, hs]; rfl) hreq hoff hn, stepEngine, engineTask_code hs hroom hptr]
  simp only [stepCode, hread, hdecode]

/-! ## INIT -/

/-- The engine's step in INIT_BUSY, when no host access is to come. -/
theorem step_init (hs : s.eng.state = .initBusy) (hq : Quiet s) (hreq : s.ports.byteRequest = false)
    (hoff : s.ports.offeredBeat = none) : step s = Eng.outcome initBody s := by
  rw [step_engine (by rw [Busy, hs]; rfl) hreq hoff (nothingDue_of_quiet hq), stepEngine, engineTask, hs]

/-- The state after INIT's set-up for the minimum code size m (R142). -/
def setUpState (m : BitVec 4) (s : State) : State :=
  { s with eng := initialRegisters m s.eng, mem := clearPrefix s.mem, free := { s.free with setUp := true } }

theorem mapEng_congr {f g : Engine → Engine} (h : f s.eng = g s.eng) : s.mapEng f = s.mapEng g := by
  rw [State.mapEng, h]
  rfl

theorem wr_bind_quiet {α : Type} (hq : Quiet s) (f : Engine → Engine) (x : Unit → Eng α) :
    (wr f >>= x).run s = (x ()).run (s.mapEng f) := by
  rw [run_bind, wr_quiet hq]

theorem setUpDecoder_quiet (hq : Quiet s) (b : Byte) :
    (setUpDecoder b).run s = .ok () (setUpState (b.setWidth 4) s) := by
  rw [setUpDecoder]
  iterate 4 rw [wr_bind_quiet (by exact hq)]
  rw [run_bind, act_quiet (by exact hq)]
  dsimp only
  iterate 10 rw [wr_bind_quiet (by exact hq)]
  rw [act_quiet (by exact hq)]
  simp only [State.mapEng, State.mapMem, State.mapFree, setUpState, initialRegisters, clearCode]

theorem startDrain_quiet (hq : Quiet s) :
    startDrain.run s = .ok () (s.mapEng fun e => { e with state := .drainBusy, sbRem := 0, sbPos := 0 }) := by
  rw [startDrain, wr_bind_quiet hq, wr_bind_quiet (by exact hq), wr_quiet (by exact hq)]
  rfl

/-- Where the INIT of an image of this many pixels goes on (R143). -/
def stateAfterInit (pixels : BitVec 32) : EngineState := if pixels = 0 then .drainBusy else .ready

/-- After the set-up SB_REM and SB_POS are 0 already, so STATE alone tells an image with a pixel from one without (R143). -/
theorem finishInit_quiet (hq : Quiet s) (m : BitVec 4) :
    finishInit.run (setUpState m s) =
      .ok () ((setUpState m s).mapEng fun e => { e with state := stateAfterInit e.pixelsLeft }) := by
  rw [finishInit, run_bind, run_look]
  dsimp only
  rw [run_ite, startDrain_quiet (by exact hq), wr_quiet (by exact hq)]
  split_ifs with h
  · refine congrArg _ (mapEng_congr ?_)
    rw [stateAfterInit, if_pos h]
    rfl
  · refine congrArg _ (mapEng_congr ?_)
    rw [stateAfterInit, if_neg h]

/-- The state after the step in INIT_BUSY of an image whose minimum code size is m (R142, R143). -/
def initialised (m : Byte) (s : State) : State :=
  (setUpState (m.setWidth 4) (afterRead s 1)).mapEng fun e => { e with state := stateAfterInit e.pixelsLeft }

theorem step_initialises {m : Byte} {more : List Byte} (hs : s.eng.state = .initBusy) (hq : Quiet s) (hfair : Fair s)
    (hreq : s.ports.byteRequest = false) (hoff : s.ports.offeredBeat = none) (hu : unread s = m :: more)
    (hm : m.toNat ≤ 8) : step s = .next (initialised m s) := by
  rw [step_init hs hq hreq hoff, Eng.outcome, initBody, run_bind, readSource_byte hq hfair.1 hu]
  dsimp only
  rw [if_neg (show ¬8 < m.toNat by omega), run_bind, setUpDecoder_quiet (by exact hq)]
  dsimp only
  rw [finishInit_quiet (by exact hq)]
  rfl

/-- The registers of an INIT, in terms of the byte that was read. -/
theorem initialised_eng {m : Byte} (hm : m.toNat ≤ 8) (s : State) :
    (initialised m s).eng = { s.eng with
      state := stateAfterInit (s.eng.curWidth.setWidth 32 * s.eng.curHeight.setWidth 32), minCodeSize := m.setWidth 4
      codeWidth := BitVec.ofNat 4 (m.toNat + 1), maxCode1 := BitVec.ofNat 13 (2 ^ (m.toNat + 1))
      runningCode := BitVec.ofNat 13 (2 ^ m.toNat + 2), lastCode := 4098#13, stackPtr := 0, shiftAcc := 0, shiftState := 0
      sbRem := 0, sbPos := 0, pixelsLeft := s.eng.curWidth.setWidth 32 * s.eng.curHeight.setWidth 32, row := 0, pass := 0
      col := 0, lastLine := false } := by
  have hsize : (m.setWidth 4).toNat = m.toNat := by rw [BitVec.toNat_setWidth]; omega
  have hwidth : m.setWidth 4 + 1 = BitVec.ofNat 4 (m.toNat + 1) := by bv_omega
  rw [← hwidth, ← hsize]
  rfl

/-- What an INIT does beside its registers: PREFIX is cleared and one byte is read, and nothing else changes. -/
theorem initialised_frame {m : Byte} {more : List Byte} (hreq : s.ports.byteRequest = false) (hu : unread s = m :: more) :
    (∀ j, prefixAt (initialised m s) j = 4098#13 ∧ suffixAt (initialised m s) j = suffixAt s j) ∧
      SameStack s (initialised m s) ∧ SameSbbuf s (initialised m s) ∧ unread (initialised m s) = more ∧
      (initialised m s).env.sink = s.env.sink ∧ (initialised m s).ports = s.ports ∧
      SameHostSide { s with free := { s.free with setUp := true } } (initialised m s) := by
  have hports : { s.ports with byteRequest := false } = s.ports := by rw [← hreq]
  exact ⟨fun j => ⟨prefixAt_clearPrefix s j, rfl⟩, fun _ => rfl, fun _ => rfl, (unread_eq_cons hu).2, rfl, hports, rfl, rfl, rfl,
    rfl⟩

/-- Settles O19: an image with a width and a height has a pixel, so INIT ends in READY. -/
theorem initSetsUpTheDecoder : Obligations.InitSetsUpTheDecoder := by
  unfold Obligations.InitSetsUpTheDecoder
  intro s m more hs hq hfair hreq hoff hu hm hw hh
  have hleft := pixelsLeft_toNat s.eng.curWidth s.eng.curHeight
  have hpixel : s.eng.curWidth.setWidth 32 * s.eng.curHeight.setWidth 32 ≠ 0 := by
    intro h0
    rw [h0] at hleft
    rcases Nat.mul_eq_zero.mp hleft.symm with h | h
    · exact hw (BitVec.eq_of_toNat_eq h)
    · exact hh (BitVec.eq_of_toNat_eq h)
  have heng := initialised_eng hm s
  rw [stateAfterInit, if_neg hpixel] at heng
  exact ⟨initialised m s, step_initialises hs hq hfair hreq hoff hu hm, heng, hleft, initialised_frame hreq hu⟩

/-- Settles O20: an image without a width or without a height has no pixel, so INIT ends in DRAIN_BUSY. -/
theorem initOfAnEmptyImageDrains : Obligations.InitOfAnEmptyImageDrains := by
  unfold Obligations.InitOfAnEmptyImageDrains
  intro s m more hs hq hfair hreq hoff hu hm hempty
  have hpixels : s.eng.curWidth.setWidth 32 * s.eng.curHeight.setWidth 32 = 0 := by
    rcases hempty with h | h <;> rw [h] <;> simp
  have heng := initialised_eng hm s
  rw [stateAfterInit, if_pos hpixels, hpixels] at heng
  exact ⟨initialised m s, step_initialises hs hq hfair hreq hoff hu hm, heng, initialised_frame hreq hu⟩

/-- Settles O21: the fault is taken in the state after the one byte is read, or found missing. -/
theorem initFaultsOnTheCodeSizeByte : Obligations.InitFaultsOnTheCodeSizeByte := by
  unfold Obligations.InitFaultsOnTheCodeSizeByte
  intro s hs hq hfair hreq hoff
  have hne (n : Nat) : (afterRead s n).eng.state ≠ .fault := by rw [afterRead_eng, hs]; decide
  refine ⟨fun hu => ⟨takeFault .minCodeSizeByte 0 (afterRead s 0), ?_, ?_⟩,
    fun b more hu hb => ⟨takeFault .badMinCodeSize (b.setWidth 32) (afterRead s 1), ?_, ?_⟩⟩
  · rw [step_init hs hq hreq hoff, Eng.outcome, initBody, run_bind, readSource_exhausted hq hfair.1 hu]
    dsimp only
    rw [raise_quiet (by exact hq)]
  · rw [takeFault_of_ne (hne 0)]
    exact ⟨rfl, rfl, rfl, rfl⟩
  · rw [step_init hs hq hreq hoff, Eng.outcome, initBody, run_bind, readSource_byte hq hfair.1 hu]
    dsimp only
    rw [if_pos (show 8 < b.toNat from hb), raise_quiet (by exact hq)]
  · rw [takeFault_of_ne (hne 1)]
    exact ⟨rfl, rfl, rfl, rfl, (unread_eq_cons hu).2⟩

/-! ## The rest of a LINE that is no code -/

/-- Settles O35: the task is `popString` (`popPixels_quiet`), from a stack that is not empty and into a row with room. -/
theorem leftoverPixelsComeFirst : Obligations.LeftoverPixelsComeFirst := by
  unfold Obligations.LeftoverPixelsComeFirst
  intro s hs hroom hptr hle hq hsink hreq hoff
  have htask : engineTask s.eng = .carryOver := by
    simp only [engineTask, hs]
    rw [if_neg (by bv_omega), if_pos hptr]
  obtain ⟨t, n, hrun, hn, henv, heng, hpix, hmem, hhost, hfree, hports⟩ :=
    popPixels_quiet s.eng.stackPtr.toNat hq hsink rfl hle (BitVec.le_of_lt hroom)
  have hports' : t.ports = s.ports := by
    rw [hports, ← hoff]
    exact ite_self _
  refine ⟨t, n, ?_, hn, henv, hpix, heng, hmem, hhost, hports', hfree⟩
  rw [step_engine (by rw [Busy, hs]; rfl) hreq hoff (nothingDue_of_quiet hq), stepEngine, htask]
  simp only [Eng.outcome, popString_run, hrun]

/-- The registers after the row sequencer has run at the end of a LINE (R149, R172). -/
def lineClosed (e : Engine) : Engine :=
  if e.lastLine then { e with state := .drainBusy, sbRem := 0, sbPos := 0 } else { e with state := .ready }

/-- LINE's completion is the row sequencer, LINE_DONE, and READY or the start of the drain (R149, R172). -/
theorem finishLine_quiet (hq : Quiet s) :
    finishLine.run s = .ok () (((s.mapEng advanced).mapHost (setPending .lineDone)).mapEng lineClosed) := by
  rw [finishLine, run_bind, advanceRow_quiet hq]
  dsimp only
  rw [run_bind, setIrq_quiet (by exact hq)]
  dsimp only
  rw [run_bind, run_look]
  dsimp only
  rw [run_ite, startDrain_quiet (by exact hq), wr_quiet (by exact hq)]
  split_ifs with hlast
  · exact congrArg _ (mapEng_congr (if_pos hlast).symm)
  · exact congrArg _ (mapEng_congr (if_neg hlast).symm)

/-- Settles O36: the task is `finishLine` (`finishLine_quiet`), and the row sequencer writes ROW and PASS only. -/
theorem lineEndsReadyOrDraining : Obligations.LineEndsReadyOrDraining := by
  unfold Obligations.LineEndsReadyOrDraining
  intro s hs hfull hq hreq hoff
  have htask : engineTask s.eng = .lineEnd := by
    simp only [engineTask, hs]
    rw [if_pos (by bv_omega)]
  have hrow := advanced_frame s.eng
  have hlast : (advanced s.eng).lastLine = s.eng.lastLine := by rw [hrow]
  refine ⟨((s.mapEng advanced).mapHost (setPending .lineDone)).mapEng lineClosed, s.mapEng advanced, ?_,
    advanceRow_quiet hq, rfl, fun h => ?_, fun h => ?_, rfl, rfl, rfl, rfl⟩
  · rw [step_engine (by rw [Busy, hs]; rfl) hreq hoff (nothingDue_of_quiet hq), stepEngine, htask]
    simp only [Eng.outcome, finishLine_quiet hq]
  · show lineClosed (advanced s.eng) = _
    rw [lineClosed, if_neg (by simp [hlast, h]), hrow]
    rfl
  · show lineClosed (advanced s.eng) = _
    rw [lineClosed, if_pos (by simp [hlast, h]), hrow]
    rfl

end QuietTasks
end Sys2Proof.Machine

namespace Sys2Proof.Machine
/-! # The beats of a LINE follow its columns (O46)

Most threads of a LINE are silent: they leave ROW, COL, CUR_WIDTH and the accepted beats alone (`Eng.Silent`). A column is
counted by `nextCol`, just after the beat of that column has been accepted, and only where the row has room for it. -/

section LineBeats

variable {α β : Type} {P R : State → Prop} {s t u : State}

/-! ## How a thread of a LINE ends early -/

/-- A command that ends early is in a LINE no more, and an engine that waits has a transaction in flight. -/
def lineEnds : Ends where
  early
    | .ended, t => t.eng.state ≠ .lineBusy
    | .waiting, t => inFlight t.ports = true
    | .undefined _, _ => True
  instant _ := True

theorem EndedBy.not_line (h : EndedBy s t) : t.eng.state ≠ .lineBusy := by
  cases h with
  | refused _ _ _ eng => rw [eng]; nofun
  | reset eng => rw [eng]; nofun

theorem takeFault_state (c : Cause) (info : Word) (s : State) : (takeFault c info s).eng.state = .fault := by
  rw [takeFault]
  split_ifs with h
  · exact h
  · rfl

theorem takeFault_not_line (c : Cause) (info : Word) (s : State) : (takeFault c info s).eng.state ≠ .lineBusy := by
  rw [takeFault_state]
  nofun

theorem allowsAccess_lineEnds : AllowsAccess P lineEnds where
  instant _ _ := trivial
  ended _ _ _ k := ⟨k.not_line, trivial⟩
  changed _ := trivial

/-- The assertion is made of a command in progress, and accesses that land leave it true. -/
structure InProgress (P : State → Prop) : Prop where
  busy : ∀ s, P s → Busy s
  landing : LandingKeeps P

theorem keeps_tick_line (hP : InProgress P) : Eng.Keeps P tick (fun _ => P) lineEnds :=
  keeps_tick hP.busy hP.landing allowsAccess_lineEnds

theorem keeps_act_line {f : State → State} (hP : InProgress P) (h : ∀ s, P s → R (f s)) :
    Eng.Keeps P (act f) (fun _ => R) lineEnds :=
  keeps_act hP.busy hP.landing allowsAccess_lineEnds (fun _ _ => trivial) h

theorem keeps_raise_line {Q : α → State → Prop} {c : Cause} {info : Word} (hP : InProgress P) :
    Eng.Keeps P (raise c info : Eng α) Q lineEnds :=
  keeps_raise hP.busy hP.landing allowsAccess_lineEnds fun s _ => ⟨takeFault_not_line c info s, trivial⟩

/-- STATE is this one. -/
abbrev InState (st : EngineState) (u : State) : Prop := u.eng.state = st

theorem inProgress_state {st : EngineState} (hb : isBusy st = true) : InProgress (InState st) where
  busy _ h := by rw [Busy, h]; exact hb
  landing _ _ h k := by rw [InState, k.eng]; exact h

/-! ## The end of a LINE -/

/-- An assignment that leaves STATE alone. -/
theorem keeps_wr_inState {st : EngineState} {f : Engine → Engine} (hb : isBusy st = true)
    (hf : ∀ e, (f e).state = e.state := by exact fun _ => rfl) :
    Eng.Keeps (InState st) (wr f) (fun _ => InState st) lineEnds :=
  keeps_act_line (inProgress_state hb) fun s h => (hf s.eng).trans h

theorem keeps_skipPasses_inLine : ∀ n : Nat,
    Eng.Keeps (InState .lineBusy) (skipPasses n) (fun _ => InState .lineBusy) lineEnds
  | 0 => keeps_pure fun _ => id
  | n + 1 => by
    refine keeps_look fun s hs => keeps_pre (R := InState .lineBusy) ?_ (by rintro _ rfl; exact hs)
    split_ifs
    · exact keeps_bind (keeps_wr_inState rfl) fun _ => keeps_bind (keeps_wr_inState rfl) fun _ => keeps_skipPasses_inLine n
    · exact keeps_pure fun _ => id

theorem keeps_advanceRow_inLine :
    Eng.Keeps (InState .lineBusy) advanceRow (fun _ => InState .lineBusy) lineEnds := by
  refine keeps_look fun s hs => keeps_pre (R := InState .lineBusy) ?_ (by rintro _ rfl; exact hs)
  split_ifs
  · exact keeps_bind (keeps_wr_inState rfl) fun _ => keeps_skipPasses_inLine _
  · exact keeps_wr_inState rfl

theorem keeps_setState {st st' : EngineState} (hb : isBusy st = true) :
    Eng.Keeps (InState st) (wr fun e => { e with state := st' }) (fun _ => InState st') lineEnds :=
  keeps_act_line (inProgress_state hb) fun _ _ => rfl

/-- A LINE that is complete has left LINE_BUSY (R149, R172). -/
theorem finishLine_leaves_line :
    Eng.Keeps (InState .lineBusy) finishLine (fun _ u => u.eng.state ≠ .lineBusy) lineEnds := by
  refine keeps_bind keeps_advanceRow_inLine fun _ =>
    keeps_bind (Q := fun _ => InState .lineBusy) (keeps_act_line (inProgress_state rfl) fun _ h => h) fun _ =>
      keeps_look fun s hs => keeps_pre (R := InState .lineBusy) ?_ (by rintro _ rfl; exact hs)
  split_ifs
  · exact keeps_bind (keeps_setState rfl) fun _ => keeps_bind (keeps_wr_inState rfl) fun _ =>
      keeps_post (keeps_wr_inState rfl) fun _ _ h => by rw [h]; nofun
  · exact keeps_post (keeps_setState rfl) fun _ _ h => by rw [h]; nofun

/-! ## Silent threads -/

/-- The registers that say where the LINE stands. -/
def place (e : Engine) : EngineState × BitVec 17 × BitVec 16 × BitVec 16 := (e.state, e.row, e.col, e.curWidth)

/-- The LINE stands in u where it stands in s, and no beat has been accepted since. -/
structure Stands (s u : State) : Prop where
  line : u.eng.state = .lineBusy
  place : place u.eng = place s.eng
  beats : u.env.sink.accepted = s.env.sink.accepted

theorem Stands.refl (h : s.eng.state = .lineBusy) : Stands s s := ⟨h, rfl, rfl⟩

theorem Stands.row (h : Stands s u) : u.eng.row = s.eng.row := congrArg (·.2.1) h.place

theorem Stands.col (h : Stands s u) : u.eng.col = s.eng.col := congrArg (·.2.2.1) h.place

theorem Stands.width (h : Stands s u) : u.eng.curWidth = s.eng.curWidth := congrArg (·.2.2.2) h.place

/-- A change that leaves the place and the accepted beats alone. -/
theorem Stands.of_frame (h : Stands s t) (he : Machine.place u.eng = Machine.place t.eng)
    (hb : u.env.sink.accepted = t.env.sink.accepted) : Stands s u where
  line := (congrArg Prod.fst he).trans h.line
  place := he.trans h.place
  beats := hb.trans h.beats

theorem Stands.of_landed (h : Stands s t) (k : Landed t u) : Stands s u := h.of_frame (by rw [k.eng]) (by rw [k.sink])

theorem inProgress_stands : InProgress (Stands s) where
  busy _ h := by rw [Busy, h.line]; rfl
  landing _ _ h k := h.of_landed k

/-- The thread leaves the LINE standing where it stands. -/
abbrev Eng.Silent (x : Eng α) : Prop := ∀ s, Eng.Keeps (Stands s) x (fun _ => Stands s) lineEnds

theorem silent_pure (a : α) : (pure a : Eng α).Silent := fun _ => keeps_pure fun _ h => h

theorem silent_bind {x : Eng α} {f : α → Eng β} (hx : x.Silent) (hf : ∀ a, (f a).Silent) : (x >>= f).Silent :=
  fun s => keeps_bind (hx s) fun a => hf a s

theorem silent_look {f : State → Eng β} (hf : ∀ t, (f t).Silent) : (look >>= f).Silent :=
  fun s => keeps_look fun t ht => keeps_pre (hf t s) (by rintro _ rfl; exact ht)

theorem silent_ite {c : Prop} [Decidable c] {x y : Eng α} (hx : x.Silent) (hy : y.Silent) :
    (if c then x else y).Silent := by
  split_ifs
  · exact hx
  · exact hy

theorem silent_wr {f : Engine → Engine} (hf : ∀ e, place (f e) = place e := by exact fun _ => rfl) : (wr f).Silent :=
  fun _ => keeps_act_line inProgress_stands fun t h => h.of_frame (hf t.eng) rfl

theorem silent_raise {c : Cause} {info : Word} : (raise c info : Eng α).Silent :=
  fun _ => keeps_raise_line inProgress_stands

theorem silent_wrRam {ram : RamName} {depth index : Nat} {f : Memory → Memory} : (wrRam ram depth index f).Silent :=
  fun s => keeps_bind (keeps_tick_line inProgress_stands) fun _ => keeps_did fun t h => by
    by_cases hi : index < depth
    · rw [if_pos hi]
      exact ⟨h.of_frame rfl rfl, trivial⟩
    · rw [if_neg hi]
      trivial

theorem silent_inRam {ram : RamName} {depth index : Nat} : (inRam ram depth index).Silent := fun s => keeps_of fun t h => by
  by_cases hi : index < depth
  · rw [if_pos hi]
    exact h
  · rw [if_neg hi]
    trivial

theorem sourceAnswers_sink {byte : Option Byte} (h : sourceAnswers s = some (byte, t)) : t.env.sink = s.env.sink := by
  simp only [sourceAnswers] at h
  split at h <;> cases h
  rfl

theorem silent_readSource : readSource.Silent := by
  intro s
  have hwaiting : InProgress fun u => Stands s u ∧ u.ports.byteRequest = true :=
    { busy := fun u h => inProgress_stands.busy u h.1
      landing := fun _ _ h k => ⟨h.1.of_landed k, k.byteRequest.trans h.2⟩ }
  exact keeps_readSource (R := fun u => Stands s u ∧ u.ports.byteRequest = true) inProgress_stands.busy
    inProgress_stands.landing allowsAccess_lineEnds hwaiting.busy hwaiting.landing allowsAccess_lineEnds
    (fun _ _ _ => trivial) (fun u h => ⟨h.of_frame rfl rfl, rfl⟩)
    (fun u h _ => by simp [lineEnds, inFlight, h.2])
    fun u byte t h ha => h.1.of_frame (by rw [sourceAnswers_eng ha]) (by rw [sourceAnswers_sink ha])

/-! ## The code reader is silent -/

theorem silent_fetchBytes (policy : ShortReadPolicy) (len : Nat) (cause : Cause) :
    ∀ (n k : Nat) (exhausted : Bool), (fetchBytes policy len cause n k exhausted).Silent
  | 0, _, _ => silent_pure ()
  | n + 1, k, true => silent_bind silent_wrRam fun _ => silent_fetchBytes policy len cause n (k + 1) true
  | n + 1, k, false => by
    refine silent_bind silent_readSource fun byte => ?_
    cases byte with
    | some b => exact silent_bind silent_wrRam fun _ => silent_fetchBytes policy len cause n (k + 1) false
    | none =>
      cases policy with
      | fault => exact silent_raise
      | zeroFill => exact silent_bind silent_wrRam fun _ => silent_fetchBytes .zeroFill len cause n (k + 1) true

theorem silent_newSubBlock : newSubBlock.Silent := by
  refine silent_bind silent_readSource fun byte => ?_
  cases byte with
  | none => exact silent_raise
  | some len => exact silent_ite silent_raise (silent_bind (silent_fetchBytes _ _ _ _ _ _) fun _ => silent_wr)

theorem silent_nextDataByte : nextDataByte.Silent := by
  have take : (look >>= fun s => inRam .sbbuf Config.subBlockMax s.eng.sbPos.toNat >>= fun _ =>
      (wr fun e => { e with sbPos := e.sbPos + 1, sbRem := e.sbRem - 1 }) >>= fun _ =>
        pure (sbbufAt s s.eng.sbPos.toNat)).Silent :=
    silent_look fun _ => silent_bind silent_inRam fun _ => silent_bind silent_wr fun _ => silent_pure _
  exact silent_look fun _ => silent_ite (silent_bind silent_newSubBlock fun _ => take) take

theorem silent_fill : ∀ n : Nat, (fill n).Silent
  | 0 => silent_pure ()
  | n + 1 => silent_look fun _ => silent_ite
      (silent_bind silent_nextDataByte fun _ => silent_bind silent_wr fun _ => silent_fill n) (silent_pure ())

theorem silent_bumpRunningCode : bumpRunningCode.Silent :=
  silent_look fun _ => silent_ite
    (silent_bind silent_wr fun _ => silent_look fun _ => silent_ite silent_wr (silent_pure ())) (silent_pure ())

theorem silent_readCode : readCode.Silent :=
  silent_look fun _ => silent_ite silent_raise <| silent_bind (silent_fill _) fun _ => silent_look fun _ =>
    silent_bind silent_wr fun _ => silent_bind silent_wr fun _ => silent_bind silent_bumpRunningCode fun _ => silent_pure _

/-! ## The stack, the chain walks and the table are silent -/

theorem silent_push (code : Code) (v : Byte) : (push code v).Silent :=
  silent_look fun _ => silent_ite silent_raise (silent_bind silent_wrRam fun _ => silent_wr)

theorem silent_pop : pop.Silent :=
  silent_bind silent_wr fun _ => silent_look fun _ => silent_bind silent_inRam fun _ => silent_pure _

theorem silent_traceFrom (code : Code) : ∀ (n : Nat) (p : Link), (traceFrom code n p).Silent
  | 0, p => silent_look fun _ => silent_ite (silent_bind (silent_push _ _) fun _ => silent_pure p) <|
      silent_ite silent_raise <| silent_ite silent_raise silent_raise
  | n + 1, p => silent_look fun _ => silent_ite (silent_bind (silent_push _ _) fun _ => silent_pure p) <|
      silent_ite silent_raise <| silent_ite silent_raise <|
        silent_bind (silent_push _ _) fun _ => silent_traceFrom code n _

theorem silent_rootFrom (code : Code) : ∀ (n : Nat) (p : Link), (rootFrom code n p).Silent
  | 0, p => silent_look fun _ => silent_ite (silent_pure p) <|
      silent_ite silent_raise <| silent_ite silent_raise silent_raise
  | n + 1, p => silent_look fun _ => silent_ite (silent_pure p) <|
      silent_ite silent_raise <| silent_ite silent_raise <| silent_rootFrom code n _

theorem silent_append (pix : Byte) : (append pix).Silent :=
  silent_look fun _ => silent_bind silent_inRam fun _ =>
    silent_ite (silent_bind silent_wrRam fun _ => silent_wrRam) (silent_pure ())

theorem silent_setLast (c : Code) : (setLast c).Silent := silent_wr

theorem silent_clearActions : clearActions.Silent :=
  silent_bind (fun _ => keeps_act_line inProgress_stands fun _ h => h.of_frame rfl rfl) fun _ => silent_wr

/-! ## Beats and columns -/

/-- The row and the column a beat is tagged with (R61). -/
def tag (b : Beat) : BitVec 16 × BitVec 16 := (b.row, b.col)

/-- The tags of n columns of a row, from a column on. -/
def columnTags (row : BitVec 16) (col n : Nat) : List (BitVec 16 × BitVec 16) :=
  (List.range n).map fun k => (row, BitVec.ofNat 16 (col + k))

theorem columnTags_add (row : BitVec 16) (col m n : Nat) :
    columnTags row col (m + n) = columnTags row col m ++ columnTags row (col + m) n := by
  simp [columnTags, List.range_add, Function.comp_def, Nat.add_assoc]

theorem columnTags_one (row col : BitVec 16) : columnTags row col.toNat 1 = [(row, col)] := by
  simp [columnTags, List.range_one]

/-- Since s the LINE has gone on in its row, with one beat for each column that it counted. -/
structure Follows (s u : State) : Prop where
  line : u.eng.state = .lineBusy
  row : u.eng.row = s.eng.row
  col : s.eng.col.toNat ≤ u.eng.col.toNat
  beats : u.env.sink.accepted.map tag = s.env.sink.accepted.map tag ++
    columnTags (s.eng.row.setWidth 16) s.eng.col.toNat (u.eng.col.toNat - s.eng.col.toNat)

theorem Stands.follows (h : Stands s u) : Follows s u :=
  ⟨h.line, h.row, by rw [h.col], by rw [h.beats, h.col, Nat.sub_self]; simp [columnTags]⟩

theorem Follows.trans (h : Follows s t) (k : Follows t u) : Follows s u where
  line := k.line
  row := k.row.trans h.row
  col := h.col.trans k.col
  beats := by
    have hcols : u.eng.col.toNat - s.eng.col.toNat =
        (t.eng.col.toNat - s.eng.col.toNat) + (u.eng.col.toNat - t.eng.col.toNat) := by
      have hs := h.col
      have ht := k.col
      omega
    rw [k.beats, h.beats, List.append_assoc, h.row, hcols, columnTags_add, Nat.add_sub_cancel' h.col]

/-- The beat of the column has been accepted, and the column is not counted yet. -/
structure Emitted (s u : State) : Prop where
  line : u.eng.state = .lineBusy
  place : place u.eng = place s.eng
  beats : u.env.sink.accepted.map tag = s.env.sink.accepted.map tag ++ [(s.eng.row.setWidth 16, s.eng.col)]

theorem sinkAccepts_beat (h : sinkAccepts s = some t) :
    ∃ beat, s.ports.offeredBeat = some beat ∧ t.eng = s.eng ∧ t.env.sink.accepted = s.env.sink.accepted ++ [beat] := by
  simp only [sinkAccepts] at h
  split at h <;> cases h
  next beat _ hbeat _ => exact ⟨beat, hbeat, rfl, rfl⟩

/-- A transaction on the pixel port whose beat is tagged with the row and the column the LINE stands at. -/
theorem keeps_offerWith_tagged {offer : State → State}
    (h : ∀ u, Stands s u → (offer u).eng = u.eng ∧ (offer u).env = u.env ∧
      (offer u).ports.offeredBeat.map tag = some (u.eng.row.setWidth 16, u.eng.col)) :
    Eng.Keeps (Stands s) (offerWith offer) (fun _ => Emitted s) lineEnds := by
  have hoffered : InProgress fun u => Stands s u ∧ u.ports.offeredBeat.map tag = some (s.eng.row.setWidth 16, s.eng.col) :=
    { busy := fun u k => inProgress_stands.busy u k.1
      landing := fun _ _ k l => ⟨k.1.of_landed l, by rw [l.offeredBeat]; exact k.2⟩ }
  refine keeps_offerWith inProgress_stands.busy inProgress_stands.landing allowsAccess_lineEnds hoffered.busy
    hoffered.landing allowsAccess_lineEnds (fun _ _ => trivial) ?offered ?waits ?accepted
  case offered =>
    intro u k
    obtain ⟨he, henv, htag⟩ := h u k
    exact ⟨k.of_frame (by rw [he]) (by rw [henv]), by rw [htag, k.row, k.col]⟩
  case waits =>
    rintro u ⟨-, htag⟩ -
    obtain ⟨beat, hbeat, -⟩ := Option.map_eq_some_iff.mp htag
    simp [lineEnds, inFlight, hbeat]
  case accepted =>
    rintro u t ⟨k, htag⟩ ha
    obtain ⟨beat, hbeat, he, haccepted⟩ := sinkAccepts_beat ha
    rw [hbeat] at htag
    exact ⟨by rw [he]; exact k.line, by rw [he]; exact k.place, by
      rw [haccepted, k.beats, List.map_append, List.map_singleton, Option.some.inj htag]⟩

theorem keeps_emitPixel_tagged (pix : Byte) : Eng.Keeps (Stands s) (emitPixel pix) (fun _ => Emitted s) lineEnds :=
  keeps_look fun t ht => keeps_pre (R := Stands s) (keeps_offerWith_tagged fun u hu =>
    ⟨rfl, rfl, by rw [hu.row, hu.col, ← ht.row, ← ht.col]; rfl⟩) (by rintro _ rfl; exact ht)

theorem keeps_emitSkip_tagged : Eng.Keeps (Stands s) emitSkip (fun _ => Emitted s) lineEnds :=
  keeps_offerWith_tagged fun _ _ => ⟨rfl, rfl, rfl⟩

/-- A column of a row with room is counted without wrapping. -/
theorem keeps_nextCol_counted (hroom : s.eng.col < s.eng.curWidth) :
    Eng.Keeps (Emitted s) nextCol (fun _ => Follows s) lineEnds := by
  have hemitted : InProgress (Emitted s) :=
    { busy := fun u h => by rw [Busy, h.line]; rfl
      landing := fun _ _ h k =>
        ⟨by rw [k.eng]; exact h.line, by rw [k.eng]; exact h.place, by rw [k.sink]; exact h.beats⟩ }
  refine keeps_act_line hemitted fun u h => ?_
  have hcol : u.eng.col = s.eng.col := congrArg (·.2.2.1) h.place
  have hnext : (u.eng.col + 1).toNat = s.eng.col.toNat + 1 := by rw [hcol]; bv_omega
  refine ⟨h.line, congrArg (·.2.1) h.place, ?_, ?_⟩
  · exact hnext.ge.trans' (Nat.le_succ _)
  · show u.env.sink.accepted.map tag = _ ++ columnTags _ _ ((u.eng.col + 1).toNat - _)
    rw [h.beats, hnext, Nat.add_sub_cancel_left, columnTags_one]

/-! ## The codes of a LINE -/

/-- A thread that goes on from wherever the LINE stands goes on from where it has got to. -/
theorem keeps_follows {x : Eng α} (h : ∀ u, Eng.Keeps (Stands u) x (fun _ => Follows u) lineEnds) :
    Eng.Keeps (Follows s) x (fun _ => Follows s) lineEnds :=
  fun u hu => keeps_post (h u) (fun _ _ k => hu.trans k) u (.refl hu.line)

theorem Eng.Silent.follows {x : Eng α} (h : x.Silent) : Eng.Keeps (Follows s) x (fun _ => Follows s) lineEnds :=
  keeps_follows fun u => keeps_post (h u) fun _ _ k => k.follows

/-- What a thread looks at is where the LINE stands. -/
theorem keeps_look_follows {f : State → Eng β}
    (hf : ∀ t, Stands s t → Eng.Keeps (Stands t) (f t) (fun _ => Follows t) lineEnds) :
    Eng.Keeps (Stands s) (look >>= f) (fun _ => Follows s) lineEnds :=
  keeps_look fun t ht => keeps_post (keeps_pre (hf t ht) (by rintro _ rfl; exact .refl ht.line))
    fun _ _ k => ht.follows.trans k

theorem follows_popPixels : ∀ (n : Nat) (s : State), Eng.Keeps (Stands s) (popPixels n) (fun _ => Follows s) lineEnds
  | 0, _ => keeps_pure fun _ h => h.follows
  | n + 1, s => keeps_look_follows fun t _ => by
    by_cases hc : t.eng.stackPtr ≠ 0 ∧ t.eng.col < t.eng.curWidth
    · rw [if_pos hc]
      exact keeps_bind (silent_pop t) fun v => keeps_bind (keeps_emitPixel_tagged v) fun _ =>
        keeps_bind (keeps_nextCol_counted hc.2) fun _ => keeps_follows (follows_popPixels n)
    · rw [if_neg hc]
      exact keeps_pure fun _ h => h.follows

theorem follows_popString (s : State) : Eng.Keeps (Stands s) popString (fun _ => Follows s) lineEnds :=
  keeps_look_follows fun t _ => follows_popPixels t.eng.stackPtr.toNat t

theorem follows_endActions (s : State) : Eng.Keeps (Stands s) endActions (fun _ => Follows s) lineEnds :=
  keeps_look_follows fun t _ => by
    by_cases hc : t.eng.col.toNat + 1 = t.eng.curWidth.toNat ∧ t.eng.lastLine = true
    · rw [if_pos hc]
      exact keeps_bind keeps_emitSkip_tagged fun _ => keeps_bind (keeps_nextCol_counted (by bv_omega)) fun _ =>
        (silent_wr : Eng.Silent (wr fun e => { e with skipped := true })).follows
    · rw [if_neg hc]
      exact keeps_raise_line inProgress_stands

/-- KNOWN and the end of KWKWK: the string is traced in silence, emitted, and entered in silence. -/
theorem follows_emitString (start : Link) (c : Code) (s : State) :
    Eng.Keeps (Stands s) (emitString start c) (fun _ => Follows s) lineEnds :=
  keeps_bind (silent_traceFrom c _ start s) fun _ => keeps_bind (follows_popString s) fun _ =>
    keeps_bind (silent_append _).follows fun _ => (silent_setLast c).follows

theorem follows_instrActions (i : Instr) (hroom : s.eng.col < s.eng.curWidth) :
    Eng.Keeps (Stands s) (instrActions i) (fun _ => Follows s) lineEnds := by
  have silent {x : Eng Unit} (h : x.Silent) : Eng.Keeps (Stands s) x (fun _ => Follows s) lineEnds :=
    keeps_post (h s) fun _ _ k => k.follows
  cases i with
  | nop | init | line | reservedCommand _ => exact silent (silent_pure ())
  | endCode _ => exact follows_endActions s
  | clear _ => exact silent silent_clearActions
  | pixel c =>
    exact keeps_bind (keeps_emitPixel_tagged _) fun _ => keeps_bind (keeps_nextCol_counted hroom) fun _ =>
      keeps_bind (silent_append _).follows fun _ => (silent_setLast c).follows
  | known c => exact follows_emitString _ c s
  | kwkwk c =>
    exact keeps_look_follows fun t _ => keeps_bind (silent_rootFrom c _ _ t) fun _ => keeps_bind (silent_wrRam t) fun _ =>
      keeps_bind (silent_push c _ t) fun _ => follows_emitString t.eng.lastCode c t
  | invalid _ => exact silent silent_raise

theorem follows_codeActions (hroom : s.eng.col < s.eng.curWidth) :
    Eng.Keeps (Stands s) codeActions (fun _ => Follows s) lineEnds :=
  keeps_bind (silent_readCode s) fun c => keeps_look_follows fun t ht =>
    follows_instrActions (classify (codeCtx t c) c) (by rw [ht.col, ht.width]; exact hroom)

/-! ## A step inside a LINE -/

/-- A thread whose step leaves the LINE in progress, and no transaction in flight, has ended normally. -/
theorem outcome_line {x : Eng Unit} {Q : State → Prop} (hx : Eng.Keeps P x (fun _ => Q) lineEnds) (hs : P s)
    (h : Eng.outcome x s = .next t) (hst : t.eng.state = .lineBusy) (hp : inFlight t.ports = false) : Q t := by
  have hends := (hx s hs).1
  rw [Eng.outcome] at h
  revert h hends
  rcases x.run s with ⟨_, u⟩ | ⟨_ | _ | _, u⟩
  · rintro ⟨⟩ k
    exact k
  · rintro ⟨⟩ k
    exact absurd hst k
  · rintro ⟨⟩ k
    exact absurd (hp.symm.trans k) (by decide)
  · rintro ⟨⟩

/-- A host access that leaves the LINE in progress leaves it where it stands. -/
theorem Accessed.stands {rest : List BusItem} (h : Accessed rest s t) (hs : s.eng.state = .lineBusy)
    (ht : t.eng.state = .lineBusy) : Stands s t := by
  cases h with
  | landed h => exact (Stands.refl hs).of_landed h
  | positioned _ hi => rw [hs] at hi; cases hi
  | refused c w => rw [takeFault_state] at ht; cases ht
  | init hst => rw [hs] at hst; rcases hst with h | h <;> cases h
  | line hst => rw [hs] at hst; cases hst
  | reset => cases ht

theorem follows_of_stepBlock (hs : s.eng.state = .lineBusy) (h : stepBlock s = .next t) (ht : t.eng.state = .lineBusy)
    (hp : inFlight t.ports = false) : Follows s t := by
  have hb : Busy s := by rw [Busy, hs]; rfl
  cases hps : inFlight s.ports with
  | true => rw [stepBlock, if_pos hb, if_pos hps] at h; cases h
  | false =>
    rw [stepBlock_of_busy hb hps, stepEngine_eq, taskActions, engineTask, hs] at h
    dsimp only at h
    split_ifs at h with hfull hptr
    · exact absurd ht (outcome_line finishLine_leaves_line hs h ht hp)
    · exact outcome_line (follows_popString s) (.refl hs) h ht hp
    · exact outcome_line (follows_codeActions (by bv_omega)) (.refl hs) h ht hp

/-- Settles O46: each task of a LINE counts a column as it has its beat accepted (`follows_of_stepBlock`), and a host access
leaves the LINE where it stands. -/
theorem beatsOfALineFollowItsColumns : Obligations.BeatsOfALineFollowItsColumns := by
  unfold Obligations.BeatsOfALineFollowItsColumns
  intro s t hs h ht hp
  have hfollows : Follows s t := by
    cases hm : hostMoves s with
    | true =>
      obtain ⟨it, rest, -, hstep⟩ := step_of_hostMoves hm
      exact ((accessed_of_stepHost (hstep ▸ h)).stands hs ht).follows
    | false => exact follows_of_stepBlock hs (step_of_not_hostMoves hm ▸ h) ht hp
  exact ⟨hfollows.row, hfollows.col, hfollows.beats⟩

end LineBeats
end Sys2Proof.Machine

namespace Sys2Proof.Machine
/-! # The sub-block fetch and the drain (O26, O39, O40) -/

section SubBlocks

variable {s t : State} {len : Byte} {cause : Cause}

/-! ## FetchSubBlock (R162) -/

theorem fetchSubBlock_complete (policy : ShortReadPolicy) (cause : Cause) (hq : Quiet s)
    (ha : s.env.source.answersLeft = none) (hl : len.toNat ≤ (unread s).length) :
    ∃ t, (fetchSubBlockUnder policy len cause).run s = .ok () t ∧
      Fetched s t 0 len.toNat (fun j => (unread s).getD j 0) ((unread s).drop len.toNat) :=
  fetchBytes_present policy len.toNat cause hq ha len.toNat 0 (by omega) hl

theorem fetchSubBlock_fault (cause : Cause) (hq : Quiet s) (ha : s.env.source.answersLeft = none)
    (hl : (unread s).length < len.toNat) :
    ∃ t, (fetchSubBlockUnder .fault len cause).run s =
        .error .ended (takeFault cause (BitVec.ofNat 32 (len.toNat * 256 + (unread s).length)) t) ∧
      Fetched s t 0 (unread s).length (fun j => (unread s).getD j 0) [] := by
  obtain ⟨t, hrun, hf⟩ := fetchBytes_fault len.toNat cause hq ha len.toNat 0 (by omega) hl
  exact ⟨t, Nat.zero_add (unread s).length ▸ hrun, hf⟩

theorem fetchSubBlock_zeroFill (cause : Cause) (hq : Quiet s) (ha : s.env.source.answersLeft = none)
    (hl : (unread s).length < len.toNat) :
    ∃ t, (fetchSubBlockUnder .zeroFill len cause).run s = .ok () t ∧
      Fetched s t 0 len.toNat (fun j => (unread s).getD j 0) [] :=
  fetchBytes_zeroFill len.toNat cause hq ha len.toNat 0 (by omega) hl

/-- What a fetch from the first entry on leaves in SBBUF. -/
theorem Fetched.sbbufAt {n : Nat} {bytes : Nat → Byte} {left : List Byte} (h : Fetched s t 0 n bytes left) (k : Nat) :
    sbbufAt t k = if k < n then bytes k else sbbufAt s k := by
  simpa using h.sbbuf k

/-- Settles O26: a complete sub-block, and a short one under each policy (`fetchBytes_present`, `fetchBytes_fault`,
`fetchBytes_zeroFill`). -/
theorem subBlockFetchUnderBothPolicies : Obligations.SubBlockFetchUnderBothPolicies := by
  unfold Obligations.SubBlockFetchUnderBothPolicies
  intro s len cause hq hfair hs
  refine ⟨fun policy hl => ?_, fun hl => ?_, fun hl => ?_⟩
  · obtain ⟨t, hrun, hf⟩ := fetchSubBlock_complete policy cause hq hfair.1 hl
    exact ⟨t, hrun, hf.sbbufAt, hf.left, hf.eng, hf.host, hf.sameTable, hf.sameStack⟩
  · obtain ⟨t, hrun, hf⟩ := fetchSubBlock_fault cause hq hfair.1 hl
    refine ⟨_, hrun, ?_, ?_⟩
    · rw [takeFault_of_ne (hf.eng ▸ hs), mapHost_eng, mapEng_eng, hf.eng, recordFault]
    · rw [unread, takeFault_env]
      exact hf.left
  · obtain ⟨t, hrun, hf⟩ := fetchSubBlock_zeroFill cause hq hfair.1 hl
    exact ⟨t, hrun, hf.sbbufAt, hf.left, hf.eng, hf.host, hf.sameTable, hf.sameStack⟩

/-! ## A round of the drain (R172) -/

/-- A quiet machine whose next step is a round of the drain. -/
structure Draining (s : State) : Prop where
  state : s.eng.state = .drainBusy
  quiet : Quiet s
  fair : Fair s
  request : s.ports.byteRequest = false
  offered : s.ports.offeredBeat = none

theorem Draining.step_eq (h : Draining s) : step s = Eng.outcome drainRound s := by
  rw [step_engine (by rw [Busy, h.state]; rfl) h.request h.offered (nothingDue_of_quiet h.quiet), stepEngine, engineTask,
    h.state]

/-- The terminator ends the image (R172). -/
theorem Draining.step_terminator (h : Draining s) {more : List Byte} (hu : unread s = 0#8 :: more) :
    step s = .next (((afterRead s 1).mapEng fun e => { e with state := .done }).mapHost (setPending .imageDone)) := by
  rw [h.step_eq, Eng.outcome, drainRound, run_bind, readSource_byte h.quiet h.fair.1 hu]
  dsimp only
  rw [if_pos (show 0#8 = 0 from rfl), finishImage, act_quiet (by exact h.quiet)]

/-- A nonzero length byte makes the round one fetch (R172). -/
theorem Draining.step_subBlock (h : Draining s) {more : List Byte} (hu : unread s = len :: more) (hne : len ≠ 0) :
    step s = Eng.outcome (fetchSubBlock len .drainContent) (afterRead s 1) := by
  rw [h.step_eq, Eng.outcome, drainRound, run_bind, readSource_byte h.quiet h.fair.1 hu]
  dsimp only
  rw [if_neg hne, Eng.outcome]

theorem Draining.step_exhausted (h : Draining s) (hu : unread s = []) :
    step s = .next (takeFault .drainLength 0 (afterRead s 0)) := by
  rw [h.step_eq, Eng.outcome, drainRound, run_bind, readSource_exhausted h.quiet h.fair.1 hu]
  dsimp only
  rw [raise_quiet (by exact h.quiet)]

/-- A fault entry inside a round writes the record, as STATE is DRAIN_BUSY (R226). -/
theorem Draining.fault_eq (h : Draining s) (c : Cause) (info : Word) (n : Nat) :
    takeFault c info (afterRead s n) = ((afterRead s n).mapEng (recordFault c info)).mapHost (setPending .fault) :=
  takeFault_of_ne (by rw [afterRead_eng, h.state]; decide) c info

/-- A round that has fetched its sub-block is followed by another. -/
theorem Draining.fetched (h : Draining s) {n : Nat} {bytes : Nat → Byte} {left : List Byte}
    (hf : Fetched (afterRead s 1) t 0 n bytes left) : Draining t where
  state := by rw [hf.eng]; exact h.state
  quiet := hf.bus.trans h.quiet
  fair := ⟨hf.answers.trans h.fair.1, by rw [hf.sink]; exact h.fair.2⟩
  request := hf.request rfl
  offered := hf.offered.trans h.offered

/-- Settles O39: the round reads the terminator and runs `finishImage`. -/
theorem drainEndsAtTheTerminator : Obligations.DrainEndsAtTheTerminator := by
  unfold Obligations.DrainEndsAtTheTerminator
  intro s more hs hq hfair hreq hoff hu
  have hports : { s.ports with byteRequest := false } = s.ports := by rw [← hreq]
  exact ⟨_, Draining.step_terminator ⟨hs, hq, hfair, hreq, hoff⟩ hu, rfl, rfl, (unread_eq_cons hu).2, rfl, rfl, hports, rfl⟩

/-- Settles O40: the round is one fetch (`Draining.step_subBlock`), which is complete, or short under the machine's policy;
after a short one under ZeroFill the source is exhausted. -/
theorem drainDiscardsSubBlocks : Obligations.DrainDiscardsSubBlocks := by
  unfold Obligations.DrainDiscardsSubBlocks
  intro s hs hq hfair hreq hoff
  have hdrain : Draining s := ⟨hs, hq, hfair, hreq, hoff⟩
  refine ⟨fun len more hu hne hl => ?_, fun hu => ?_, fun len held hu hl => ?_⟩
  · have hmore := (unread_eq_cons hu).2
    obtain ⟨t, hrun, hf⟩ := fetchSubBlock_complete (s := afterRead s 1) Config.shortReadPolicy .drainContent hq hfair.1
      (hmore ▸ hl)
    refine ⟨t, ?_, hf.eng, hf.host, hmore ▸ hf.left, hf.sameTable, hf.sameStack, hf.sink⟩
    rw [hdrain.step_subBlock hu hne, Eng.outcome, fetchSubBlock, hrun]
  · refine ⟨_, hdrain.step_exhausted hu, ?_⟩
    rw [hdrain.fault_eq]
    exact ⟨rfl, rfl, rfl⟩
  · have hheld := (unread_eq_cons hu).2
    have hne : len ≠ 0 := by rintro rfl; exact absurd hl (Nat.not_lt_zero _)
    rw [hdrain.step_subBlock hu hne, Eng.outcome, fetchSubBlock]
    cases Config.shortReadPolicy with
    | fault =>
      obtain ⟨t, hrun, hf⟩ := fetchSubBlock_fault (s := afterRead s 1) .drainContent hq hfair.1 (hheld ▸ hl)
      rw [hheld] at hrun
      have htake := takeFault_of_ne (s := t) (by rw [(hdrain.fetched hf).state]; decide) .drainContent
        (BitVec.ofNat 32 (len.toNat * 256 + held.length))
      refine ⟨_, by rw [hrun], ?_⟩
      rw [htake]
      refine ⟨hf.left, hf.sameTable, hf.sameStack, hf.sink, ?_, ?_⟩
      · rw [mapHost_eng, mapEng_eng, hf.eng]
        rfl
      · rw [mapHost_host, mapEng_host, hf.host]
        rfl
    | zeroFill =>
      obtain ⟨t, hrun, hf⟩ := fetchSubBlock_zeroFill (s := afterRead s 1) .drainContent hq hfair.1 (hheld ▸ hl)
      have hnext := hdrain.fetched hf
      refine ⟨t, by rw [hrun], hf.left, hf.sameTable, hf.sameStack, hf.sink, hf.eng, hf.host, _,
        hnext.step_exhausted hf.left, ?_⟩
      rw [hnext.fault_eq, mapHost_eng, mapEng_eng, afterRead_eng, hf.eng]
      rfl

end SubBlocks
end Sys2Proof.Machine

namespace Sys2Proof.Machine
/-! # ReadCode from buffered bits, and out of data (O23, O25)

A `Fill` that the data to come cannot satisfy takes every data byte there is (`fill_runsDry`) and then asks for a sub-block;
`NoSubBlock` says how that ends, and a short sub-block that ZeroFill completes is one more run of data. -/

section OutOfData

variable {s t u v : State} {n k : Nat}

/-! ## Enough bits buffered (R165 to R167) -/

/-- `Fill()` with CODE_WIDTH bits buffered takes no action (R164). -/
theorem fill_buffered (h : s.eng.codeWidth.toNat ≤ s.eng.shiftState.toNat) : (fill n).run s = .ok () s := by
  cases n with
  | zero => rfl
  | succ n =>
    rw [fill, run_bind, run_look]
    dsimp only
    rw [if_neg (by omega), run_pure]

/-- The bits that leave SHIFT_ACC are counted off in SHIFT_STATE (R165). -/
theorem consumed_eq {e : Engine} {w : BitVec 4} (h : w.toNat ≤ e.shiftState.toNat) :
    consumed w e = { e with
      shiftAcc := e.shiftAcc >>> w.toNat, shiftState := BitVec.ofNat 5 (e.shiftState.toNat - w.toNat) } := by
  have hstate : e.shiftState - w.setWidth 5 = BitVec.ofNat 5 (e.shiftState.toNat - w.toNat) := by bv_omega
  rw [consumed, hstate]

/-- A `ReadCode()` whose `Fill()` has buffered CODE_WIDTH bits (R165). -/
theorem readCode_filled (hw : s.eng.codeWidth.toNat ≤ 12) (hf : (fill 2).run s = .ok () t) (hq : Quiet t)
    (hc : t.eng.codeWidth = s.eng.codeWidth) :
    readCode.run s = .ok (lowBits t.eng.shiftAcc t.eng.codeWidth.toNat) (t.mapEng codeTaken) := by
  rw [readCode_quiet hw hf hq hc, ← hc]
  simp only [bumped_eq_counted, State.mapEng]

/-- Settles O23: `Fill` takes no action, and the code is consumed and counted. -/
theorem readCodeFromBufferedBits : Obligations.ReadCodeFromBufferedBits := by
  unfold Obligations.ReadCodeFromBufferedBits
  intro s hq hw hbits
  refine ⟨_, _, readCode_filled hw (fill_buffered hbits) hq rfl, lowBits_toNat hw, ?_⟩
  rw [State.mapEng, codeTaken, consumed_eq hbits]
  rfl

/-- Once the bits of a code are buffered, the read gives that code and leaves the bits after it. -/
theorem readCode_takes {c : Code} {more : List Bool} (hw : s.eng.codeWidth.toNat ≤ 12) (hq : Quiet s)
    (hf : (fill 2).run s = .ok () t) (ho : OnlyReader s t) (hbits : s.eng.codeWidth.toNat ≤ t.eng.shiftState.toNat)
    (hc : c.toNat < 2 ^ s.eng.codeWidth.toNat) (hpend : pendingBits t = encodeCodeBits s.eng.codeWidth.toNat c ++ more) :
    readCode.run s = .ok c (t.mapEng codeTaken) ∧ pendingBits (t.mapEng codeTaken) = more := by
  have hwidth : t.eng.codeWidth = s.eng.codeWidth := by rw [ho.eng]
  have hread := readCode_filled hw hf (ho.bus.trans hq) hwidth
  rw [← hwidth] at hw hc hpend hbits
  obtain ⟨rfl, rfl⟩ := encodeCodeBits_append_inj hc (by rw [lowBits_toNat hw]; exact Nat.mod_lt _ (Nat.two_pow_pos _))
    (hpend.symm.trans (pendingBits_codeTaken hw hbits))
  exact ⟨hread, rfl⟩

/-! ## A sub-block is asked for (R161) -/

theorem nextDataByte_stops {e : Stop} (h0 : s.eng.sbRem = 0) (h : newSubBlock.run s = .error e t) :
    nextDataByte.run s = .error e t := by
  rw [nextDataByte, run_bind, run_look]
  dsimp only
  rw [if_pos h0, run_bind, h]

theorem nextDataByte_newSubBlock (h0 : s.eng.sbRem = 0) (h : newSubBlock.run s = .ok () t) (hne : t.eng.sbRem ≠ 0) :
    nextDataByte.run s = nextDataByte.run t := by
  rw [nextDataByte, run_bind, run_look, run_bind, run_look]
  dsimp only
  rw [if_pos h0, if_neg hne, run_bind, h]

/-- A byte taken from the current sub-block leaves the agents, the byte source among them, as they are (R163). -/
theorem nextDataByte_env {b : Byte} (hq : Quiet s) (hne : s.eng.sbRem ≠ 0) (h : nextDataByte.run s = .ok b t) :
    t.env = s.env := by
  rw [nextDataByte, run_bind, run_look] at h
  dsimp only at h
  rw [if_neg hne, run_bind, run_look] at h
  dsimp only at h
  rw [run_bind, inRam, run_of] at h
  split_ifs at h
  dsimp only at h
  rw [wr_bind_quiet hq, run_pure] at h
  cases h
  rfl

/-- `Fill()` short of bits reads a byte first (R164). -/
theorem fill_short (h : s.eng.shiftState.toNat < s.eng.codeWidth.toNat) :
    (fill (n + 1)).run s = (nextDataByte >>= fun b => wr (accumulate b) >>= fun _ => fill n).run s := by
  rw [fill, run_bind, run_look]
  dsimp only
  rw [if_pos h]
  rfl

theorem fill_stops {e : Stop} (hlt : s.eng.shiftState.toNat < s.eng.codeWidth.toNat) (h0 : s.eng.sbRem = 0)
    (h : newSubBlock.run s = .error e t) : (fill (n + 1)).run s = .error e t := by
  rw [fill_short hlt, run_bind, nextDataByte_stops h0 h]

theorem readCode_stops {e : Stop} (hw : s.eng.codeWidth.toNat ≤ 12) (h : (fill 2).run s = .error e t) :
    readCode.run s = .error e t := by
  rw [readCode, run_bind, run_look]
  dsimp only
  rw [if_neg (show ¬12 < s.eng.codeWidth.toNat by omega), run_bind]
  rw [show (fill maxBytesPerCode).run s = .error e t from h]

/-! ## The complete sub-blocks run out (R103, R163) -/

theorem afterDataBytes_fuel : ∀ (n m : Nat) (l : List Byte), l.length ≤ n → l.length ≤ m →
    afterDataBytes n l = afterDataBytes m l
  | 0, m, l, hn, _ => by
    obtain rfl := List.length_eq_zero_iff.mp (Nat.le_zero.mp hn)
    cases m <;> rfl
  | n + 1, m, [], _, _ => by cases m <;> rfl
  | n + 1, 0, len :: r, _, hm => absurd hm (Nat.not_succ_le_zero _)
  | n + 1, m + 1, len :: r, hn, hm => by
    simp only [List.length_cons, Nat.add_le_add_iff_right] at hn hm
    have hdrop : (r.drop len.toNat).length ≤ r.length := by simp
    rw [afterDataBytes, afterDataBytes, afterDataBytes_fuel n m (r.drop len.toNat) (by omega) (by omega)]

/-- A complete sub-block is not what stands after them. -/
theorem afterDataBytes_cons {len : Byte} {r : List Byte} (hne : len ≠ 0) (hl : len.toNat ≤ r.length) :
    afterDataBytes (len :: r).length (len :: r) = afterDataBytes (r.drop len.toNat).length (r.drop len.toNat) := by
  rw [List.length_cons, afterDataBytes, if_neg (by rw [not_or]; exact ⟨hne, by omega⟩)]
  exact afterDataBytes_fuel _ _ _ (by simp) le_rfl

/-- With no data byte left, the stream stands where the complete sub-blocks end. -/
theorem afterDataBytes_of_dataBytes_nil {l : List Byte} (h : dataBytes l.length l = []) : afterDataBytes l.length l = l := by
  cases l with
  | nil => rfl
  | cons len r =>
    rw [List.length_cons, dataBytes] at h
    rw [List.length_cons, afterDataBytes]
    split_ifs at h ⊢ with hstop
    · rfl
    · rw [not_or] at hstop
      have htake := congrArg List.length (List.append_eq_nil_iff.mp h).1
      rw [List.length_take, List.length_nil] at htake
      exact absurd (BitVec.eq_of_toNat_eq (y := 0#8) (show len.toNat = 0 by omega)) hstop.1

/-- A data byte, from the current sub-block or a new one, is read before the stream that stands after the data. -/
theorem nextDataByte_keeps_streamAfterData {b : Byte} {ds : List Byte} (hq : Quiet s) (ha : s.env.source.answersLeft = none)
    (hd : dataToCome s = b :: ds) (h : nextDataByte.run s = .ok b t) : streamAfterData t = streamAfterData s := by
  by_cases h0 : s.eng.sbRem = 0
  · have hdata : dataBytes (unread s).length (unread s) = b :: ds := by simpa [dataToCome, h0] using hd
    obtain ⟨len, r, hu, hne, hl, -⟩ := dataBytes_cons hdata
    obtain ⟨u, hrun, ho, heng, -, hleft⟩ := newSubBlock_quiet hq ha hu hne hl
    have hrem : u.eng.sbRem ≠ 0 := by rw [heng]; exact hne
    have henv := nextDataByte_env (ho.bus.trans hq) hrem (nextDataByte_newSubBlock h0 hrun hrem ▸ h)
    rw [streamAfterData, streamAfterData, unread, henv, hu, afterDataBytes_cons hne hl, ← hleft]
  · rw [streamAfterData, streamAfterData, unread, nextDataByte_env hq h0 h]

/-- With no data byte to come, the pending bits are the buffered ones and the current sub-block is used up. -/
theorem pendingBits_of_dry (hd : dataToCome s = []) :
    pendingBits s = (List.range s.eng.shiftState.toNat).map s.eng.shiftAcc.getLsbD ∧ s.eng.sbRem = 0 ∧
      unread s = streamAfterData s := by
  obtain ⟨hrem, hdata⟩ := List.append_eq_nil_iff.mp hd
  refine ⟨by rw [pendingBits, hd, List.flatMap_nil, List.append_nil], ?_, (afterDataBytes_of_dataBytes_nil hdata).symm⟩
  have hzero : s.eng.sbRem.toNat = 0 := by simpa using congrArg List.length hrem
  exact BitVec.eq_of_toNat_eq hzero

/-! ## A Fill that runs dry (R164) -/

/-- The registers a `Fill` of at most n bytes can begin from: the buffered bits are the low ones of SHIFT_ACC, the current
sub-block lies inside SBBUF, and n bytes make up a code. -/
structure CanFill (n : Nat) (s : State) : Prop where
  quiet : Quiet s
  answers : s.env.source.answersLeft = none
  width : s.eng.codeWidth.toNat ≤ 12
  acc : s.eng.shiftAcc.toNat < 2 ^ s.eng.shiftState.toNat
  subBlock : s.eng.sbPos.toNat + s.eng.sbRem.toNat ≤ 255
  reach : s.eng.codeWidth.toNat ≤ s.eng.shiftState.toNat + 8 * n

theorem onlyReader_afterRead (s : State) (n : Nat) : OnlyReader s (afterRead s n) :=
  ⟨rfl, rfl, rfl, rfl, rfl, rfl, rfl, fun _ => ⟨rfl, rfl⟩, fun _ => rfl⟩

/-- A write of the reader's registers alone. -/
theorem onlyReader_mapEng (f : Engine → Engine)
    (hf : f s.eng = { s.eng with
      shiftAcc := (f s.eng).shiftAcc, shiftState := (f s.eng).shiftState, sbRem := (f s.eng).sbRem
      sbPos := (f s.eng).sbPos }) : OnlyReader s (s.mapEng f) :=
  ⟨hf, rfl, rfl, rfl, rfl, rfl, rfl, fun _ => ⟨rfl, rfl⟩, fun _ => rfl⟩

theorem buffered_le_pending (s : State) : s.eng.shiftState.toNat ≤ (pendingBits s).length := by
  simp [pendingBits]

/-- One data byte of a `Fill`: its bits go above the buffered ones, and none is lost. -/
theorem fill_takesByte {b : Byte} {ds : List Byte} (h : CanFill (n + 1) s)
    (hlt : s.eng.shiftState.toNat < s.eng.codeWidth.toNat) (hd : dataToCome s = b :: ds) :
    ∃ t, (fill (n + 1)).run s = (fill n).run t ∧ OnlyReader s t ∧ CanFill n t ∧ pendingBits t = pendingBits s ∧
      streamAfterData t = streamAfterData s := by
  obtain ⟨u, hrun, ho, hacc, hstate, hpos, hcome⟩ := nextDataByte_quiet h.quiet h.answers h.subBlock hd
  have hqu : Quiet u := ho.bus.trans h.quiet
  have hwidth : u.eng.codeWidth = s.eng.codeWidth := by rw [ho.eng]
  have hw := h.width
  have hreach := h.reach
  have hadd : (accumulate b u.eng).shiftState.toNat = s.eng.shiftState.toNat + 8 := by
    show (u.eng.shiftState + 8).toNat = _
    rw [hstate]
    bv_omega
  have hor : (accumulate b u.eng).shiftAcc = s.eng.shiftAcc ||| (b.setWidth 20 <<< s.eng.shiftState.toNat) := by
    rw [accumulate, hacc, hstate]
  refine ⟨u.mapEng (accumulate b), ?_, ho.trans (onlyReader_mapEng (accumulate b) rfl), ?_, ?_,
    (show streamAfterData u = _ from nextDataByte_keeps_streamAfterData h.quiet h.answers hd hrun)⟩
  · rw [fill_short hlt, run_bind, hrun]
    exact wr_bind_quiet hqu _ _
  · refine ⟨hqu, ho.answers.trans h.answers, hwidth ▸ hw, ?_, hpos, ?_⟩
    · rw [mapEng_eng, hadd, hor]
      exact accumulate_lt _ _ h.acc
    · show u.eng.codeWidth.toNat ≤ (accumulate b u.eng).shiftState.toNat + 8 * n
      rw [hwidth, hadd]
      omega
  · have hcome' : dataToCome (u.mapEng (accumulate b)) = ds := hcome
    rw [pendingBits, pendingBits, hcome', mapEng_eng, hadd, hor, accumulate_bits _ _ (by omega) h.acc, hd,
      List.flatMap_cons, List.append_assoc]

/-- A `Fill` of n bytes from s has come to u, short of bits, with every data byte taken and k + 1 bytes still to read. -/
structure RunsDry (n : Nat) (s : State) (k : Nat) (u : State) : Prop where
  run : (fill n).run s = (fill (k + 1)).run u
  only : OnlyReader s u
  canFill : CanFill (k + 1) u
  short : u.eng.shiftState.toNat < u.eng.codeWidth.toNat
  rem : u.eng.sbRem = 0
  bits : (List.range u.eng.shiftState.toNat).map u.eng.shiftAcc.getLsbD = pendingBits s
  left : unread u = streamAfterData s

/-- With fewer than CODE_WIDTH bits pending, `Fill` takes them all and goes on. -/
theorem fill_runsDry : ∀ {n : Nat} {s : State}, CanFill n s → (pendingBits s).length < s.eng.codeWidth.toNat →
    ∃ k u, RunsDry n s k u
  | 0, s, h, hshort => by
    have := h.reach
    have := buffered_le_pending s
    omega
  | n + 1, s, h, hshort => by
    have hlt : s.eng.shiftState.toNat < s.eng.codeWidth.toNat := (buffered_le_pending s).trans_lt hshort
    cases hd : dataToCome s with
    | nil =>
      obtain ⟨hbits, hrem, hleft⟩ := pendingBits_of_dry hd
      exact ⟨n, s, rfl, .refl s, h, hlt, hrem, hbits.symm, hleft⟩
    | cons b ds =>
      obtain ⟨t, hrun, ho, hcan, hpend, hafter⟩ := fill_takesByte h hlt hd
      have hwidth : t.eng.codeWidth = s.eng.codeWidth := by rw [ho.eng]
      obtain ⟨k, u, hdry⟩ := fill_runsDry hcan (by rwa [hpend, hwidth])
      exact ⟨k, u, hrun.trans hdry.run, ho.trans hdry.only, hdry.canFill, hdry.short, hdry.rem, hdry.bits.trans hpend,
        hdry.left.trans hafter⟩

/-! ## No sub-block (R161, R162, R222) -/

/-- A sub-block asked for in u is not to be had: the fault is taken with this much of the stream unread, and only the reader's
SBBUF and the source have changed. -/
def NoSubBlock (u : State) (c : Cause) (info : Word) (left : List Byte) : Prop :=
  ∃ t, newSubBlock.run u = .error .ended (takeFault c info t) ∧ OnlyReader u t ∧ t.eng = u.eng ∧ unread t = left

theorem OnlyReader.of_fetched {bytes : Nat → Byte} {left : List Byte} (h : Fetched s t 0 n bytes left) : OnlyReader s t where
  eng := by rw [h.eng]
  host := h.host
  free := h.free
  sink := h.sink
  bus := h.bus
  reads := h.reads
  answers := h.answers
  table := h.sameTable
  stack := h.sameStack

theorem newSubBlock_exhausted (hq : Quiet s) (ha : s.env.source.answersLeft = none) (hu : unread s = []) :
    newSubBlock.run s = .error .ended (takeFault .subBlockLength 0 (afterRead s 0)) := by
  rw [newSubBlock, run_bind, readSource_exhausted hq ha hu]
  exact raise_quiet (by exact hq) _ _

theorem newSubBlock_zero {more : List Byte} (hq : Quiet s) (ha : s.env.source.answersLeft = none)
    (hu : unread s = 0#8 :: more) :
    newSubBlock.run s = .error .ended (takeFault .zeroLengthSubBlock 0 (afterRead s 1)) := by
  rw [newSubBlock, run_bind, readSource_byte hq ha hu]
  dsimp only
  rw [if_pos (show 0#8 = 0 from rfl), raise_quiet (by exact hq)]

/-- A nonzero length byte is followed by the fetch of that many bytes (R161). -/
theorem newSubBlock_fetch {len : Byte} {more : List Byte} (hq : Quiet s) (ha : s.env.source.answersLeft = none)
    (hu : unread s = len :: more) (hne : len ≠ 0) :
    newSubBlock.run s = (fetchSubBlockUnder Config.shortReadPolicy len .subBlockContent >>= fun _ =>
      wr fun e => { e with sbRem := len, sbPos := 0 }).run (afterRead s 1) := by
  rw [newSubBlock, run_bind, readSource_byte hq ha hu]
  dsimp only
  rw [if_neg hne]
  rfl

theorem noSubBlock_exhausted (hq : Quiet s) (ha : s.env.source.answersLeft = none) (hu : unread s = []) :
    NoSubBlock s .subBlockLength 0 [] :=
  ⟨_, newSubBlock_exhausted hq ha hu, onlyReader_afterRead s 0, rfl, hu⟩

theorem noSubBlock_zero {more : List Byte} (hq : Quiet s) (ha : s.env.source.answersLeft = none)
    (hu : unread s = 0#8 :: more) : NoSubBlock s .zeroLengthSubBlock 0 more :=
  ⟨_, newSubBlock_zero hq ha hu, onlyReader_afterRead s 1, rfl, (unread_eq_cons hu).2⟩

theorem ne_zero_of_lt_toNat {len : Byte} (h : n < len.toNat) : len ≠ 0 := by
  rintro rfl
  exact absurd h (Nat.not_lt_zero _)

/-- A short sub-block under the policy Fault (R162). -/
theorem noSubBlock_short {len : Byte} {held : List Byte} (hpolicy : Config.shortReadPolicy = .fault) (hq : Quiet s)
    (ha : s.env.source.answersLeft = none) (hu : unread s = len :: held) (hl : held.length < len.toNat) :
    NoSubBlock s .subBlockContent (BitVec.ofNat 32 (len.toNat * 256 + held.length)) [] := by
  have hheld := (unread_eq_cons hu).2
  obtain ⟨t, hrun, hf⟩ := fetchSubBlock_fault (s := afterRead s 1) .subBlockContent hq ha (hheld ▸ hl)
  refine ⟨t, ?_, (onlyReader_afterRead s 1).trans (.of_fetched hf), hf.eng, hf.left⟩
  rw [newSubBlock_fetch hq ha hu (ne_zero_of_lt_toNat hl), run_bind, hpolicy, hrun, hheld]

/-- A short sub-block under the policy ZeroFill is a sub-block of its bytes and zeros (R162). -/
theorem newSubBlock_padded {len : Byte} {held : List Byte} (hpolicy : Config.shortReadPolicy = .zeroFill) (hq : Quiet s)
    (ha : s.env.source.answersLeft = none) (hu : unread s = len :: held) (hl : held.length < len.toNat) :
    ∃ t, newSubBlock.run s = .ok () t ∧ OnlyReader s t ∧ t.eng = { s.eng with sbRem := len, sbPos := 0 } ∧ unread t = [] ∧
      dataToCome t = held ++ List.replicate (len.toNat - held.length) 0#8 := by
  have hheld := (unread_eq_cons hu).2
  obtain ⟨t, hrun, hf⟩ := fetchSubBlock_zeroFill (s := afterRead s 1) .subBlockContent hq ha (hheld ▸ hl)
  rw [hheld] at hf
  have hq' : Quiet t := hf.bus.trans hq
  refine ⟨t.mapEng fun e => { e with sbRem := len, sbPos := 0 }, ?_,
    ((onlyReader_afterRead s 1).trans (.of_fetched hf)).trans (onlyReader_mapEng _ rfl),
    by rw [mapEng_eng, hf.eng, afterRead_eng], hf.left, ?_⟩
  · rw [newSubBlock_fetch hq ha hu (ne_zero_of_lt_toNat hl), run_bind, hpolicy, hrun]
    exact wr_quiet hq' _
  · have hleft : unread (t.mapEng fun e => { e with sbRem := len, sbPos := 0 }) = [] := hf.left
    rw [dataToCome, hleft, List.length_nil, dataBytes, List.append_nil]
    apply List.ext_getElem
    · simp
      omega
    · intro i hi hi'
      have hlt : i < len.toNat := by simpa using hi
      have hbyte : sbbufAt t i = held.getD i 0 := by rw [hf.sbbufAt, if_pos hlt]
      rw [List.getElem_map, List.getElem_range]
      show sbbufAt t (0 + i) = _
      rw [Nat.zero_add, hbyte, List.getD_eq_getElem?_getD, List.getElem_append]
      split_ifs with h
      · simp [h]
      · simp [show held.length ≤ i by omega]

/-! ## ReadCode out of data -/

/-- A read whose `Fill` runs dry and gets no sub-block ends in that fault. -/
theorem RunsDry.readCodeStops {c : Cause} {info : Word} {left : List Byte} (h : RunsDry n v k u)
    (hrun : (fill 2).run s = (fill n).run v) (ho : OnlyReader s v) (hs : s.eng.state = .lineBusy)
    (hno : NoSubBlock u c info left) : ReadCodeStops s (causeKind c) (causeCode c) info (pendingBits v) left := by
  obtain ⟨t, hstop, hot, heng, hleft⟩ := hno
  have hut : OnlyReader s u := ho.trans h.only
  have hst : OnlyReader s t := hut.trans hot
  have hw : s.eng.codeWidth.toNat ≤ 12 := by
    have := h.canFill.width
    rwa [hut.eng] at this
  have hne : t.eng.state ≠ .fault := by rw [heng, hut.eng]; exact hs ▸ (by decide)
  refine ⟨takeFault c info t, readCode_stops hw ((hrun.trans h.run).trans (fill_stops h.short h.rem hstop)), ?_⟩
  have hbits := h.bits
  rw [takeFault_of_ne hne]
  refine ⟨?_, by rw [← hbits, ← heng]; rfl, ?_, hleft, hst.table, hst.stack, hst.sink⟩
  · have hrem : t.eng.sbRem = 0 := by rw [heng, h.rem]
    rw [mapHost_eng, mapEng_eng, ← hrem, recordFault, hst.eng]
  · rw [mapHost_host, mapEng_host, hst.host]
    rfl

/-- A thread whose last instant follows from its first reads the source forwards (R22, R90). -/
theorem readForwards_of_run {α : Type} {a : α} {x : Eng α} (hx : x.Continues) (hb : Busy s) (hq : Quiet s)
    (h : x.run s = .ok a t) : ReadForwards s t := by
  obtain ⟨hleads, hends⟩ := hx s hb
  rw [h] at hends
  rw [hends.1]
  exact (keptByInstants_readForwards hq).leads (.of_env rfl) hleads

theorem ReadForwards.unread_nil (h : ReadForwards s t) (hu : unread s = []) : unread t = [] := by
  rw [unread, List.drop_eq_nil_iff] at hu ⊢
  rw [h.buffer]
  exact hu.trans h.cursor

/-- A short sub-block that ZeroFill completes lets the `Fill` go on from its bytes and the zeros (R162). -/
theorem RunsDry.padded {len : Byte} {held : List Byte} (h : RunsDry 2 s k u) (hpolicy : Config.shortReadPolicy = .zeroFill)
    (hu : streamAfterData s = len :: held) (hl : held.length < len.toNat) :
    ∃ v, (fill 2).run s = (fill (k + 1)).run v ∧ OnlyReader s v ∧ CanFill (k + 1) v ∧ unread v = [] ∧
      pendingBits v = pendingBits s ++ (held ++ List.replicate (len.toNat - held.length) 0#8).flatMap byteBits := by
  have hcan := h.canFill
  obtain ⟨v, hrun, ho, heng, hleft, hcome⟩ := newSubBlock_padded hpolicy hcan.quiet hcan.answers (h.left.trans hu) hl
  have hrem : v.eng.sbRem ≠ 0 := by rw [heng]; exact ne_zero_of_lt_toNat hl
  have hshort : v.eng.shiftState.toNat < v.eng.codeWidth.toNat := by rw [heng]; exact h.short
  refine ⟨v, ?_, h.only.trans ho, ⟨ho.bus.trans hcan.quiet, ho.answers.trans hcan.answers, ?_, ?_, ?_, ?_⟩, hleft, ?_⟩
  · rw [h.run, fill_short h.short, fill_short hshort, run_bind, run_bind, nextDataByte_newSubBlock h.rem hrun hrem]
  · rw [heng]
    exact hcan.width
  · rw [heng]
    exact hcan.acc
  · rw [heng]
    show (0#8).toNat + len.toNat ≤ 255
    bv_omega
  · rw [heng]
    exact hcan.reach
  · rw [pendingBits, hcome, heng, ← h.bits]

/-- A read that finds its bits in the padded sub-block, with which the source is exhausted. -/
theorem readCode_of_padded {c : Code} {more : List Bool} (hs : s.eng.state = .lineBusy) (hq : Quiet s)
    (hrun : (fill 2).run s = (fill n).run v) (ho : OnlyReader s v) (hcan : CanFill n v) (hleft : unread v = [])
    (hc : c.toNat < 2 ^ s.eng.codeWidth.toNat) (hbits : pendingBits v = encodeCodeBits s.eng.codeWidth.toNat c ++ more) :
    ∃ t, readCode.run s = .ok c t ∧ pendingBits t = more ∧ unread t = [] ∧
      t.eng = { counted s.eng with
        shiftAcc := t.eng.shiftAcc, shiftState := t.eng.shiftState, sbRem := t.eng.sbRem, sbPos := t.eng.sbPos } ∧
      SameTable s t ∧ SameStack s t ∧ t.env.sink = s.env.sink ∧ SameHostSide s t := by
  have hwidth : v.eng.codeWidth = s.eng.codeWidth := by rw [ho.eng]
  have henough : v.eng.codeWidth.toNat ≤ (pendingBits v).length := by simp [hbits, encodeCodeBits, hwidth]
  obtain ⟨t, hfill, hot, -, -, hbuf, hpend⟩ :=
    fill_quiet n hcan.quiet hcan.answers hcan.width hcan.acc hcan.subBlock hcan.reach henough
  have hst := ho.trans hot
  obtain ⟨hread, hmore⟩ := readCode_takes (hwidth ▸ hcan.width) hq (hrun.trans hfill) hst (hwidth ▸ hbuf) hc
    (hpend.trans hbits)
  have hbusy : Busy v := by rw [Busy, ho.eng, hs]; rfl
  have hunread : unread t = [] := (readForwards_of_run (continues_fill n) hbusy hcan.quiet hfill).unread_nil hleft
  refine ⟨_, hread, hmore, hunread, ?_, hst.table, hst.stack, hst.sink, hst.host, hst.free, hst.bus, hst.reads⟩
  rw [mapEng_eng, hst.eng]
  rfl

/-- Settles O25: a width above 12 faults at once; a `Fill` short of bits takes every data byte (`fill_runsDry`) and asks for a
sub-block, which is not to be had (`RunsDry.readCodeStops`) or is padded (`RunsDry.padded`). -/
theorem readCodeFaults : Obligations.ReadCodeFaults := by
  unfold Obligations.ReadCodeFaults
  intro s hq hfair hs
  have ha := hfair.1
  have hne (n : Nat) : (afterRead s n).eng.state ≠ .fault := by rw [afterRead_eng, hs]; decide
  refine ⟨fun hwide => ?_, fun hw hlt h0 => ⟨fun hu => ?_, fun more hu => ?_⟩, fun hw hacc hpos hshort => ?_⟩
  · refine ⟨takeFault .widthOverflow (s.eng.codeWidth.setWidth 32) s, ?_, ?_⟩
    · rw [readCode, run_bind, run_look]
      dsimp only
      rw [if_pos (show 12 < s.eng.codeWidth.toNat from hwide), raise_quiet hq]
    · rw [takeFault_of_ne (show s.eng.state ≠ .fault from hne 0)]
      exact ⟨rfl, rfl, rfl⟩
  · refine ⟨_, readCode_stops hw (fill_stops hlt h0 (newSubBlock_exhausted hq ha hu)), ?_⟩
    rw [takeFault_of_ne (hne 0)]
    exact ⟨rfl, rfl⟩
  · refine ⟨_, readCode_stops hw (fill_stops hlt h0 (newSubBlock_zero hq ha hu)), ?_⟩
    rw [takeFault_of_ne (hne 1)]
    exact ⟨rfl, rfl, (unread_eq_cons hu).2⟩
  · obtain ⟨k, u, hdry⟩ := fill_runsDry (n := 2) ⟨hq, ha, hw, hacc, hpos, by omega⟩ hshort
    have stops {c : Cause} {info : Word} {left : List Byte} (hno : NoSubBlock u c info left) :
        ReadCodeStops s (causeKind c) (causeCode c) info (pendingBits s) left :=
      hdry.readCodeStops rfl (.refl s) hs hno
    have hqu := hdry.canFill.quiet
    have hau := hdry.canFill.answers
    refine ⟨fun hend => stops (noSubBlock_exhausted hqu hau (hdry.left.trans hend)),
      fun more hend => stops (noSubBlock_zero hqu hau (hdry.left.trans hend)), fun len held hend hl => ?_⟩
    cases hpolicy : Config.shortReadPolicy with
    | fault => exact stops (noSubBlock_short hpolicy hqu hau (hdry.left.trans hend) hl)
    | zeroFill =>
      obtain ⟨v, hrun, ho, hcan, hleft, hbits⟩ := hdry.padded hpolicy hend hl
      have hwidth : v.eng.codeWidth = s.eng.codeWidth := by rw [ho.eng]
      dsimp only
      rw [← hbits]
      refine ⟨fun hfew => ?_, fun c more hc hcode => readCode_of_padded hs hq hrun ho hcan hleft hc hcode⟩
      obtain ⟨j, w, hdry'⟩ := fill_runsDry hcan (hwidth ▸ hfew)
      have hnone : unread w = [] := by rw [hdry'.left, streamAfterData, hleft]; rfl
      exact hdry'.readCodeStops hrun ho hs (noSubBlock_exhausted hdry'.canFill.quiet hdry'.canFill.answers hnone)

end OutOfData
end Sys2Proof.Machine

namespace Sys2Proof.Machine
/-! # From a safe state no step takes BadChain, TraceRunaway or WidthOverflow (O55)

What a task keeps (`keeps_taskActions`) already says how it ends: in a `SafeEnd`, or at a violation of R263. What is left are the
host accesses that are steps of their own, and the ports. -/

section UnreachableFaults

variable {s t : State}

/-- The outcome of a step is no fault of R195, and no stop at a RAM entry that does not exist (R80, R83). -/
def ReachableOutcome : Host.Outcome State Fault Refusal → Prop
  | .next t => t.eng.state = .fault → isUnreachableFault t.eng = false
  | .fault f => ∀ ram index, f ≠ .noSuchEntry ram index
  | .refused _ => True

theorem reachableOutcome_of_ne (h : t.eng.state ≠ .fault) : ReachableOutcome (.next t) := fun hf => absurd hf h

/-- A host access can fault the block only with a CommandError (R195, R227). -/
theorem Accessed.reachable {rest : List BusItem} (hs : s.eng.state ≠ .fault) (h : Accessed rest s t) :
    ReachableOutcome (.next t) := by
  cases h with
  | landed k => exact reachableOutcome_of_ne (k.eng ▸ hs)
  | positioned bytes _ => exact reachableOutcome_of_ne hs
  | refused c w kind _ =>
    intro _
    rw [takeFault_of_ne (s := taken rest s) hs]
    exact (isUnreachableFault_recordFault c w s.eng).trans (isUnreachableCause_of_kind_three kind)
  | init _ | line _ | reset => exact reachableOutcome_of_ne (by rintro ⟨⟩)

/-- A host access stops the machine only where it changes the stream inside an image (R263, U6). -/
theorem stepHost_fault {event : HostEvent} {rest : List BusItem} {f : Fault} (h : stepHost event rest s = .fault f) :
    f = .streamChangedInImage := by
  cases event with
  | read index => cases h
  | write index w =>
    rw [stepHost] at h
    split_ifs at h with hcmd
    · rw [stepCmd_eq] at h
      cases h
    · simp only [land, Eng.outcome, run_did] at h
      split_ifs at h
  | reset level => cases level <;> cases h
  | position bytes =>
    simp only [stepHost, land, Eng.outcome, run_did] at h
    split_ifs at h
    cases h
    rfl

theorem reachable_stepHost (hs : s.eng.state ≠ .fault) (event : HostEvent) (rest : List BusItem) :
    ReachableOutcome (stepHost event rest s) := by
  cases h : stepHost event rest s with
  | next t => exact (accessed_of_stepHost h).reachable hs
  | fault f => rw [stepHost_fault h]; rintro ram index ⟨⟩
  | refused r => trivial

theorem reachable_outcome {x : Eng Unit} {P : State → Prop} (hx : Eng.Keeps P x (fun _ => SafeEnd) safeEnds) (hs : P s) :
    ReachableOutcome (Eng.outcome x s) := by
  have hends := (hx s hs).1
  rw [Eng.outcome]
  revert hends
  rcases x.run s with ⟨_, u⟩ | ⟨_ | _ | f, u⟩
  · exact SafeEnd.reachable
  · exact SafeEnd.reachable
  · exact SafeEnd.reachable
  · rintro rfl ram index ⟨⟩

theorem reachable_stepBlock (h : Safe s) (hs : s.eng.state ≠ .fault) : ReachableOutcome (stepBlock s) := by
  by_cases hb : Busy s
  · cases hp : inFlight s.ports with
    | true =>
      rw [stepBlock, if_pos hb, if_pos hp, waitsFor]
      split_ifs <;> rintro ram index ⟨⟩
    | false =>
      rw [stepBlock_of_busy hb hp, stepEngine_eq]
      exact reachable_outcome (keeps_taskActions h hb hp) rfl
  · rw [stepBlock, if_neg hb]
    cases hc : portCompletes s with
    | none => exact reachableOutcome_of_ne hs
    | some u => exact reachableOutcome_of_ne ((portCompletes_frame hc).1 ▸ hs)

theorem reachable_step (h : Safe s) (hs : s.eng.state ≠ .fault) : ReachableOutcome (step s) := by
  cases hm : hostMoves s with
  | true =>
    obtain ⟨it, rest, -, hstep⟩ := step_of_hostMoves hm
    exact hstep ▸ reachable_stepHost hs it.event rest
  | false => exact step_of_not_hostMoves hm ▸ reachable_stepBlock h hs

/-- Settles O55: an access of the host takes no fault of R195 (`Accessed.reachable`), and neither does a task of the engine,
whatever accesses land inside it (`keeps_taskActions`). -/
theorem unreachableFaultsAreUnreachable : Obligations.UnreachableFaultsAreUnreachable := by
  unfold Obligations.UnreachableFaultsAreUnreachable
  intro s h hs
  have hstep := reachable_step h hs
  refine ⟨fun t ht => ?_, fun ram index hf => ?_⟩
  · rw [ht] at hstep
    exact hstep
  · rw [hf] at hstep
    exact hstep ram index rfl

end UnreachableFaults
end Sys2Proof.Machine

namespace Sys2Proof.Machine
/-! # END, CLEAR, PIXEL and INVALID (O27, O28, O29, O30, O33)

Each is a short thread of elementary actions; with no host access to come its run is one state, written out below. -/

section SimpleClasses

variable {α β : Type} {s t : State}

/-! ## How a thread ends as a step -/

theorem outcome_of_run {x : Eng Unit} (h : x.run s = .ok () t) : Eng.outcome x s = .next t := by rw [Eng.outcome, h]

/-- A command that ends in a fault ends in a next state (R226). -/
theorem outcome_of_ended {x : Eng Unit} (h : x.run s = .error .ended t) : Eng.outcome x s = .next t := by
  rw [Eng.outcome, h]

theorem run_bind_ok {x : Eng α} {f : α → Eng β} {a : α} (h : x.run s = .ok a t) : (x >>= f).run s = (f a).run t := by
  rw [run_bind, h]

theorem run_bind_ended {x : Eng α} {f : α → Eng β} (h : x.run s = .error .ended t) :
    (x >>= f).run s = .error .ended t := by rw [run_bind, h]

/-! ## INVALID (R185) and END (R180) -/

/-- Settles O33: INVALID is one fault entry. -/
theorem invalidCodeFaults : Obligations.InvalidCodeFaults := by
  unfold Obligations.InvalidCodeFaults
  intro s c hq hs
  have hrun : (invalidActions c).run s = .error .ended (takeFault .invalidCode (c.setWidth 32) s) := raise_quiet hq _ _
  rw [takeFault_of_ne hs] at hrun
  exact outcome_of_ended hrun

/-- Settles O28: END anywhere but on the last pixel is one fault entry. -/
theorem earlyEndFaults : Obligations.EarlyEndFaults := by
  unfold Obligations.EarlyEndFaults
  intro s c hq hs hpos
  have hrun : endActions.run s = .error .ended (takeFault .earlyEndCode (s.eng.col.setWidth 32) s) := by
    rw [endActions, run_bind_ok (run_look s), if_neg hpos]
    exact raise_quiet hq _ _
  rw [takeFault_of_ne hs] at hrun
  exact outcome_of_ended hrun

/-- The skip beat of the current position; its pixel is a free draw (R61, R180; log 3). -/
def skipBeat (s : State) : Beat :=
  { pix := Config.freePix s.free.draws, row := s.eng.row.setWidth 16, col := s.eng.col, skip := true }

theorem emitSkip_quiet (hq : Quiet s) (ha : s.env.sink.acceptsLeft = none) :
    emitSkip.run s = .ok () (afterBeat (skipBeat s) s.drawn) := by
  have hsink : sinkAccepts (offerSkip s) = some (afterBeat (skipBeat s) s.drawn) := by
    simp [sinkAccepts, offerSkip, ha, spend, afterBeat, skipBeat, State.mapPorts, State.mapEnv, State.drawn]
  rw [emitSkip, offerWith, run_bind_ok (act_quiet hq _), run_bind_ok (tick_quiet (by exact hq)), run_did, hsink]

theorem endActions_skips (hq : Quiet s) (ha : s.env.sink.acceptsLeft = none)
    (hpos : s.eng.col.toNat + 1 = s.eng.curWidth.toNat ∧ s.eng.lastLine = true) :
    endActions.run s = .ok ()
      ((afterBeat (skipBeat s) s.drawn).mapEng fun e => { e with col := e.col + 1, skipped := true }) := by
  rw [endActions, run_bind_ok (run_look s), if_pos hpos, run_bind_ok (emitSkip_quiet hq ha),
    run_bind_ok (nextCol_quiet (by exact hq)), wr_quiet (by exact hq)]
  rfl

/-- Settles O27: the skip beat is accepted, the column counted and SKIPPED set, and the column is then the width. -/
theorem endOnTheLastPixelSkips : Obligations.EndOnTheLastPixelSkips := by
  unfold Obligations.EndOnTheLastPixelSkips
  intro s c hq ha hcol hlast
  have hfull : s.eng.col + 1 = s.eng.curWidth := by bv_omega
  refine ⟨_, Config.freePix s.free.draws, outcome_of_run (endActions_skips hq ha ⟨hcol, hlast⟩), ?_, rfl, rfl, rfl, rfl, rfl,
    fun _ => ⟨rfl, rfl⟩, fun _ => rfl, fun _ => rfl⟩
  rw [← hfull]
  rfl

/-! ## CLEAR (R182) -/

/-- The registers CLEAR writes (R182). -/
def clearedRegistersOf (e : Engine) : Engine :=
  { e with
    runningCode := BitVec.ofNat 13 (clearCode e + 2)
    codeWidth := e.minCodeSize + 1
    maxCode1 := BitVec.ofNat 13 (2 ^ (e.minCodeSize.toNat + 1))
    lastCode := Config.noCode }

theorem clearActions_quiet (hq : Quiet s) :
    clearActions.run s = .ok () ((s.mapMem clearPrefix).mapEng clearedRegistersOf) := by
  rw [clearActions, run_bind_ok (act_quiet hq _), wr_quiet (by exact hq)]
  rfl

/-- Settles O29: CLEAR clears PREFIX and writes its four registers. -/
theorem clearResetsTheDecoder : Obligations.ClearResetsTheDecoder := by
  unfold Obligations.ClearResetsTheDecoder
  intro s c hq hm
  have hwidth : s.eng.minCodeSize + 1 = BitVec.ofNat 4 (s.eng.minCodeSize.toNat + 1) := by bv_omega
  refine ⟨_, outcome_of_run (clearActions_quiet hq), ?_, fun j => ⟨prefixAt_clearPrefix s j, rfl⟩, fun _ => rfl, fun _ => rfl, rfl,
    rfl, rfl, rfl⟩
  rw [← hwidth]
  rfl

/-! ## PIXEL (R184) -/

/-- The state after a beat of this pixel at ROW and COL, and the count of the column (R61, R184). -/
def pixelEmitted (pix : Byte) (s : State) : State :=
  (afterBeat { pix := pix, row := s.eng.row.setWidth 16, col := s.eng.col, skip := false } s).mapEng
    fun e => { e with col := e.col + 1 }

theorem emitPixel_nextCol_quiet (hq : Quiet s) (ha : s.env.sink.acceptsLeft = none) (pix : Byte) (f : Unit → Eng α) :
    (emitPixel pix >>= fun _ => nextCol >>= f).run s = (f ()).run (pixelEmitted pix s) := by
  rw [run_bind_ok (emitPixel_quiet hq ha pix), run_bind_ok (nextCol_quiet (by exact hq))]
  rfl

theorem pixelActions_quiet (hq : Quiet s) (ha : s.env.sink.acceptsLeft = none) (hindex : appendIndex s.eng < Config.tableSize)
    (c : Code) :
    (pixelActions c).run s = .ok ()
      ((appended (c.setWidth 8) (pixelEmitted (c.setWidth 8) s)).mapEng fun e => { e with lastCode := c.setWidth 13 }) := by
  rw [pixelActions, emitPixel_nextCol_quiet hq ha, run_bind_ok (append_quiet (by exact hq) (by exact hindex) _),
    setLast_quiet (by rw [appended_env]; exact hq)]

/-- Settles O30: PIXEL is one beat, the append of its code, and LAST_CODE. -/
theorem pixelEmitsItsCode : Obligations.PixelEmitsItsCode := by
  unfold Obligations.PixelEmitsItsCode
  intro s c hq ha h2 hr
  have hindex : appendIndex s.eng < Config.tableSize := by
    rw [appendIndex_eq h2]
    show _ < 4096
    omega
  have happends : Appends (c.setWidth 8) s (appended (c.setWidth 8) (pixelEmitted (c.setWidth 8) s)) :=
    (appended_appends (s := pixelEmitted (c.setWidth 8) s) h2 _).of_sameTable (fun _ => ⟨rfl, rfl⟩) rfl rfl
  refine ⟨_, outcome_of_run (pixelActions_quiet hq ha hindex c), ?_, ?_, happends,
    appended_stack _ (pixelEmitted (c.setWidth 8) s), appended_sbbuf _ (pixelEmitted (c.setWidth 8) s), ?_, ?_, ?_⟩
  · rw [mapEng_eng, appended_eng]
    rfl
  · rw [mapEng_env, appended_env]
    rfl
  · rw [mapEng_host, appended_host]
    rfl
  · rw [mapEng_ports, appended_ports]
    rfl
  · rw [mapEng_free, appended_free]
    rfl

end SimpleClasses
end Sys2Proof.Machine

namespace Sys2Proof.Machine
/-! # Chain walks that fault (O34, O57)

A walk of `Trace` or `Root` passes through defined entries one by one and then meets a link at which it stops. What one link does
is said once for each walk; `Trace` also pushes a suffix at each entry, which changes no link (`SameChain`). -/

section ChainFaults

variable {α : Type} {s t u : State} {p start : Link} {n : Nat}

/-! ## Links -/

/-- A defined TABLE entry, at which a walk goes on (R188). -/
def DefinedEntry (s : State) (p : Link) : Prop :=
  clearCode s.eng < p.toNat ∧ p.toNat ≤ 4095 ∧ prefixAt s p.toNat ≠ Config.noCode

/-- A link is a pixel, a defined entry, or broken. -/
theorem pixel_or_entry (h : ¬BrokenLink s p) : p.toNat < clearCode s.eng ∨ DefinedEntry s p := by
  rw [BrokenLink, not_or, not_and, not_or] at h
  obtain ⟨hclear, hentry⟩ := h
  rcases Nat.lt_trichotomy p.toNat (clearCode s.eng) with hlt | heq | hgt
  · exact .inl hlt
  · exact absurd heq hclear
  · exact .inr ⟨hgt, Nat.le_of_not_lt (hentry hgt).1, (hentry hgt).2⟩

theorem DefinedEntry.not_broken (h : DefinedEntry s p) : ¬BrokenLink s p := by
  obtain ⟨hgt, hle, hd⟩ := h
  rintro (hclear | ⟨-, hlt | hn⟩)
  · omega
  · omega
  · exact hd hn

theorem not_broken_of_pixel (h : p.toNat < clearCode s.eng) : ¬BrokenLink s p := by
  rintro (hclear | ⟨hgt, -⟩) <;> omega

/-- R188's checks let a walk go on at a defined entry. -/
theorem linkChecks_entry (h : DefinedEntry s p) (atRoot badClear badEntry goOn : α) :
    (if p.toNat < clearCode s.eng then atRoot
      else if p.toNat = clearCode s.eng then badClear
      else if 4095 < p.toNat ∨ prefixAt s p.toNat = Config.noCode then badEntry
      else goOn) = goOn := by
  obtain ⟨hgt, hle, hd⟩ := h
  rw [if_neg (by omega), if_neg (by omega), if_neg (not_or.mpr ⟨by omega, hd⟩)]

/-- R188's checks fault a walk at a broken link. -/
theorem linkChecks_broken (h : BrokenLink s p) (atRoot bad goOn : α) :
    (if p.toNat < clearCode s.eng then atRoot
      else if p.toNat = clearCode s.eng then bad
      else if 4095 < p.toNat ∨ prefixAt s p.toNat = Config.noCode then bad
      else goOn) = bad := by
  rcases h with hclear | ⟨hgt, hbad⟩
  · rw [if_neg (by omega), if_pos hclear]
  · rw [if_neg (by omega), if_neg (by omega), if_pos hbad]

/-- The two states have the same links: the same codes are pixels, and PREFIX reads the same. -/
structure SameChain (s t : State) : Prop where
  clear : clearCode t.eng = clearCode s.eng
  prefixes : ∀ j, prefixAt t j = prefixAt s j

theorem SameChain.linkAfter (h : SameChain s t) (start : Link) : ∀ n, linkAfter t start n = linkAfter s start n
  | 0 => rfl
  | n + 1 => by rw [Machine.linkAfter, Machine.linkAfter, h.linkAfter start n, h.prefixes]

theorem SameChain.brokenLink (h : SameChain s t) (p : Link) : BrokenLink t p ↔ BrokenLink s p := by
  rw [BrokenLink, BrokenLink, h.clear, h.prefixes]

theorem SameChain.definedEntry (h : SameChain s t) (p : Link) : DefinedEntry t p ↔ DefinedEntry s p := by
  rw [DefinedEntry, DefinedEntry, h.clear, h.prefixes]

theorem SameChain.definedChain (h : SameChain s t) (hd : DefinedChain s start n) : DefinedChain t start n := fun k hk =>
  (h.definedEntry _).mpr (h.linkAfter start k ▸ hd k hk)

theorem OnlyStack.refl (s : State) : OnlyStack s s := ⟨rfl, rfl, rfl, rfl, rfl, ⟨rfl, rfl, rfl⟩, rfl⟩

theorem OnlyStack.sameChain (h : OnlyStack s t) : SameChain s t where
  clear := by rw [h.eng]; rfl
  prefixes j := (h.sameTable j).1

theorem DefinedChain.mono {m : Nat} (h : DefinedChain s start n) (hm : m ≤ n) : DefinedChain s start m := fun k hk =>
  h k (hk.trans_le hm)

/-! ## Root -/

theorem rootFrom_entry (h : DefinedEntry s p) (code : Code) (m : Nat) :
    (rootFrom code (m + 1) p).run s = (rootFrom code m (prefixAt s p.toNat)).run s := by
  rw [rootFrom, run_bind_ok (run_look s), linkChecks_entry h]

theorem rootFrom_broken (hq : Quiet s) (h : BrokenLink s p) (code : Code) (m : Nat) :
    (rootFrom code m p).run s = .error .ended (takeFault .badChain (code.setWidth 32) s) := by
  unfold rootFrom
  rw [run_bind_ok (run_look s), linkChecks_broken h, raise_quiet hq]

theorem rootFrom_limit (hq : Quiet s) (h : DefinedEntry s p) (code : Code) :
    (rootFrom code 0 p).run s = .error .ended (takeFault .traceRunaway (code.setWidth 32) s) := by
  rw [rootFrom, run_bind_ok (run_look s), linkChecks_entry h, raise_quiet hq]

theorem rootFrom_pixel (h : p.toNat < clearCode s.eng) (code : Code) (m : Nat) : (rootFrom code m p).run s = .ok p s := by
  unfold rootFrom
  rw [run_bind_ok (run_look s), if_pos h, run_pure]

/-- `Root` passes through defined entries, one step of its limit for each. -/
theorem rootFrom_walks (code : Code) : ∀ (n m : Nat), DefinedChain s start n →
    (rootFrom code (m + n) start).run s = (rootFrom code m (linkAfter s start n)).run s
  | 0, _, _ => rfl
  | n + 1, m, h => by
    rw [show m + (n + 1) = m + 1 + n by omega, rootFrom_walks code n (m + 1) (h.mono n.le_succ),
      rootFrom_entry (h n n.lt_succ_self)]
    rfl

/-- `Root` up to its n-th link, n being within TRACE_LIMIT. -/
theorem root_walks (h : DefinedChain s start n) (hn : n ≤ 4096) (code : Code) :
    (root start code).run s = (rootFrom code (4096 - n) (linkAfter s start n)).run s := by
  rw [← rootFrom_walks code n (4096 - n) h, Nat.sub_add_cancel hn]
  rfl

/-! ## Trace -/

theorem push_full (hq : Quiet s) (hs : s.eng.stackPtr.toNat = 4096) (code : Code) (v : Byte) :
    (push code v).run s = .error .ended (takeFault .traceRunaway (code.setWidth 32) s) := by
  rw [push, run_bind_ok (run_look s), if_pos hs, raise_quiet hq]

theorem traceFrom_entry (hq : Quiet s) (hs : s.eng.stackPtr.toNat < 4096) (h : DefinedEntry s p) (code : Code) (m : Nat) :
    (traceFrom code (m + 1) p).run s =
      (traceFrom code m (prefixAt s p.toNat)).run (pushed (suffixAt s p.toNat) s) := by
  rw [traceFrom, run_bind_ok (run_look s), linkChecks_entry h, run_bind_ok (push_quiet hq hs code _)]

theorem traceFrom_broken (hq : Quiet s) (h : BrokenLink s p) (code : Code) (m : Nat) :
    (traceFrom code m p).run s = .error .ended (takeFault .badChain (code.setWidth 32) s) := by
  unfold traceFrom
  rw [run_bind_ok (run_look s), linkChecks_broken h, raise_quiet hq]

/-- On a full stack `Trace` faults at a pixel and at a defined entry, whatever is left of its limit. -/
theorem traceFrom_full (hq : Quiet s) (hs : s.eng.stackPtr.toNat = 4096) (h : ¬BrokenLink s p) (code : Code) (m : Nat) :
    (traceFrom code m p).run s = .error .ended (takeFault .traceRunaway (code.setWidth 32) s) := by
  have hfull := push_full hq hs code
  unfold traceFrom
  rw [run_bind_ok (run_look s)]
  rcases pixel_or_entry h with hpixel | hentry
  · rw [if_pos hpixel, run_bind_ended (hfull _)]
  · rw [linkChecks_entry hentry]
    cases m with
    | zero => exact raise_quiet hq _ _
    | succ m => exact run_bind_ended (hfull _)

/-- From s to t the suffixes of the first n links from `start` were pushed (R188). -/
structure SuffixesPushed (start : Link) (n : Nat) (s t : State) : Prop where
  only : OnlyStack s t
  ptr : t.eng.stackPtr.toNat = s.eng.stackPtr.toNat + n
  stack : ∀ k, stackAt t k =
    if s.eng.stackPtr.toNat ≤ k ∧ k < s.eng.stackPtr.toNat + n
    then suffixAt s (linkAfter s start (k - s.eng.stackPtr.toNat)).toNat else stackAt s k

theorem SuffixesPushed.none (start : Link) (s : State) : SuffixesPushed start 0 s s where
  only := .refl s
  ptr := rfl
  stack k := (if_neg (by omega)).symm

/-- One suffix more. -/
theorem SuffixesPushed.push (h : SuffixesPushed start n s t) (hroom : t.eng.stackPtr.toNat < 4096) :
    SuffixesPushed start (n + 1) s (pushed (suffixAt t (linkAfter s start n).toNat) t) where
  only := h.only.trans (.pushed _ t)
  ptr := by rw [pushed_ptr hroom, h.ptr, Nat.add_assoc]
  stack k := by
    rw [pushed_stackAt, h.ptr, h.stack, (h.only.sameTable _).2]
    by_cases htop : s.eng.stackPtr.toNat + n = k
    · rw [if_pos htop, if_pos (by omega), show k - s.eng.stackPtr.toNat = n by omega]
    · rw [if_neg htop]
      congr 1
      exact propext (by omega)

/-- `Trace` passes through defined entries, as many as its limit and the stack have room for. -/
theorem traceFrom_walks (hq : Quiet s) (code : Code) : ∀ (n m : Nat), DefinedChain s start n →
    s.eng.stackPtr.toNat + n ≤ 4096 →
    ∃ t, (traceFrom code (m + n) start).run s = (traceFrom code m (linkAfter s start n)).run t ∧ SuffixesPushed start n s t
  | 0, _, _, _ => ⟨s, rfl, .none start s⟩
  | n + 1, m, h, hroom => by
    obtain ⟨t, hrun, hpushed⟩ := traceFrom_walks hq code n (m + 1) (h.mono n.le_succ) (by omega)
    have hptr : t.eng.stackPtr.toNat < 4096 := by rw [hpushed.ptr]; omega
    have hchain := hpushed.only.sameChain
    have hentry := (hchain.definedEntry _).mpr (h n n.lt_succ_self)
    refine ⟨_, ?_, hpushed.push hptr⟩
    rw [show m + (n + 1) = m + 1 + n by omega, hrun,
      traceFrom_entry (by rw [Quiet, hpushed.only.env]; exact hq) hptr hentry, hchain.prefixes]
    rfl

/-! ## The fault a walk ends in -/

/-- From s to t a walk of the code c has faulted, and but for the stack nothing else has changed (R226). -/
structure WalkFaulted (cause : Cause) (c : Code) (ptr : BitVec 13) (s t : State) : Prop where
  eng : t.eng = { s.eng with
    stackPtr := ptr, state := .fault, faultKind := causeKind cause, faultCause := causeCode cause, faultInfo := c.setWidth 32 }
  host : t.host = { s.host with irqStatus := s.host.irqStatus ||| 4#3 }
  table : SameTable s t
  sbbuf : SameSbbuf s t
  ports : t.ports = s.ports
  env : t.env = s.env
  free : t.free = s.free

theorem OnlyStack.walkFaulted (h : OnlyStack s t) (hs : s.eng.state ≠ .fault) (cause : Cause) (c : Code) :
    WalkFaulted cause c t.eng.stackPtr s (takeFault cause (c.setWidth 32) t) := by
  rw [takeFault_of_ne (by rw [h.eng]; exact hs)]
  exact
    { eng := by
        rw [mapHost_eng, mapEng_eng, recordFault]
        conv_lhs => rw [h.eng]
      host := by rw [mapHost_host, mapEng_host, h.host]; rfl
      table := h.sameTable
      sbbuf := h.sameSbbuf
      ports := h.ports
      env := h.env
      free := h.free }

theorem takeFault_stackAt (cause : Cause) (info : Word) (s : State) (k : Nat) : stackAt (takeFault cause info s) k = stackAt s k := by
  rw [takeFault]
  split_ifs <;> rfl

theorem WalkFaulted.of_onlyStack {cause : Cause} {c : Code} {ptr : BitVec 13} (h : WalkFaulted cause c ptr t u)
    (hst : OnlyStack s t) : WalkFaulted cause c ptr s u where
  eng := by rw [h.eng, hst.eng]
  host := by rw [h.host, hst.host]
  table j := ⟨(h.table j).1.trans (hst.sameTable j).1, (h.table j).2.trans (hst.sameTable j).2⟩
  sbbuf k := (h.sbbuf k).trans (hst.sameSbbuf k)
  ports := h.ports.trans hst.ports
  env := h.env.trans hst.env
  free := h.free.trans hst.free

theorem SuffixesPushed.stackPtr_eq (h : SuffixesPushed start n s t) (hroom : s.eng.stackPtr.toNat + n ≤ 4096) :
    t.eng.stackPtr = s.eng.stackPtr + BitVec.ofNat 13 n := by
  apply BitVec.eq_of_toNat_eq
  rw [h.ptr, BitVec.toNat_add, BitVec.toNat_ofNat]
  omega

/-- The end of KNOWN and of KWKWK faults where `Trace` does, at the n-th link of its walk; the n suffixes stay on the stack. -/
theorem emitString_faults {c : Code} {cause : Cause} (hq : Quiet s) (hs : s.eng.state ≠ .fault) (h : DefinedChain s start n)
    (hroom : s.eng.stackPtr.toNat + n ≤ 4096)
    (hstop : ∀ t, Quiet t → SuffixesPushed start n s t →
      (traceFrom c (4096 - n) (linkAfter s start n)).run t = .error .ended (takeFault cause (c.setWidth 32) t)) :
    ∃ t, (emitString start c).run s = .error .ended t ∧
      WalkFaulted cause c (s.eng.stackPtr + BitVec.ofNat 13 n) s t ∧
      ∀ k, stackAt t k =
        if s.eng.stackPtr.toNat ≤ k ∧ k < s.eng.stackPtr.toNat + n
        then suffixAt s (linkAfter s start (k - s.eng.stackPtr.toNat)).toNat else stackAt s k := by
  obtain ⟨t, hrun, hpushed⟩ := traceFrom_walks hq c n (4096 - n) h hroom
  rw [Nat.sub_add_cancel (by omega), hstop t (by rw [Quiet, hpushed.only.env]; exact hq) hpushed] at hrun
  exact ⟨_, run_bind_ended hrun, hpushed.stackPtr_eq hroom ▸ hpushed.only.walkFaulted hs cause c,
    fun k => (takeFault_stackAt _ _ t k).trans (hpushed.stack k)⟩

/-- KWKWK faults where `Root` does. -/
theorem kwkwkActions_ended {c : Code} (h : (root s.eng.lastCode c).run s = .error .ended t) :
    (kwkwkActions c).run s = .error .ended t := by
  rw [kwkwkActions, run_bind_ok (run_look s)]
  exact run_bind_ended h

/-- Settles O34: `Trace` and `Root` reach the broken link (`traceFrom_walks`, `root_walks`) and fault there. -/
theorem brokenChainFaults : Obligations.BrokenChainFaults := by
  unfold Obligations.BrokenChainFaults
  intro s c n hq hs hn
  refine ⟨fun hdef hbroken hroom => ?_, fun hdef hbroken => ?_⟩
  · obtain ⟨t, hrun, hfault, hstack⟩ := emitString_faults (cause := .badChain) (c := c) hq hs hdef hroom fun t hqt hpushed =>
      traceFrom_broken hqt ((hpushed.only.sameChain.brokenLink _).mpr hbroken) c _
    exact ⟨t, outcome_of_ended hrun, hfault.eng, hfault.host, hstack, hfault.table, hfault.sbbuf, hfault.ports, hfault.env,
      hfault.free⟩
  · have hrun := kwkwkActions_ended ((root_walks hdef hn c).trans (rootFrom_broken hq hbroken c _))
    rw [takeFault_of_ne hs] at hrun
    exact outcome_of_ended hrun

/-! ## Strings that are too long (R82, R188) -/

/-- `Trace` faults on a full stack, the suffixes that fitted being on it. -/
theorem emitString_overflows {c : Code} (hq : Quiet s) (hs : s.eng.state ≠ .fault) (h : DefinedChain s start n)
    (hnext : ¬BrokenLink s (linkAfter s start n)) (hfull : s.eng.stackPtr.toNat + n = 4096) :
    ∃ t, (emitString start c).run s = .error .ended t ∧ WalkFaulted .traceRunaway c 4096 s t ∧
      ∀ k, stackAt t k =
        if s.eng.stackPtr.toNat ≤ k ∧ k < 4096
        then suffixAt s (linkAfter s start (k - s.eng.stackPtr.toNat)).toNat else stackAt s k := by
  have hptr : s.eng.stackPtr + BitVec.ofNat 13 n = 4096 := by
    apply BitVec.eq_of_toNat_eq
    rw [BitVec.toNat_add, BitVec.toNat_ofNat, Nat.add_mod_mod, hfull]
    rfl
  rw [← hptr, ← hfull]
  exact emitString_faults hq hs h hfull.le fun t hqt hpushed =>
    traceFrom_full hqt (hpushed.ptr.trans hfull) (mt (hpushed.only.sameChain.brokenLink _).mp hnext) c _

/-- No link of a string is broken: its entries are defined, and it ends at a pixel. -/
theorem DefinedChain.not_broken {m : Nat} (h : DefinedChain s start n) (hpixel : (linkAfter s start n).toNat < clearCode s.eng)
    (hm : m ≤ n) : ¬BrokenLink s (linkAfter s start m) := by
  rcases hm.eq_or_lt with rfl | hlt
  · exact not_broken_of_pixel hpixel
  · exact DefinedEntry.not_broken (h m hlt)

theorem kwkwkActions_of_root {c : Code} {r : Link} (hq : Quiet s) (h : (root s.eng.lastCode c).run s = .ok r s) :
    (kwkwkActions c).run s =
      (push c (r.setWidth 8) >>= fun _ => emitString s.eng.lastCode c).run (s.mapMem (setSuffix c.toNat (r.setWidth 8))) := by
  rw [kwkwkActions_eq, run_bind_ok (run_look s), run_bind_ok h, run_bind_ok (wrRam_quiet hq c.isLt _)]

/-- A string that does not fit over the pixel KWKWK pushes first, or that pixel itself, overflows the stack. -/
theorem push_emitString_overflows {c : Code} {v : Byte} (hq : Quiet s) (hs : s.eng.state ≠ .fault)
    (h : DefinedChain s start n) (hpixel : (linkAfter s start n).toNat < clearCode s.eng)
    (hle : s.eng.stackPtr.toNat ≤ 4096) (hlong : 4096 < s.eng.stackPtr.toNat + n + 2) :
    ∃ t, (push c v >>= fun _ => emitString start c).run s = .error .ended t ∧ WalkFaulted .traceRunaway c 4096 s t ∧
      ∀ k, stackAt t k =
        if s.eng.stackPtr.toNat = k ∧ k < 4096 then v
        else if s.eng.stackPtr.toNat < k ∧ k < 4096
        then suffixAt s (linkAfter s start (k - s.eng.stackPtr.toNat - 1)).toNat else stackAt s k := by
  rcases hle.eq_or_lt with hfull | hroom
  · have hptr : s.eng.stackPtr = 4096 := BitVec.eq_of_toNat_eq hfull
    refine ⟨_, run_bind_ended (push_full hq hfull c v),
      hptr ▸ (OnlyStack.refl s).walkFaulted hs .traceRunaway c, fun k => ?_⟩
    rw [takeFault_stackAt, if_neg (by omega), if_neg (by omega)]
  · have honly := OnlyStack.pushed v s
    have hchain := honly.sameChain
    have hptr := pushed_ptr hroom v
    have hnext := mt (hchain.brokenLink _).mp (h.not_broken hpixel (m := 4095 - s.eng.stackPtr.toNat) (by omega))
    rw [← hchain.linkAfter] at hnext
    obtain ⟨t, hrun, hfault, hstack⟩ := emitString_overflows (s := pushed v s) (c := c) hq hs
      (hchain.definedChain (h.mono (by omega))) hnext (by omega)
    refine ⟨t, (run_bind_ok (push_quiet hq hroom c v)).trans hrun, hfault.of_onlyStack honly, fun k => ?_⟩
    rw [hstack, hptr, pushed_stackAt, (honly.sameTable _).2, hchain.linkAfter]
    by_cases hk : s.eng.stackPtr.toNat = k
    · rw [if_neg (by omega), if_pos hk, if_pos ⟨hk, by omega⟩]
    · rw [if_neg hk, Nat.sub_add_eq, if_neg fun h : s.eng.stackPtr.toNat = k ∧ k < 4096 => hk h.1]
      rfl

theorem sameChain_setSuffix (i : Nat) (v : Byte) (s : State) : SameChain s (s.mapMem (setSuffix i v)) where
  clear := rfl
  prefixes := prefixAt_setSuffix s i v

/-- Settles O57: `Trace` overflows the stack in KNOWN and, over the pixel it pushes first, in KWKWK; `Root` runs out of steps. -/
theorem traceRunawayFaults : Obligations.TraceRunawayFaults := by
  unfold Obligations.TraceRunawayFaults
  intro s c hq hs
  refine ⟨fun n hdef hnext hfull => ?_, fun hdef => ?_, fun n hn hdef hpixel hle hlong => ?_⟩
  · obtain ⟨t, hrun, hfault, hstack⟩ := emitString_overflows (c := c) hq hs hdef hnext hfull
    exact ⟨t, outcome_of_ended hrun, hfault.eng, hfault.host, hstack, hfault.table, hfault.sbbuf, hfault.ports, hfault.env,
      hfault.free⟩
  · have hrun := kwkwkActions_ended ((root_walks (hdef.mono (by decide)) le_rfl c).trans
      (rootFrom_limit hq (hdef 4096 (by decide)) c))
    rw [takeFault_of_ne hs] at hrun
    exact outcome_of_ended hrun
  · have hroot := (root_walks hdef hn c).trans (rootFrom_pixel hpixel c _)
    have hchain := sameChain_setSuffix c.toNat ((linkAfter s s.eng.lastCode n).setWidth 8) s
    obtain ⟨t, hrun, hfault, hstack⟩ := push_emitString_overflows (c := c) (v := (linkAfter s s.eng.lastCode n).setWidth 8)
      (s := s.mapMem (setSuffix c.toNat ((linkAfter s s.eng.lastCode n).setWidth 8))) hq hs (hchain.definedChain hdef)
      (by rw [hchain.linkAfter]; exact hpixel) hle hlong
    refine ⟨t, outcome_of_ended ((kwkwkActions_of_root hq hroot).trans hrun), hfault.eng, hfault.host, fun j => ?_, fun k => ?_,
      hfault.sbbuf, hfault.ports, hfault.env, hfault.free⟩
    · obtain ⟨hprefix, hsuffix⟩ := hfault.table j
      rw [hprefix, hsuffix, prefixAt_setSuffix, suffixAt_setSuffix]
      exact ⟨rfl, by simp only [eq_comm]⟩
    · rw [hstack, hchain.linkAfter, (hfault.table _).2]
      rfl

end ChainFaults
end Sys2Proof.Machine

namespace Sys2Proof.Machine
/-! # The row sequencer (O37, O38)

`AdvanceRow` is one stride within the pass and then the loop that leaves a pass with no row left. The order in which rows are
visited is lexicographic in a row's pass and the row itself (`Ahead`): the stride takes one row, the current one, out of the rows
ahead, and the loop takes none. -/

section RowSequencer

variable {s : State} {e : Engine} {n : Nat}

/-! ## AdvanceRow, pass by pass -/

/-- The registers one stride further within the pass, as they are before the loop of R212. -/
def nextInPass (e : Engine) : Engine := { e with row := e.row + passStride e.pass }

@[simp] theorem nextInPass_pass (e : Engine) : (nextInPass e).pass = e.pass := rfl
@[simp] theorem nextInPass_curHeight (e : Engine) : (nextInPass e).curHeight = e.curHeight := rfl
@[simp] theorem nextInPass_curInterlace (e : Engine) : (nextInPass e).curInterlace = e.curInterlace := rfl

theorem advanced_plain (h : e.curInterlace = false) : advanced e = { e with row := e.row + 1 } :=
  if_neg (by simp [h])

theorem advanced_interlaced (h : e.curInterlace = true) : advanced e = passesSkipped 3 (nextInPass e) := if_pos h

theorem passStride_toNat (p : BitVec 2) :
    (passStride p).toNat = if p.toNat ≤ 1 then 8 else if p.toNat = 2 then 4 else 2 := by
  revert p
  decide

theorem nextInPass_row (h : e.row.toNat < 65536) :
    (nextInPass e).row.toNat = e.row.toNat + (passStride e.pass).toNat := by
  have hstride : (passStride e.pass).toNat ≤ 8 := by
    rw [passStride_toNat]
    split_ifs <;> decide
  rw [nextInPass, BitVec.toNat_add_of_lt (by omega)]

/-- The loop ends at a row of the image, and in pass 3. -/
theorem passesSkipped_stops (h : e.row.toNat < e.curHeight.toNat ∨ e.pass = 3) : passesSkipped n e = e := by
  cases n with
  | zero => rfl
  | succ n =>
    refine if_neg fun ⟨hrow, hpass⟩ => ?_
    rcases h with h | h
    · omega
    · rw [h] at hpass
      exact absurd hpass (by decide)

/-- The loop leaves a pass, before the last one, that has no row left. -/
theorem passesSkipped_leaves (hrow : e.curHeight.toNat ≤ e.row.toNat) (hpass : e.pass.toNat < 3) :
    passesSkipped (n + 1) e = passesSkipped n { e with pass := e.pass + 1, row := passOffset (e.pass + 1) } :=
  if_pos ⟨hrow, hpass⟩

theorem passesSkipped_pass_two (hpass : e.pass = 2) (hrow : e.curHeight.toNat ≤ e.row.toNat) :
    passesSkipped (n + 1) e = { e with pass := 3, row := 1 } := by
  rw [passesSkipped_leaves hrow (by rw [hpass]; decide), hpass]
  exact passesSkipped_stops (.inr rfl)

theorem passesSkipped_pass_one (hpass : e.pass = 1) (hrow : e.curHeight.toNat ≤ e.row.toNat) :
    passesSkipped (n + 2) e =
      if 2 < e.curHeight.toNat then { e with pass := 2, row := 2 } else { e with pass := 3, row := 1 } := by
  rw [passesSkipped_leaves hrow (by rw [hpass]; decide), hpass]
  split_ifs with h
  · exact passesSkipped_stops (.inl h)
  · exact passesSkipped_pass_two rfl (Nat.le_of_not_lt h)

theorem passesSkipped_pass_zero (hpass : e.pass = 0) (hrow : e.curHeight.toNat ≤ e.row.toNat) :
    passesSkipped (n + 3) e =
      if 4 < e.curHeight.toNat then { e with pass := 1, row := 4 }
      else if 2 < e.curHeight.toNat then { e with pass := 2, row := 2 } else { e with pass := 3, row := 1 } := by
  rw [passesSkipped_leaves hrow (by rw [hpass]; decide), hpass]
  split_ifs with h4 h2
  · exact passesSkipped_stops (.inl h4)
  · exact (passesSkipped_pass_one (e := { e with pass := 1, row := 4 }) rfl (Nat.le_of_not_lt h4)).trans (if_pos h2)
  · exact (passesSkipped_pass_one (e := { e with pass := 1, row := 4 }) rfl (Nat.le_of_not_lt h4)).trans (if_neg h2)

/-- A stride to a row of the image, or within pass 3, is all that `AdvanceRow` does. -/
theorem advanced_within_pass (hi : e.curInterlace = true) (hrow : e.row.toNat < 65536)
    (hstride : (passStride e.pass).toNat = n) (h : e.row.toNat + n < e.curHeight.toNat ∨ e.pass = 3) :
    (advanced e).pass = e.pass ∧ (advanced e).row.toNat = e.row.toNat + n := by
  rw [← hstride, ← nextInPass_row hrow] at h ⊢
  rw [advanced_interlaced hi, passesSkipped_stops (e := nextInPass e) h]
  exact ⟨rfl, rfl⟩

/-- Settles O37: the stride (`advanced_within_pass`), then the loop from each pass (`passesSkipped_pass_zero` and its like). -/
theorem rowAdvancesByPass : Obligations.RowAdvancesByPass := by
  unfold Obligations.RowAdvancesByPass
  intro s hq hrow
  have hnext := nextInPass_row hrow
  have hstride := passStride_toNat s.eng.pass
  refine ⟨_, advanceRow_quiet hq, congrArg (fun e => { s with eng := e }) (advanced_frame s.eng), fun hi => ?_,
    fun hi => ⟨fun hp hlt => ?_, fun hp hlt => ?_, fun hp => ?_, fun hp hle => ?_, fun hp hle => ?_, fun hp hle => ?_⟩⟩
  · rw [mapEng_eng, advanced_plain hi]
    exact ⟨rfl, BitVec.toNat_add_of_lt (Nat.lt_of_le_of_lt (Nat.succ_le_of_lt hrow) (by decide))⟩
  · rw [if_pos hp] at hstride
    exact advanced_within_pass hi hrow hstride (.inl (by omega))
  · rw [if_neg (by omega), if_pos hp] at hstride
    exact advanced_within_pass hi hrow hstride (.inl (by omega))
  · rw [if_neg (by omega), if_neg (by omega)] at hstride
    exact advanced_within_pass hi hrow hstride (.inr (BitVec.eq_of_toNat_eq hp))
  · rw [if_pos (by omega)] at hstride
    rw [mapEng_eng, advanced_interlaced hi,
      passesSkipped_pass_zero (e := nextInPass s.eng) (BitVec.eq_of_toNat_eq hp) (by rwa [hnext, hstride]), nextInPass_curHeight]
    split_ifs <;> exact ⟨rfl, rfl⟩
  · rw [if_pos (by omega)] at hstride
    rw [mapEng_eng, advanced_interlaced hi,
      passesSkipped_pass_one (e := nextInPass s.eng) (BitVec.eq_of_toNat_eq hp) (by rwa [hnext, hstride]), nextInPass_curHeight]
    split_ifs <;> exact ⟨rfl, rfl⟩
  · rw [if_neg (by omega), if_pos hp] at hstride
    rw [mapEng_eng, advanced_interlaced hi,
      passesSkipped_pass_two (e := nextInPass s.eng) (BitVec.eq_of_toNat_eq hp) (by rwa [hnext, hstride])]
    exact ⟨rfl, rfl⟩

/-! ## The order of the rows -/

/-- The pass that visits a row (R210, R213): the rows 0 mod 8, 4 mod 8, 2 mod 4 and 1 mod 2; one pass in a plain image. -/
def rowPass (interlaced : Bool) (k : Nat) : Nat :=
  if interlaced = false ∨ k % 8 = 0 then 0 else if k % 4 = 0 then 1 else if k % 2 = 0 then 2 else 3

/-- A row is still to be visited: the current row, a later one of the pass, or a row of a later pass. -/
abbrev Ahead (e : Engine) (k : Nat) : Prop :=
  e.pass.toNat < rowPass e.curInterlace k ∨ e.pass.toNat = rowPass e.curInterlace k ∧ e.row.toNat ≤ k

/-- ROW is a row of pass PASS. -/
def InPass (e : Engine) : Prop := rowPass e.curInterlace e.row.toNat = e.pass.toNat

theorem InPass.ahead (h : InPass e) : Ahead e e.row.toNat := .inr ⟨h.symm, le_rfl⟩

theorem rowPass_plain (k : Nat) : rowPass false k = 0 := if_pos (.inl rfl)

theorem rowPass_le (i : Bool) (k : Nat) : rowPass i k ≤ 3 := by
  unfold rowPass
  split_ifs <;> decide

/-- R213: the rows of a pass are those congruent to its offset modulo its stride. -/
theorem rowPass_eq_iff (p : BitVec 2) (k : Nat) :
    rowPass true k = p.toNat ↔ k % (passStride p).toNat = (passOffset p).toNat := by
  have hp : p = 0 ∨ p = 1 ∨ p = 2 ∨ p = 3 := by
    revert p
    decide
  rcases hp with rfl | rfl | rfl | rfl
  · show rowPass true k = 0 ↔ k % 8 = 0
    grind [rowPass]
  · show rowPass true k = 1 ↔ k % 8 = 4
    grind [rowPass]
  · show rowPass true k = 2 ↔ k % 4 = 2
    grind [rowPass]
  · show rowPass true k = 3 ↔ k % 2 = 1
    grind [rowPass]

/-- A row one stride on is of the same pass. -/
theorem rowPass_add_stride {p : BitVec 2} {r : Nat} (h : rowPass true r = p.toNat) :
    rowPass true (r + (passStride p).toNat) = p.toNat := by
  rw [rowPass_eq_iff] at h ⊢
  rwa [Nat.add_mod_right]

/-- Within a pass, the next row after r is one stride on. -/
theorem add_stride_le_iff {p : BitVec 2} {r k : Nat} (hr : rowPass true r = p.toNat) (hk : rowPass true k = p.toNat) :
    r + (passStride p).toNat ≤ k ↔ r ≤ k ∧ k ≠ r := by
  have hpos : 0 < (passStride p).toNat := by
    rw [passStride_toNat]
    split_ifs <;> decide
  rw [rowPass_eq_iff] at hr hk
  refine ⟨fun h => by omega, fun ⟨hle, hne⟩ => ?_⟩
  exact Nat.ModEq.add_le_of_lt (hr.trans hk.symm) (Nat.lt_of_le_of_ne hle hne.symm)

/-- The offset of a pass is a row of it. -/
theorem rowPass_offset (p : BitVec 2) : rowPass true (passOffset p).toNat = p.toNat := by
  revert p
  decide

/-- The offset of a pass is its first row. -/
theorem passOffset_le {p : BitVec 2} {k : Nat} (h : rowPass true k = p.toNat) : (passOffset p).toNat ≤ k := by
  rw [← (rowPass_eq_iff p k).mp h]
  exact Nat.mod_le _ _

/-! ## What the stride and the loop do to the rows ahead -/

theorem inPass_nextInPass (hi : e.curInterlace = true) (hrow : e.row.toNat < 65536) (h : InPass e) :
    InPass (nextInPass e) := by
  rw [InPass, hi] at h
  rw [InPass, nextInPass_row hrow, nextInPass_curInterlace, hi]
  exact rowPass_add_stride h

/-- The stride takes the current row out of the rows ahead. -/
theorem ahead_nextInPass (hi : e.curInterlace = true) (hrow : e.row.toNat < 65536) (h : InPass e) (k : Nat) :
    Ahead (nextInPass e) k ↔ Ahead e k ∧ k ≠ e.row.toNat := by
  rw [InPass, hi] at h
  simp only [Ahead, nextInPass_row hrow, nextInPass_pass, nextInPass_curInterlace, hi]
  by_cases hk : rowPass true k = e.pass.toNat
  · have hstride := add_stride_le_iff h hk
    omega
  · have hne : k ≠ e.row.toNat := fun hkr => hk (hkr ▸ h)
    omega

/-- At the start of the next pass, no row of the image has left the rows ahead: the pass that is left had none. -/
theorem ahead_nextPass (hi : e.curInterlace = true) (hrow : e.curHeight.toNat ≤ e.row.toNat) (hpass : e.pass.toNat < 3)
    {k : Nat} (hk : k < e.curHeight.toNat) :
    Ahead { e with pass := e.pass + 1, row := passOffset (e.pass + 1) } k ↔ Ahead e k := by
  have hnext : (e.pass + 1).toNat = e.pass.toNat + 1 := by bv_omega
  have hfirst := passOffset_le (p := e.pass + 1) (k := k)
  simp only [Ahead, hi]
  rw [hnext] at hfirst ⊢
  omega

/-- ROW is a row of pass PASS, and it is beyond an interlaced image in the last pass only. -/
structure OnCourse (e : Engine) : Prop where
  inPass : InPass e
  lastPass : e.curInterlace = true → e.curHeight.toNat ≤ e.row.toNat → e.pass.toNat = 3

/-- With ROW beyond the image no row is ahead. -/
theorem OnCourse.not_ahead (h : OnCourse e) (hrow : e.curHeight.toNat ≤ e.row.toNat) {k : Nat} (hk : k < e.curHeight.toNat) :
    ¬Ahead e k := by
  obtain ⟨hin, hlast⟩ := h
  rw [InPass] at hin
  rw [Ahead]
  cases hi : e.curInterlace with
  | false =>
    rw [hi, rowPass_plain] at hin
    rw [rowPass_plain]
    omega
  | true =>
    have hpass := hlast hi hrow
    have hle := rowPass_le true k
    omega

/-- The loop, with enough rounds to reach pass 3, ends on course and takes no row out of the rows ahead. -/
theorem passesSkipped_onCourse : ∀ (n : Nat) {e : Engine}, e.curInterlace = true → InPass e → 3 ≤ e.pass.toNat + n →
    OnCourse (passesSkipped n e) ∧ ∀ k < e.curHeight.toNat, Ahead (passesSkipped n e) k ↔ Ahead e k := by
  intro n
  induction n with
  | zero => exact fun hi hin hn => ⟨⟨hin, fun _ _ => by simp only [passesSkipped]; omega⟩, fun _ _ => Iff.rfl⟩
  | succ n ih =>
    intro e hi hin hn
    by_cases h : e.curHeight.toNat ≤ e.row.toNat ∧ e.pass.toNat < 3
    · obtain ⟨hrow, hpass⟩ := h
      rw [passesSkipped_leaves hrow hpass]
      have hnext : (e.pass + 1).toNat = e.pass.toNat + 1 := by bv_omega
      obtain ⟨hcourse, hahead⟩ := ih (e := { e with pass := e.pass + 1, row := passOffset (e.pass + 1) }) hi
        (hi ▸ rowPass_offset (e.pass + 1)) (by simp only [hnext]; omega)
      exact ⟨hcourse, fun k hk => (hahead k hk).trans (ahead_nextPass hi hrow hpass hk)⟩
    · rw [passesSkipped, if_neg h]
      exact ⟨⟨hin, fun _ _ => by omega⟩, fun _ _ => Iff.rfl⟩

/-- One `AdvanceRow` from a row of the image takes that row, and no other row of the image, out of the rows ahead. -/
theorem advanced_onCourse (h : OnCourse e) (hrow : e.row.toNat < e.curHeight.toNat) :
    OnCourse (advanced e) ∧ ∀ k < e.curHeight.toNat, Ahead (advanced e) k ↔ Ahead e k ∧ k ≠ e.row.toNat := by
  have hlt : e.row.toNat < 65536 := hrow.trans e.curHeight.isLt
  have hin := h.inPass
  cases hi : e.curInterlace with
  | false =>
    rw [advanced_plain hi]
    have hnext : (e.row + 1).toNat = e.row.toNat + 1 := by bv_omega
    rw [InPass, hi, rowPass_plain] at hin
    refine ⟨⟨?_, fun h => absurd (hi.symm.trans h) (by decide)⟩, fun k _ => ?_⟩
    · simp only [InPass, hi, rowPass_plain, hin]
    · simp only [Ahead, hi, rowPass_plain, hnext]
      omega
  | true =>
    rw [advanced_interlaced hi]
    obtain ⟨hcourse, hahead⟩ := passesSkipped_onCourse 3 (e := nextInPass e) hi (inPass_nextInPass hi hlt hin) (by omega)
    exact ⟨hcourse, fun k hk => (hahead k hk).trans (ahead_nextInPass hi hlt hin k)⟩

/-! ## Every row once -/

/-- The rows of the image that are still to be visited. -/
def rowsAhead (e : Engine) : List Nat := (List.range e.curHeight.toNat).filter (Ahead e)

theorem mem_rowsAhead {k : Nat} : k ∈ rowsAhead e ↔ k < e.curHeight.toNat ∧ Ahead e k := by
  simp [rowsAhead]

theorem rowsAhead_nodup (e : Engine) : (rowsAhead e).Nodup := List.nodup_range.filter _

theorem rowsAhead_advanced (h : OnCourse e) (hrow : e.row.toNat < e.curHeight.toNat) :
    (rowsAhead e).Perm (e.row.toNat :: rowsAhead (advanced e)) := by
  obtain ⟨-, hahead⟩ := advanced_onCourse h hrow
  have hheight : (advanced e).curHeight = e.curHeight := by rw [advanced_frame]
  have hmem (k : Nat) : k ∈ rowsAhead (advanced e) ↔ k ∈ rowsAhead e ∧ k ≠ e.row.toNat := by
    rw [mem_rowsAhead, mem_rowsAhead, hheight, and_assoc]
    exact and_congr_right (hahead k)
  refine (List.perm_ext_iff_of_nodup (rowsAhead_nodup e)
    (List.nodup_cons.mpr ⟨fun hk => ((hmem _).mp hk).2 rfl, rowsAhead_nodup _⟩)).mpr fun k => ?_
  rw [List.mem_cons, hmem]
  by_cases hk : k = e.row.toNat
  · simp [hk, mem_rowsAhead, hrow, h.inPass.ahead]
  · simp [hk]

theorem rowsVisited_quiet (hq : Quiet s) (n : Nat) :
    rowsVisited (n + 1) s = s.eng.row.toNat :: rowsVisited n (s.mapEng advanced) := by
  rw [rowsVisited, advanceRow_quiet hq]

/-- As many LINEs as there are rows ahead visit these rows. -/
theorem rowsVisited_perm_rowsAhead : ∀ (n : Nat) {s : State}, Quiet s → OnCourse s.eng → (rowsAhead s.eng).length = n →
    (rowsVisited n s).Perm (rowsAhead s.eng) := by
  intro n
  induction n with
  | zero =>
    intro s _ _ hn
    rw [List.length_eq_zero_iff.mp hn]
    exact .refl _
  | succ n ih =>
    intro s hq hcourse hn
    obtain ⟨k, hmem⟩ := List.exists_mem_of_length_eq_add_one hn
    obtain ⟨hk, hahead⟩ := mem_rowsAhead.mp hmem
    have hrow : s.eng.row.toNat < s.eng.curHeight.toNat :=
      Nat.lt_of_not_le fun hle => hcourse.not_ahead hle hk hahead
    have hperm := rowsAhead_advanced hcourse hrow
    have hlen : (rowsAhead (advanced s.eng)).length = n := Nat.succ.inj (hperm.length_eq.symm.trans hn)
    rw [rowsVisited_quiet hq]
    exact ((ih (s := s.mapEng advanced) hq (advanced_onCourse hcourse hrow).1 hlen).cons _).trans hperm.symm

/-- Settles O38: at ROW 0 and PASS 0 every row of the image is ahead. -/
theorem everyRowIsVisitedOnce : Obligations.EveryRowIsVisitedOnce := by
  unfold Obligations.EveryRowIsVisitedOnce
  intro s hq hrow hpass hheight
  have hpos : 0 < s.eng.curHeight.toNat := by bv_omega
  have hcourse : OnCourse s.eng := by
    refine ⟨?_, fun _ h => absurd h ?_⟩
    · rw [InPass, hrow, hpass]
      exact if_pos (.inr rfl)
    · rw [hrow]
      exact Nat.not_le_of_lt hpos
  have hall : rowsAhead s.eng = List.range s.eng.curHeight.toNat := by
    refine List.filter_eq_self.mpr fun k _ => decide_eq_true ?_
    rw [Ahead, hrow, hpass]
    exact (Nat.eq_zero_or_pos _).elim (fun h => .inr ⟨h.symm, Nat.zero_le _⟩) .inl
  have hperm := rowsVisited_perm_rowsAhead (rowsAhead s.eng).length hq hcourse rfl
  rwa [hall, List.length_range] at hperm

end RowSequencer
end Sys2Proof.Machine

namespace Sys2Proof.Machine
/-! # The fault record, and what FAULT leaves to do (O17, O41, O42, O43, O44, O49) -/

section FaultState

variable {s t : State}

/-! ## The fault entry (R221, R222, R226) -/

/-- Settles O41: the fault entry is one update of the record, STATE and the pending bit, made outside FAULT only. -/
theorem faultEntryWritesOnlyTheRecord : Obligations.FaultEntryWritesOnlyTheRecord := by
  unfold Obligations.FaultEntryWritesOnlyTheRecord
  exact fun s c info => ⟨fun hf => takeFault_of_ne hf c info, fun hf => if_pos hf⟩

/-- The cause that a fault record names: the table of R222, read backwards. Numbers that are no row of it name the first cause. -/
def recordedCause (kind : BitVec 2) (code : BitVec 4) : Cause :=
  match kind.toNat, code.toNat with
  | 1, 2 => .subBlockLength
  | 1, 3 => .subBlockContent
  | 1, 4 => .drainLength
  | 1, 5 => .drainContent
  | 2, 1 => .badMinCodeSize
  | 2, 2 => .zeroLengthSubBlock
  | 2, 3 => .invalidCode
  | 2, 4 => .earlyEndCode
  | 2, 5 => .badChain
  | 2, 6 => .traceRunaway
  | 2, 7 => .widthOverflow
  | 3, 1 => .reservedBits
  | 3, 2 => .reservedOpcode
  | 3, 3 => .illegalInState
  | _, _ => .minCodeSizeByte

theorem recordedCause_record (c : Cause) : recordedCause (causeKind c) (causeCode c) = c := by cases c <;> rfl

/-- Settles O42: the table of R222, row by row; it can be read backwards (`recordedCause_record`). -/
theorem faultRecordTellsTheCause : Obligations.FaultRecordTellsTheCause := by
  unfold Obligations.FaultRecordTellsTheCause
  refine ⟨fun c => by cases c <;> rfl, fun a b hkind hcode => ?_⟩
  calc a
    _ = recordedCause (causeKind a) (causeCode a) := (recordedCause_record a).symm
    _ = recordedCause (causeKind b) (causeCode b) := by rw [hkind, hcode]
    _ = b := recordedCause_record b

/-! ## Commands in FAULT (R132, R229) -/

/-- R132's row of FAULT: every command is ignored. -/
theorem exec_command_of_fault (hf : s.eng.state = .fault) : ∀ i : Instr, i.isCommand = true → exec i s = .next s
  | .nop, _ => congrArg _ (writeNop_eq s)
  | .init, _ => by
    show Host.Outcome.next (writeInit s) = _
    rw [writeInit, hf]
    rfl
  | .line, _ => by
    show Host.Outcome.next (writeLine s) = _
    rw [writeLine, hf]
    rfl
  | .reservedCommand _, _ => congrArg _ (if_pos hf)

/-- Settles O17: a CMD word is ignored before it is decoded, a command by R132's row of FAULT. -/
theorem commandsAreIgnoredInFault : Obligations.CommandsAreIgnoredInFault := by
  unfold Obligations.CommandsAreIgnoredInFault
  refine fun s hf => ⟨exec_command_of_fault hf, fun w rest hbus => ?_⟩
  rw [step_of_due hbus]
  show stepCmd w (taken rest s) = _
  rw [stepCmd_eq, mapEnv_eng, if_pos hf, ite_self]
  rfl

/-! ## Steps with no command in progress (R227, R229, R239) -/

/-- With no command in progress the block does nothing but complete a port transaction. -/
theorem stepBlock_of_not_busy (hb : isBusy s.eng.state = false) : stepBlock s = .next ((portCompletes s).getD s) := by
  rw [stepBlock, if_neg (by simp [hb])]
  cases portCompletes s <;> rfl

/-- In FAULT a host access that does not reset the block leaves the registers of the engine and the RAMs alone. -/
theorem Accessed.kept_of_fault {rest : List BusItem} (hf : s.eng.state = .fault) (h : Accessed rest s t)
    (hr : t.free.resets = s.free.resets) : t.eng = s.eng ∧ t.mem = s.mem := by
  cases h with
  | landed h => exact ⟨h.eng, h.mem⟩
  | positioned _ _ => exact ⟨rfl, rfl⟩
  | refused _ _ _ h => exact absurd hf h
  | init h => rcases h with h | h <;> cases hf.symm.trans h
  | line h => cases hf.symm.trans h
  | reset => exact absurd hr (Nat.succ_ne_self _)

/-- Settles O43: in FAULT a step is a host access (`Accessed.kept_of_fault`), or at most completes a port transaction. -/
theorem faultHoldsUntilReset : Obligations.FaultHoldsUntilReset := by
  unfold Obligations.FaultHoldsUntilReset
  intro s t hf ht hr
  cases hm : hostMoves s with
  | true =>
    obtain ⟨it, rest, -, hstep⟩ := step_of_hostMoves hm
    exact (accessed_of_stepHost (hstep ▸ ht)).kept_of_fault hf hr
  | false =>
    rw [step_of_not_hostMoves hm, stepBlock_of_not_busy (by rw [hf]; rfl)] at ht
    cases ht
    cases hc : portCompletes s with
    | none => exact ⟨rfl, rfl⟩
    | some u =>
      obtain ⟨he, hmem, -, -⟩ := portCompletes_frame hc
      exact ⟨he, hmem⟩

/-- With no host access to come and no command in progress, a port that completes is the step (R227). -/
theorem step_of_portCompletes (hq : Quiet s) (hb : isBusy s.eng.state = false) (h : portCompletes s = some t) :
    step s = .next t := by
  rw [step_quiet hq, stepBlock_of_not_busy hb, h]
  rfl

/-- Settles O49: with nothing in flight no port completes. -/
theorem idleBlockKeepsItsState : Obligations.IdleBlockKeepsItsState := by
  unfold Obligations.IdleBlockKeepsItsState
  intro s hb hq hreq hoff
  have hnone : portCompletes s = none :=
    portCompletes_eq_none (fun h => absurd (hreq.symm.trans h) (by decide)) fun h => by rw [hoff] at h; cases h
  rw [step_quiet hq, stepBlock_of_not_busy hb, hnone]
  rfl

/-! ## A transaction in flight (R48, R60, R61) -/

/-- The state after the source has answered the request in flight, its cursor having moved over `moved` bytes (R60). -/
def answered (moved : Nat) (s : State) : State :=
  (s.mapEnv fun v => { v with source := { v.source with cursor := v.source.cursor + moved } }).mapPorts
    fun p => { p with byteRequest := false }

theorem sourceAnswers_byte {b : Byte} {more : List Byte} (ha : s.env.source.answersLeft = none) (hu : unread s = b :: more) :
    sourceAnswers s = some (some b, answered 1 s) := by
  have hpatience : spend s.env.source.answersLeft = some s.env.source.answersLeft := by rw [ha]; rfl
  rw [sourceAnswers, hpatience]
  dsimp only
  rw [(unread_eq_cons hu).1]
  rfl

theorem sourceAnswers_exhausted (ha : s.env.source.answersLeft = none) (hu : unread s = []) :
    sourceAnswers s = some (none, answered 0 s) := by
  have hpatience : spend s.env.source.answersLeft = some s.env.source.answersLeft := by rw [ha]; rfl
  rw [sourceAnswers, hpatience]
  dsimp only
  rw [unread_eq_nil hu]
  rfl

theorem sinkAccepts_fair {beat : Beat} (ha : s.env.sink.acceptsLeft = none) (ho : s.ports.offeredBeat = some beat) :
    sinkAccepts s = some (afterBeat beat s) := by
  have hpatience : spend s.env.sink.acceptsLeft = some s.env.sink.acceptsLeft := by rw [ha]; rfl
  rw [sinkAccepts, ho, hpatience]
  rfl

/-- The port whose request is answered is the one that completes. -/
theorem portCompletes_of_answer {byte : Option Byte} (hreq : s.ports.byteRequest = true)
    (h : sourceAnswers s = some (byte, t)) : portCompletes s = some t := by
  rw [portCompletes, if_pos hreq, h]
  rfl

theorem portCompletes_of_accept (hreq : s.ports.byteRequest = false) (h : sinkAccepts s = some t) :
    portCompletes s = some t := by
  rw [portCompletes, if_neg (by simp [hreq]), h]

/-- Settles O44: the step is the port's completion: the source answers (`sourceAnswers_byte`, `sourceAnswers_exhausted`) or the
sink accepts (`sinkAccepts_fair`). -/
theorem portsCompleteAfterAFault : Obligations.PortsCompleteAfterAFault := by
  unfold Obligations.PortsCompleteAfterAFault
  rintro s hf hq ⟨hanswers, haccepts⟩
  have completes {t : State} : portCompletes s = some t → step s = .next t :=
    step_of_portCompletes hq (by rw [hf]; rfl)
  refine ⟨fun b more hreq hu => ?_, fun hreq hu => ?_, fun beat hreq ho => ?_⟩
  · exact ⟨answered 1 s, completes (portCompletes_of_answer hreq (sourceAnswers_byte hanswers hu)), (unread_eq_cons hu).2, rfl,
      rfl, rfl, rfl, rfl⟩
  · exact completes (portCompletes_of_answer hreq (sourceAnswers_exhausted hanswers hu))
  · exact ⟨afterBeat beat s, completes (portCompletes_of_accept hreq (sinkAccepts_fair haccepts ho)), rfl, rfl, rfl, rfl, rfl,
      rfl⟩

end FaultState
end Sys2Proof.Machine

namespace Sys2Proof.Machine
/-! # The beats the sink has accepted stay accepted (O45)

Only an acceptance touches the record, and it adds one beat at its end; so the claim is one about instants. -/

section AcceptedBeats

variable {s t u : State}

/-- From s to t the sink has only accepted more beats. -/
abbrev BeatsStay (s t : State) : Prop := s.env.sink.accepted <+: t.env.sink.accepted

theorem BeatsStay.of_sink (h : t.env.sink = s.env.sink) : BeatsStay s t := by
  rw [BeatsStay, h]

theorem BeatsStay.of_accept (h : sinkAccepts s = some t) : BeatsStay s t := by
  obtain ⟨beat, -, -, hbeats⟩ := sinkAccepts_beat h
  exact ⟨[beat], hbeats.symm⟩

theorem beatsStay_takeFault (c : Cause) (info : Word) (s : State) : BeatsStay s (takeFault c info s) :=
  .of_sink (by rw [takeFault_env])

theorem beatsStay_nearer (s : State) : BeatsStay s (nearer s) := by
  rw [nearer]
  split <;> exact .of_sink rfl

theorem BeatsStay.of_action (h : EngineAction s t) : BeatsStay s t := by
  cases h with
  | assign _ | ram _ | setUpDone | lineDone | imageDone | request | offer _ | offerSkip => exact .of_sink rfl
  | fault c info _ => exact beatsStay_takeFault c info s
  | answer h => exact .of_sink (sourceAnswers_sink h)
  | accept h => exact .of_accept h

theorem BeatsStay.of_endedBy (h : EndedBy s t) : BeatsStay s t := by
  cases h with
  | refused _ _ _ _ _ _ sink => exact .of_sink sink
  | reset _ _ sink => exact .of_sink sink

/-- A port that completes is one side of a port transaction, as it is inside a command (R48, R227). -/
theorem engineAction_of_portCompletes (h : portCompletes s = some t) : EngineAction s t := by
  rw [portCompletes] at h
  split at h
  next =>
    obtain ⟨⟨byte, u⟩, ha, rfl⟩ := Option.map_eq_some_iff.mp h
    exact .answer ha
  next => exact .accept h

theorem BeatsStay.of_nextInstant (h : NextInstant s t) : BeatsStay s t := by
  cases h with
  | access busy _ _ lands =>
    rcases landed_or_endedBy busy lands with k | k
    · exact .of_sink k.sink
    · exact .of_endedBy k
  | action _ _ does => exact (beatsStay_nearer s).trans (BeatsStay.of_action does)
  | port _ completes => exact .of_action (engineAction_of_portCompletes completes)

theorem keptByInstants_beatsStay (s : State) : KeptByInstants (BeatsStay s) where
  next _ _ h hn := h.trans (BeatsStay.of_nextInstant hn)
  nearer t h := h.trans (beatsStay_nearer t)

/-- A host access as a step of its own; the record stays over a reset too (log 17). -/
theorem Accessed.beatsStay {rest : List BusItem} (h : Accessed rest s t) : BeatsStay s t := by
  cases h with
  | landed h => exact .of_sink h.sink
  | positioned _ _ | init _ | line _ | reset => exact .of_sink rfl
  | refused c w _ _ => exact beatsStay_takeFault c w (taken rest s)

/-- Settles O45: each instant of a step keeps the record's beats, and so does a host access that is a step of its own. -/
theorem acceptedBeatsStay : Obligations.AcceptedBeatsStay := by
  unfold Obligations.AcceptedBeatsStay
  intro s t ht
  cases hm : hostMoves s with
  | true =>
    obtain ⟨it, rest, -, hstep⟩ := step_of_hostMoves hm
    exact (accessed_of_stepHost (hstep ▸ ht)).beatsStay
  | false => exact (keptByInstants_beatsStay s).stepBlock List.prefix_rfl (step_of_not_hostMoves hm ▸ ht)

end AcceptedBeats
end Sys2Proof.Machine

namespace Sys2Proof.Machine
/-! # Host accesses due at the point before an engine action (O18)

An access that is due inside a command lands there by `land`, as it does in a step of its own; `tick` goes on to the next access
after one that lets the command go on, and ends with one that does not. -/

section DueAccesses

variable {s t : State} {event : HostEvent} {rest : List BusItem}

/-! ## The point before an engine action -/

theorem tick_of_landed (hbus : s.env.bus = { gap := 0, event := event } :: rest) (h : (land event rest).run s = .ok () t) :
    tick.run s = tick.run t ∧ tick.passed s = t :: tick.passed t := by
  have hrest : t.env.bus = rest := land_bus h
  constructor
  · simp only [tick, run_bind, run_look, hbus, hrest, landDue, if_pos, h]
  · simp only [tick, passed_bind, passed_look, run_look, hbus, hrest, landDue, if_pos, land_passed, h, took]
    rfl

theorem tick_of_stopped {e : Stop} (hbus : s.env.bus = { gap := 0, event := event } :: rest)
    (h : (land event rest).run s = .error e t) :
    tick.run s = .error e t ∧ tick.passed s = took ((land event rest).run s) := by
  constructor
  · simp only [tick, run_bind, run_look, hbus, landDue, if_pos, h]
  · simp only [tick, passed_bind, passed_look, run_look, hbus, landDue, if_pos, land_passed, h]
    rfl

theorem act_congr (h : tick.run s = tick.run t) (f : State → State) : (act f).run s = (act f).run t := by
  rw [act, run_bind, run_bind, h]

theorem act_of_ended (h : tick.run s = .error .ended t) (f : State → State) : (act f).run s = .error .ended t :=
  run_bind_ended h

/-! ## An access inside a command and as a step -/

/-- A write is a next state of its own, whether it faults the block or not. -/
theorem outcome_land_write (index : BitVec 6) (w : Word) (rest : List BusItem) (s : State) :
    Eng.outcome (land (.write index w) rest) s = .next (doWrite index w (taken rest s)) := by
  rw [Eng.outcome, land, run_did]
  dsimp only
  split_ifs <;> rfl

/-- As a step of its own an access does what it does inside a command. -/
theorem stepHost_eq_land (hf : s.eng.state ≠ .fault) (event : HostEvent) (rest : List BusItem) :
    stepHost event rest s = Eng.outcome (land event rest) s := by
  cases event with
  | read _ | reset _ | position _ => rfl
  | write index w =>
    rw [stepHost]
    split_ifs with hi
    · rw [stepCmd_eq, outcome_land_write, doWrite, mapEnv_eng, if_neg hf, if_pos hi]
    · rfl

theorem EndedBy.not_busy (h : EndedBy s t) : isBusy t.eng.state = false := by
  cases h with
  | refused _ _ _ eng => rw [eng]; rfl
  | reset eng => rw [eng]; rfl

/-- An access that is due while BUSY lets the command go on, or ends it, or changes the stream; as a step of its own it ends in
the same state, or with the same stop. -/
theorem step_of_land_busy (hb : Busy s) (hbus : s.env.bus = { gap := 0, event := event } :: rest) :
    (∃ t, (land event rest).run s = .ok () t ∧ step s = .next t ∧ Busy t) ∨
      (∃ t, (land event rest).run s = .error .ended t ∧ step s = .next t ∧ isBusy t.eng.state = false) ∨
      (∃ t, (land event rest).run s = .error (.undefined .streamChangedInImage) t ∧
        step s = .fault .streamChangedInImage) := by
  have hstep : step s = Eng.outcome (land event rest) s :=
    (step_of_due hbus).trans (stepHost_eq_land (ne_fault_of_busy hb) event rest)
  rw [Eng.outcome] at hstep
  rcases land_busy hb event rest with ⟨t, ht, k⟩ | ⟨t, ht, k⟩ | ⟨t, ht⟩ <;> rw [ht] at hstep
  · exact .inl ⟨t, ht, hstep, k.busy hb⟩
  · exact .inr (.inl ⟨t, ht, hstep, k.not_busy⟩)
  · exact .inr (.inr ⟨t, ht, hstep⟩)

/-! ## CMD writes inside a command -/

/-- The cause of a CMD word that is refused while BUSY: the tests of R102 in their order; no command but NOP is legal (R132). -/
def refusedCause (w : Word) : Cause :=
  if 16 ≤ w.toNat then .reservedBits else if 3 ≤ w.toNat then .reservedOpcode else .illegalInState

theorem causeKind_refusedCause (w : Word) : causeKind (refusedCause w) = 3 := by
  rw [refusedCause]
  split_ifs <;> rfl

theorem causeCode_refusedCause (w : Word) :
    causeCode (refusedCause w) = if 16 ≤ w.toNat then 1 else if 3 ≤ w.toNat then 2 else 3 := by
  rw [refusedCause]
  split_ifs <;> rfl

/-- While BUSY every CMD word but NOP's is refused (R131, R132). -/
theorem writeCmd_refused {w : Word} (hb : Busy s) (hw : w ≠ 0#32) : writeCmd w s = refuseWord (refusedCause w) w s := by
  rw [writeCmd_eq, refusedCause]
  split_ifs with hbits hopcode hinit
  · rfl
  · rfl
  · have hillegal : ¬(s.eng.state = .idle ∨ s.eng.state = .done) := by rintro (h | h) <;> rw [Busy, h] at hb <;> cases hb
    rw [writeInit_eq, if_neg hillegal, hinit]
  · have hillegal : s.eng.state ≠ .ready := by rintro h; rw [Busy, h] at hb; cases hb
    obtain rfl : w = 2#32 := by bv_omega
    rw [writeLine_eq, if_neg hillegal]

/-- A CMD word that is refused while BUSY ends the command with the fault entry (R227). -/
theorem land_refused {w : Word} (hb : Busy s) (hrst : s.ports.rst = false) (hw : w ≠ 0#32) :
    (land (.write 3#6 w) rest).run s = .error .ended { s with
      env := { s.env with bus := rest }
      eng := { s.eng with
        state := .fault, faultKind := 3, faultInfo := w
        faultCause := if 16 ≤ w.toNat then 1 else if 3 ≤ w.toNat then 2 else 3 }
      host := { s.host with irqStatus := s.host.irqStatus ||| 4#3 } } := by
  have hwrite : doWrite 3#6 w (taken rest s) = refuseWord (refusedCause w) w (taken rest s) := by
    rw [doWrite, mapEnv_ports, hrst]
    exact writeCmd_refused (s := taken rest s) hb hw
  have hentry := refuseWord_of_ne (s := taken rest s) (ne_fault_of_busy hb) (refusedCause w) w
  rw [causeKind_refusedCause, causeCode_refusedCause] at hentry
  rw [land, run_did]
  dsimp only
  rw [hwrite, hentry]
  rfl

/-- NOP does nothing, `rst` asserted or not (R138, log 9). -/
theorem doWrite_nop (s : State) : doWrite 3#6 0#32 s = s := by
  rw [doWrite]
  split_ifs with _ hi
  · rfl
  · exact writeNop_eq s
  · exact absurd rfl hi

theorem land_nop (hf : s.eng.state ≠ .fault) : (land (.write 3#6 0#32) rest).run s = .ok () (taken rest s) := by
  rw [land, run_did]
  dsimp only
  rw [doWrite_nop]
  exact if_neg hf

/-! ## A register write as a step -/

/-- A write to a register other than CMD touches the host-written registers only; while `rst` is asserted it does nothing. -/
theorem doWrite_register {index : BitVec 6} (hi : index ≠ 3#6) (w : Word) (s : State) :
    doWrite index w s = { s with host := (doWrite index w s).host } := by
  rw [doWrite, if_neg (show index ≠ cmdIndex from hi), writeReg_eq]
  split_ifs <;> rfl

/-- Settles O18: `act` begins with `tick`, which lands the access that is due; a refused CMD word by `land_refused`, any access
as in its own step by `step_of_land_busy`. -/
theorem commandErrorEndsTheCommandInProgress : Obligations.CommandErrorEndsTheCommandInProgress := by
  unfold Obligations.CommandErrorEndsTheCommandInProgress
  refine ⟨fun s w rest f hb hrst hw hbus => act_of_ended (tick_of_stopped hbus (land_refused hb hrst hw)).1 f,
    fun s event rest hb hbus => ?_⟩
  have hcases := step_of_land_busy hb hbus
  refine ⟨fun t ht hbt => ?_, fun t ht hbt => ?_, fun why hwhy => ?_, ?_, ?_, ?_⟩
  · rcases hcases with ⟨u, hland, hstep, -⟩ | ⟨u, -, hstep, hbu⟩ | ⟨u, -, hstep⟩ <;> cases hstep.symm.trans ht
    · obtain ⟨hrun, hpassed⟩ := tick_of_landed hbus hland
      exact ⟨hpassed, hrun, act_congr hrun⟩
    · exact absurd (hbu.symm.trans hbt) (by decide)
  · rcases hcases with ⟨u, -, hstep, hbu⟩ | ⟨u, hland, hstep, -⟩ | ⟨u, -, hstep⟩ <;> cases hstep.symm.trans ht
    · exact absurd (hbt.symm.trans hbu) (by decide)
    · obtain ⟨hrun, hpassed⟩ := tick_of_stopped hbus hland
      exact ⟨hpassed.trans (congrArg took hland), hrun, act_of_ended hrun⟩
  · rcases hcases with ⟨u, -, hstep, -⟩ | ⟨u, -, hstep, -⟩ | ⟨u, hland, hstep⟩ <;> cases hstep.symm.trans hwhy
    exact ⟨u, (tick_of_stopped hbus hland).1⟩
  · rintro index rfl
    obtain ⟨heng, hhost, hmem, hports, -, -⟩ := doRead_frame index (taken rest s)
    exact ⟨doRead index (taken rest s), (step_of_due hbus).trans rfl, heng, hmem, hhost, hports⟩
  · rintro index w rfl hi
    have hstep : step s = .next (doWrite index w (taken rest s)) := by
      rw [step_of_due hbus, stepHost_eq_land (ne_fault_of_busy hb), outcome_land_write]
    exact ⟨_, hstep, doWrite_register hi w (taken rest s)⟩
  · rintro rfl
    exact act_congr (tick_of_landed hbus (land_nop (ne_fault_of_busy hb))).1

end DueAccesses
end Sys2Proof.Machine

namespace Sys2Proof.Machine
/-! # Hardware reset (O2) -/

section HardwareReset

variable {s t : State}

/-- While `rst` is asserted a write does nothing, a CMD write among them, whether FAULT stands or not (log 9). -/
theorem stepHost_write_of_rst (hrst : s.ports.rst = true) (index : BitVec 6) (w : Word) (rest : List BusItem) :
    stepHost (.write index w) rest s = .next (taken rest s) := by
  rw [stepHost]
  split_ifs
  · rw [stepCmd_eq, mapEnv_ports, if_pos hrst]
  · rw [outcome_land_write, doWrite, mapEnv_ports, if_pos hrst]

/-- Between two images the host can position the byte source (R254). -/
theorem stepHost_position (hi : imageInProgress s.eng.state = false) (bytes : List Byte) (rest : List BusItem) :
    stepHost (.position bytes) rest s = .next (positionSource bytes (taken rest s)) := by
  simp [stepHost, Eng.outcome, land, hi]

theorem portCompletes_host (h : portCompletes s = some t) : t.host = s.host := by
  rw [portCompletes] at h
  split at h
  next =>
    obtain ⟨⟨byte, u⟩, ha, rfl⟩ := Option.map_eq_some_iff.mp h
    rw [sourceAnswers] at ha
    split at ha <;> cases ha
    rfl
  next =>
    rw [sinkAccepts] at h
    split at h <;> cases h
    rfl

theorem irq_reset : irq HostRegs.reset = false := by decide

/-- The registers stand at the values a hardware reset gives them (R63). -/
def AtReset (s : State) : Prop := s.eng = Engine.reset ∧ s.host = HostRegs.reset

/-- A host access while `rst` is asserted leaves the registers at their reset values (R250). -/
theorem AtReset.stepHost (h : AtReset s) (hrst : s.ports.rst = true) (event : HostEvent) (rest : List BusItem) :
    ∃ t, Machine.stepHost event rest s = .next t ∧ AtReset t := by
  cases event with
  | read index =>
    obtain ⟨heng, hhost, -⟩ := doRead_frame index (taken rest s)
    exact ⟨doRead index (taken rest s), rfl, heng.trans h.1, hhost.trans h.2⟩
  | write index w => exact ⟨taken rest s, stepHost_write_of_rst hrst index w rest, h⟩
  | reset level =>
    cases level with
    | true => exact ⟨hardReset (taken rest s), rfl, rfl, rfl⟩
    | false => exact ⟨doReset false (taken rest s), rfl, h⟩
  | position bytes => exact ⟨_, stepHost_position (by rw [h.1]; rfl) bytes rest, h⟩

/-- With no host access landing, a block at reset does nothing but complete a port transaction. -/
theorem AtReset.stepBlock (h : AtReset s) : ∃ t, Machine.stepBlock s = .next t ∧ AtReset t := by
  refine ⟨_, stepBlock_of_not_busy (by rw [h.1]; rfl), ?_⟩
  cases hc : portCompletes s with
  | none => exact h
  | some u => exact ⟨(portCompletes_frame hc).1.trans h.1, (portCompletes_host hc).trans h.2⟩

theorem AtReset.step (h : AtReset s) (hrst : s.ports.rst = true) : ∃ t, Machine.step s = .next t ∧ AtReset t := by
  cases hm : hostMoves s with
  | true =>
    obtain ⟨it, rest, -, hstep⟩ := step_of_hostMoves hm
    exact hstep ▸ h.stepHost hrst it.event rest
  | false => exact step_of_not_hostMoves hm ▸ h.stepBlock

/-- Settles O2: an access that changes the level of `rst` is `doReset`; while `rst` is asserted no step moves the registers from
their reset values (`AtReset.step`), and a write does nothing in any state (`stepHost_write_of_rst`). -/
theorem hardwareResetFromAnyState : Obligations.HardwareResetFromAnyState := by
  unfold Obligations.HardwareResetFromAnyState
  refine fun s rest => ⟨fun hbus => ?_, fun hbus => ?_, fun hrst heng hhost => ?_, fun index w hrst hbus => ?_⟩
  · exact ⟨hardReset (taken rest s), step_of_due hbus, rfl, rfl, rfl, rfl, rfl, rfl, irq_reset, rfl, rfl, rfl⟩
  · exact ⟨doReset false (taken rest s), step_of_due hbus, rfl, rfl, rfl, rfl, rfl, rfl⟩
  · obtain ⟨t, ht, he, hh⟩ := AtReset.step ⟨heng, hhost⟩ hrst
    exact ⟨t, ht, he, hh, by rw [hh]; exact irq_reset⟩
  · rw [step_of_due hbus, stepHost_write_of_rst hrst]
    rfl

end HardwareReset
end Sys2Proof.Machine

namespace Sys2Proof.Machine
/-! # An engine that waits for ever takes the host's accesses (O50) -/

section WaitingEngine

variable {s : State} {gap : Nat} {event : HostEvent} {rest : List BusItem}

/-- An engine that waits for a port takes the next access whatever its gap, and as it lands inside a command (R268, log 7). -/
theorem step_of_waiting (hb : Busy s) (hp : inFlight s.ports = true)
    (hbus : s.env.bus = { gap := gap, event := event } :: rest) : step s = Eng.outcome (land event rest) s := by
  have hm : hostMoves s = true := by simp [hostMoves, hbus, hb, hp]
  obtain ⟨it, more, hbus', hstep⟩ := step_of_hostMoves hm
  cases hbus.symm.trans hbus'
  exact hstep.trans (stepHost_eq_land (ne_fault_of_busy hb) event rest)

/-- With no access left it is stuck (U8, U9). -/
theorem step_of_stuck (hb : Busy s) (hp : inFlight s.ports = true) (hq : Quiet s) : step s = .fault (waitsFor s.ports) := by
  rw [step_quiet hq, stepBlock, if_pos hb, if_pos hp]

/-- With `rst` released a write that is no command writes its register; CMD is none, so there NOP does the same (R134, R138). -/
theorem doWrite_of_noCommand {index : BitVec 6} {w : Word} (hrst : s.ports.rst = false) (h : index ≠ 3#6 ∨ w = 0#32) :
    doWrite index w s = writeReg index w s := by
  by_cases hi : index = 3#6
  · obtain rfl : w = 0#32 := h.resolve_left (not_not.mpr hi)
    subst hi
    exact doWrite_nop s
  · rw [doWrite, if_neg (by simp [hrst]), if_neg (show index ≠ cmdIndex from hi)]

/-- A register write acts on the host-written registers alone, whatever accesses are still to come. -/
theorem writeReg_taken (index : BitVec 6) (w : Word) (rest : List BusItem) (s : State) : writeReg index w (taken rest s) =
    { s with host := (writeReg index w s).host, env := { s.env with bus := rest } } := by
  rw [writeReg_eq, writeReg_eq]
  rfl

/-- Settles O50: the access lands as it would inside the command (`step_of_waiting`): a read by `doRead_frame`, a write that is
no command by `doWrite_of_noCommand`, a refused CMD word by `land_refused`. -/
theorem waitingEngineIsStuck : Obligations.WaitingEngineIsStuck := by
  unfold Obligations.WaitingEngineIsStuck
  intro s hb hwait
  have hp : inFlight s.ports = true := by
    rcases hwait with ⟨hreq, -⟩ | ⟨-, hoff, -⟩
    · simp [inFlight, hreq]
    · simp [inFlight, hoff]
  refine ⟨step_of_stuck hb hp, fun gap index rest hbus => ?_, fun gap index w rest hbus hrst hnone => ?_,
    fun gap w rest hbus hrst hw => ?_, fun gap rest hbus => ?_, fun gap bytes rest hbus => ?_⟩
  · obtain ⟨heng, hhost, hmem, hports, -, henv⟩ := doRead_frame index (taken rest s)
    exact ⟨doRead index (taken rest s), _, step_of_waiting hb hp hbus, heng, hmem, hhost, hports, henv⟩
  · rw [step_of_waiting hb hp hbus, outcome_land_write, doWrite_of_noCommand (s := taken rest s) hrst hnone,
      writeReg_taken]
  · rw [step_of_waiting hb hp hbus, Eng.outcome, land_refused hb hrst hw]
  · exact ⟨hardReset (taken rest s), step_of_waiting hb hp hbus, rfl, rfl, rfl, rfl⟩
  · have hi : imageInProgress s.eng.state = true := by
      revert hb
      cases s.eng.state <;> simp [isBusy, imageInProgress]
    rw [step_of_waiting hb hp hbus]
    simp [Eng.outcome, land, hi]

end WaitingEngine
end Sys2Proof.Machine

namespace Sys2Proof.Machine
/-! # Every command ends (O56)

A LINE takes codes only as long as the stream lasts: `work` bounds the bits the code reader can still find, and each code takes
at least one of them. The stack the codes fill is emptied by the steps in between. -/

section Progress

variable {α β : Type} {s t u : State} {d k : Nat}

/-! ## Work still to do -/

/-- No host access is to come, the agents do their duty, and no port transaction is in flight. -/
structure Calm (s : State) : Prop where
  quiet : Quiet s
  fair : Fair s
  request : s.ports.byteRequest = false
  offered : s.ports.offeredBeat = none

/-- The bits the code reader holds (R29, R32). -/
def held (e : Engine) : Nat := 8 * e.sbRem.toNat + e.shiftState.toNat

/-- A bound on the bits the code reader can still find: each byte of the source may announce a sub-block of 255 bytes. -/
def work (s : State) : Nat := 2048 * (unread s).length + held s.eng

/-- A command has come from s to u, still between two actions, and has done d units of work. -/
structure Worked (s : State) (d : Nat) (u : State) : Prop where
  calm : Calm u
  state : u.eng.state = s.eng.state
  less : work u + d ≤ work s

/-- With no host access to come, a thread ends early by a fault of its own only: no port waits, and the stream stays. -/
def calmEnds : Ends where
  early
    | .ended, t => t.eng.state = .fault
    | .waiting, _ => False
    | .undefined f, _ => f ≠ .streamChangedInImage
  instant _ := True

/-- Wherever a command stands, the thread does d units of work, or faults. -/
abbrev Eng.Works (x : Eng α) (d : Nat) : Prop := ∀ s k, Eng.Keeps (Worked s k) x (fun _ => Worked s (k + d)) calmEnds

variable {P R : State → Prop}

/-- Only the run of a thread matters here, not its instants. -/
theorem keeps_of_run {Q : α → State → Prop} {x : Eng α}
    (h : ∀ s, P s → match x.run s with
      | .ok a t => Q a t
      | .error e t => calmEnds.early e t) : Eng.Keeps P x Q calmEnds :=
  fun s hs => ⟨h s hs, fun _ _ => trivial⟩

theorem Worked.of_frame (h : Worked s d t) (hc : Calm u) (he : u.eng = t.eng) (hs : u.env.source = t.env.source) :
    Worked s d u where
  calm := hc
  state := by rw [he]; exact h.state
  less := by
    have hw : work u = work t := by rw [work, unread, he, hs]; rfl
    rw [hw]
    exact h.less

/-- What a thread looks at does not matter where every continuation keeps the assertion. -/
theorem keeps_look_pre {E : Ends} {Q : β → State → Prop} {f : State → Eng β} (hf : ∀ t, Eng.Keeps P (f t) Q E) :
    Eng.Keeps P (look >>= f) Q E :=
  keeps_look fun t ht => keeps_pre (hf t) (by rintro _ rfl; exact ht)

/-- Two things that are shown of one thread hold of it together. -/
theorem keeps_and {Q S : α → State → Prop} {E F : Ends} {x : Eng α} (h : Eng.Keeps P x Q E) (k : Eng.Keeps R x S F) :
    Eng.Keeps (fun s => P s ∧ R s) x (fun a s => Q a s ∧ S a s) E := by
  rintro s ⟨hp, hr⟩
  obtain ⟨hrun, hinstants⟩ := h s hp
  have hrun' := (k s hr).1
  refine ⟨?_, hinstants⟩
  revert hrun hrun'
  cases x.run s with
  | ok a t => exact And.intro
  | error e t => exact fun h _ => h

/-! ## The elementary actions -/

theorem works_pure (a : α) : (pure a : Eng α).Works 0 := fun _ _ => keeps_pure fun _ h => h

theorem works_bind {x : Eng α} {f : α → Eng β} (hx : x.Works 0) (hf : ∀ a, (f a).Works d) : (x >>= f).Works d :=
  fun s k => keeps_bind (hx s k) fun a => hf a s k

theorem works_look {f : State → Eng β} (hf : ∀ t, (f t).Works d) : (look >>= f).Works d :=
  fun s k => keeps_look_pre fun t => hf t s k

theorem works_ite {c : Prop} [Decidable c] {x y : Eng α} (hx : x.Works d) (hy : y.Works d) :
    (if c then x else y).Works d := by
  split_ifs
  · exact hx
  · exact hy

/-- Bits that leave the reader are work done. -/
theorem Worked.mapEng {f : Engine → Engine} (h : Worked s k u) (hs : (f u.eng).state = u.eng.state)
    (hf : held (f u.eng) + d ≤ held u.eng + k) : Worked s d (u.mapEng f) where
  calm := ⟨h.calm.quiet, h.calm.fair, h.calm.request, h.calm.offered⟩
  state := hs.trans h.state
  less := by
    have hless := h.less
    show 2048 * (unread u).length + held (f u.eng) + d ≤ work s
    rw [work] at hless
    omega

theorem keeps_wr_calm {Q : State → Prop} {f : Engine → Engine} (hc : ∀ u, P u → Calm u)
    (h : ∀ u, P u → Q (u.mapEng f)) : Eng.Keeps P (wr f) (fun _ => Q) calmEnds :=
  keeps_of_run fun u hu => by
    rw [wr_quiet (hc u hu).quiet]
    exact h u hu

/-- An assignment to registers in which the reader holds no bits. -/
theorem works_wr {f : Engine → Engine}
    (h : ∀ e, (f e).state = e.state ∧ held (f e) = held e := by exact fun _ => ⟨rfl, rfl⟩) : (wr f).Works 0 := fun _ _ =>
  keeps_wr_calm (fun _ hu => hu.calm) fun u hu => hu.mapEng (h u.eng).1 (by rw [(h u.eng).2]; exact le_rfl)

theorem keeps_raise_worked {Q : α → State → Prop} {c : Cause} {info : Word} :
    Eng.Keeps (Worked s k) (raise c info : Eng α) Q calmEnds :=
  keeps_of_run fun u hu => by
    rw [raise_quiet hu.calm.quiet]
    exact takeFault_state c info u

theorem works_raise {c : Cause} {info : Word} : (raise c info : Eng α).Works d := fun _ _ => keeps_raise_worked

theorem works_wrRam {ram : RamName} {depth index : Nat} {f : Memory → Memory} : (wrRam ram depth index f).Works 0 :=
  fun _ _ => keeps_of_run fun u hu => by
    rw [wrRam, run_bind_ok (tick_quiet hu.calm.quiet), run_did]
    by_cases hi : index < depth
    · rw [if_pos hi]
      exact hu.of_frame ⟨hu.calm.quiet, hu.calm.fair, hu.calm.request, hu.calm.offered⟩ rfl rfl
    · rw [if_neg hi]
      nofun

theorem keeps_inRam_calm {ram : RamName} {depth index : Nat} : Eng.Keeps P (inRam ram depth index) (fun _ => P) calmEnds :=
  keeps_of_run fun u hu => by
    rw [inRam, run_of]
    by_cases hi : index < depth
    · rw [if_pos hi]
      exact hu
    · rw [if_neg hi]
      nofun

theorem works_emitPixel (pix : Byte) : (emitPixel pix).Works 0 := fun _ _ => keeps_of_run fun u hu => by
  rw [emitPixel_quiet hu.calm.quiet hu.calm.fair.2]
  exact hu.of_frame ⟨hu.calm.quiet, hu.calm.fair, hu.calm.request, rfl⟩ rfl rfl

theorem works_emitSkip : emitSkip.Works 0 := fun _ _ => keeps_of_run fun u hu => by
  rw [emitSkip_quiet hu.calm.quiet hu.calm.fair.2]
  exact hu.of_frame ⟨hu.calm.quiet, hu.calm.fair, hu.calm.request, rfl⟩ rfl rfl

theorem Calm.afterRead (h : Calm s) (n : Nat) : Calm (afterRead s n) := ⟨h.quiet, h.fair, rfl, h.offered⟩

/-- A byte that is read is work done. -/
theorem keeps_readSource_worked :
    Eng.Keeps (Worked s k) readSource (fun byte => Worked s (if byte.isSome then k + 2048 else k)) calmEnds :=
  keeps_of_run fun u hu => by
    have hcalm := hu.calm
    have hless := hu.less
    cases hleft : unread u with
    | nil =>
      rw [readSource_exhausted hcalm.quiet hcalm.fair.1 hleft]
      exact ⟨hcalm.afterRead 0, hu.state, hless⟩
    | cons b more =>
      rw [readSource_byte hcalm.quiet hcalm.fair.1 hleft]
      rw [work, hleft, List.length_cons] at hless
      refine ⟨hcalm.afterRead 1, hu.state, ?_⟩
      rw [work, (unread_eq_cons hleft).2, afterRead_eng, Option.isSome_some, if_pos rfl]
      omega

theorem works_readSource : readSource.Works 0 := fun s k => keeps_post keeps_readSource_worked fun byte u hu =>
  ⟨hu.calm, hu.state, le_trans (Nat.add_le_add_left (by split_ifs <;> omega) _) hu.less⟩

/-! ## The code reader -/

theorem works_fetchBytes (policy : ShortReadPolicy) (len : Nat) (cause : Cause) :
    ∀ (n k : Nat) (exhausted : Bool), (fetchBytes policy len cause n k exhausted).Works 0
  | 0, _, _ => works_pure ()
  | n + 1, k, true => works_bind works_wrRam fun _ => works_fetchBytes policy len cause n (k + 1) true
  | n + 1, k, false => works_bind works_readSource fun byte => by
      cases byte with
      | some b => exact works_bind works_wrRam fun _ => works_fetchBytes policy len cause n (k + 1) false
      | none =>
        cases policy with
        | fault => exact works_raise
        | zeroFill => exact works_bind works_wrRam fun _ => works_fetchBytes .zeroFill len cause n (k + 1) true

/-- A length byte is more work than the sub-block it announces. -/
theorem keeps_newSubBlock_worked :
    Eng.Keeps (Worked s k) newSubBlock (fun _ u => Worked s k u ∧ u.eng.sbRem ≠ 0) calmEnds := by
  refine keeps_bind keeps_readSource_worked fun byte => ?_
  cases byte with
  | none => exact keeps_raise_worked
  | some len =>
    by_cases h0 : len = 0
    · simp only [if_pos h0]
      exact keeps_raise_worked
    · simp only [if_neg h0]
      have hlen := len.isLt
      exact keeps_bind (works_fetchBytes _ _ _ _ _ _ s _) fun _ => keeps_wr_calm (fun _ hu => hu.calm) fun u hu =>
        ⟨hu.mapEng rfl (by simp only [held, Option.isSome_some, if_true]; omega), h0⟩

theorem works_nextDataByte : nextDataByte.Works 8 := fun s k => by
  have take : Eng.Keeps (fun u => Worked s k u ∧ u.eng.sbRem ≠ 0)
      (look >>= fun t => inRam .sbbuf Config.subBlockMax t.eng.sbPos.toNat >>= fun _ =>
        (wr fun e => { e with sbPos := e.sbPos + 1, sbRem := e.sbRem - 1 }) >>= fun _ => pure (sbbufAt t t.eng.sbPos.toNat))
      (fun _ => Worked s (k + 8)) calmEnds :=
    keeps_look_pre fun _ => keeps_bind keeps_inRam_calm fun _ =>
      keeps_bind (Q := fun _ => Worked s (k + 8)) (keeps_wr_calm (fun _ hu => hu.1.calm) fun u ⟨hu, h0⟩ =>
        hu.mapEng rfl (by simp only [held]; bv_omega)) fun _ => keeps_pure fun _ hu => hu
  refine keeps_look fun t ht => keeps_pre (R := fun u => Worked s k u ∧ u.eng.sbRem = t.eng.sbRem) ?_
    (by rintro _ rfl; exact ⟨ht, rfl⟩)
  by_cases h0 : t.eng.sbRem = 0
  · simp only [if_pos h0]
    exact keeps_bind (keeps_pre keeps_newSubBlock_worked fun _ hu => hu.1) fun _ => take
  · simp only [if_neg h0]
    exact keeps_pre take fun _ hu => ⟨hu.1, hu.2 ▸ h0⟩

theorem works_fill : ∀ n : Nat, (fill n).Works 0
  | 0 => works_pure ()
  | n + 1 => works_look fun _ => works_ite (fun s k => keeps_bind (works_nextDataByte s k) fun _ =>
      keeps_bind (Q := fun _ => Worked s k) (keeps_wr_calm (fun _ hu => hu.calm) fun u hu =>
        hu.mapEng rfl (by simp only [held]; bv_omega)) fun _ => works_fill n s k) (works_pure ())

theorem works_bumpRunningCode : bumpRunningCode.Works 0 :=
  works_look fun _ => works_ite
    (works_bind works_wr fun _ => works_look fun _ => works_ite works_wr (works_pure ())) (works_pure ())

/-- A code has at least one bit, and `Fill` has buffered it (R164, R165). -/
theorem keeps_readCode_worked : Eng.Keeps (fun u => Worked s k u ∧ InLine Anything u) readCode
    (fun _ => Worked s (k + 1)) calmEnds := by
  refine keeps_look_pre fun t => ?_
  split_ifs
  · exact keeps_pre keeps_raise_worked fun _ hu => hu.1
  have hfill := keeps_fill (A := Anything) (fun _ _ _ _ h => h) (fun _ _ _ _ h => h) maxBytesPerCode
  refine keeps_bind (keeps_pre (keeps_and (works_fill maxBytesPerCode s k) hfill) ?room) fun _ =>
    keeps_look fun u hu => ?_
  case room =>
    exact fun u hu => ⟨hu.1, hu.2.mono fun _ => ⟨trivial, by have := u.eng.codeWidth.isLt; show _ ≤ _ + 8 * 2; omega⟩⟩
  have hwidth := (hu.2.ranges rfl).width_ge
  have hfilled : u.eng.codeWidth.toNat ≤ u.eng.shiftState.toNat := hu.2.holds.2
  have htaken := consumed_shiftState hfilled
  refine keeps_bind (Q := fun _ v => Worked s k v ∧ v.eng.shiftState = u.eng.shiftState)
    (keeps_wr_calm (by rintro _ rfl; exact hu.1.calm) (by rintro _ rfl; exact ⟨hu.1.mapEng rfl le_rfl, rfl⟩)) fun _ =>
    keeps_bind (Q := fun _ => Worked s (k + 1)) (keeps_wr_calm (fun _ hv => hv.1.calm) fun v ⟨hv, hbits⟩ =>
      hv.mapEng rfl ?_) fun _ => keeps_bind (works_bumpRunningCode s (k + 1)) fun _ => keeps_pure fun _ hv => hv
  simp only [consumed] at htaken
  simp only [held, hbits, htaken]
  omega

/-! ## The code classes -/

theorem works_push (code : Code) (v : Byte) : (push code v).Works 0 :=
  works_look fun _ => works_ite works_raise (works_bind works_wrRam fun _ => works_wr)

theorem works_pop : pop.Works 0 :=
  works_bind works_wr fun _ => works_look fun _ => works_bind (fun _ _ => keeps_inRam_calm) fun _ => works_pure _

theorem works_popPixels : ∀ n : Nat, (popPixels n).Works 0
  | 0 => works_pure ()
  | n + 1 => works_look fun _ => works_ite (works_bind works_pop fun v => works_bind (works_emitPixel v) fun _ =>
      works_bind (works_wr : nextCol.Works 0) fun _ => works_popPixels n) (works_pure ())

theorem works_traceFrom (code : Code) : ∀ (n : Nat) (p : Link), (traceFrom code n p).Works 0
  | 0, p => works_look fun _ => works_ite (works_bind (works_push _ _) fun _ => works_pure p) <|
      works_ite works_raise <| works_ite works_raise works_raise
  | n + 1, p => works_look fun _ => works_ite (works_bind (works_push _ _) fun _ => works_pure p) <|
      works_ite works_raise <| works_ite works_raise <| works_bind (works_push _ _) fun _ => works_traceFrom code n _

theorem works_rootFrom (code : Code) : ∀ (n : Nat) (p : Link), (rootFrom code n p).Works 0
  | 0, p => works_look fun _ => works_ite (works_pure p) <| works_ite works_raise <| works_ite works_raise works_raise
  | n + 1, p => works_look fun _ => works_ite (works_pure p) <| works_ite works_raise <| works_ite works_raise <|
      works_rootFrom code n _

/-- The end of PIXEL, KNOWN and KWKWK: the entry and LAST_CODE. -/
theorem works_enter (pix : Byte) (c : Code) : (append pix >>= fun _ => setLast c).Works 0 :=
  works_bind (works_look fun _ => works_bind (fun _ _ => keeps_inRam_calm) fun _ =>
    works_ite (works_bind works_wrRam fun _ => works_wrRam) (works_pure ())) fun _ => works_wr

theorem works_emitString (start : Link) (c : Code) : (emitString start c).Works 0 :=
  works_bind (works_traceFrom c _ start) fun _ => works_bind (works_look fun _ => works_popPixels _) fun _ => works_enter _ c

theorem works_endActions : endActions.Works 0 :=
  works_look fun _ => works_ite
    (works_bind works_emitSkip fun _ => works_bind (works_wr : nextCol.Works 0) fun _ => works_wr) works_raise

theorem works_clearActions : clearActions.Works 0 := fun _ _ => keeps_of_run fun u hu => by
  rw [clearActions_quiet hu.calm.quiet]
  exact ⟨⟨hu.calm.quiet, hu.calm.fair, hu.calm.request, hu.calm.offered⟩, hu.state, hu.less⟩

theorem works_instrActions (i : Instr) : (instrActions i).Works 0 := by
  cases i with
  | nop | init | line | reservedCommand _ => exact works_pure ()
  | endCode _ => exact works_endActions
  | clear _ => exact works_clearActions
  | pixel c => exact works_bind (works_emitPixel _) fun _ => works_bind (works_wr : nextCol.Works 0) fun _ => works_enter _ c
  | known c => exact works_emitString _ c
  | kwkwk c =>
    exact works_look fun t => works_bind (works_rootFrom c _ _) fun _ => works_bind works_wrRam fun _ =>
      works_bind (works_push c _) fun _ => works_emitString t.eng.lastCode c
  | invalid _ => exact works_raise

theorem keeps_codeActions_worked :
    Eng.Keeps (fun u => Worked s k u ∧ InLine Anything u) codeActions (fun _ => Worked s (k + 1)) calmEnds :=
  keeps_bind keeps_readCode_worked fun c => keeps_look_pre fun t =>
    works_instrActions (classify (codeCtx t c) c) s (k + 1)

/-- A round of the drain ends the image or has read a byte. -/
theorem keeps_drainRound_worked :
    Eng.Keeps (Worked s k) drainRound (fun _ u => u.eng.state = .done ∨ Worked s (k + 2048) u) calmEnds := by
  refine keeps_bind keeps_readSource_worked fun byte => ?_
  cases byte with
  | none => exact keeps_raise_worked
  | some len =>
    by_cases h0 : len = 0
    · simp only [if_pos h0]
      refine keeps_of_run fun u hu => ?_
      rw [finishImage, act_quiet hu.calm.quiet]
      exact .inl rfl
    · simp only [if_neg h0]
      exact keeps_post (works_fetchBytes _ _ _ _ _ _ s _) fun _ _ hu => .inr hu

/-! ## Steps -/

/-- The command in progress ends: after finitely many steps STATE is READY, DONE or FAULT. -/
def CommandEnds (s : State) : Prop :=
  ∃ k t, Host.Core.run core k s = .next t ∧ (t.eng.state = .ready ∨ t.eng.state = .done ∨ t.eng.state = .fault)

theorem commandEnds_now (h : s.eng.state = .ready ∨ s.eng.state = .done ∨ s.eng.state = .fault) : CommandEnds s :=
  ⟨0, s, rfl, h⟩

theorem CommandEnds.of_step (ht : step s = .next t) (h : CommandEnds t) : CommandEnds s := by
  obtain ⟨k, u, hrun, hu⟩ := h
  exact ⟨k + 1, u, (run_succ (M := core) ht k).trans hrun, hu⟩

theorem Calm.notInFlight (h : Calm s) : inFlight s.ports = false := by simp [inFlight, h.request, h.offered]

/-- Only the ports and the agents matter for calm. -/
theorem Calm.of_frame (h : Calm s) (hp : t.ports = s.ports) (hq : t.env.bus = s.env.bus)
    (ha : t.env.source.answersLeft = s.env.source.answersLeft) (hk : t.env.sink.acceptsLeft = s.env.sink.acceptsLeft) :
    Calm t :=
  ⟨hq.trans h.quiet, ⟨ha.trans h.fair.1, hk.trans h.fair.2⟩, hp ▸ h.request, hp ▸ h.offered⟩

theorem Calm.worked (h : Calm s) : Worked s 0 s := ⟨h, rfl, le_rfl⟩

/-- What a safe state's task does with no host access to come it does as a step, which is a next state. -/
theorem step_of_task {Q : State → Prop} (hsafe : Safe s) (hb : Busy s) (hc : Calm s)
    (hx : Eng.Keeps (fun u => u = s) (taskActions s) (fun _ => Q) calmEnds) :
    ∃ t, step s = .next t ∧ (t.eng.state = .fault ∨ Q t) := by
  have hends := (keeps_taskActions hsafe hb hc.notInFlight s rfl).1
  have hrun := (hx s rfl).1
  rw [step_engine hb hc.request hc.offered (nothingDue_of_quiet hc.quiet), stepEngine_eq, Eng.outcome]
  revert hends hrun
  rcases (taskActions s).run s with ⟨_, t⟩ | ⟨_ | _ | f, t⟩
  · exact fun _ hq => ⟨t, rfl, .inr hq⟩
  · exact fun _ hf => ⟨t, rfl, .inl hf⟩
  · exact fun _ hn => hn.elim
  · exact fun hf hn => absurd hf hn

theorem step_drain (hsafe : Safe s) (hs : s.eng.state = .drainBusy) (hc : Calm s) :
    ∃ t, step s = .next t ∧ (t.eng.state = .fault ∨ t.eng.state = .done ∨ Worked s (0 + 2048) t) := by
  refine step_of_task hsafe (by rw [Busy, hs]; rfl) hc ?_
  rw [taskActions, engineTask, hs]
  exact keeps_pre (keeps_drainRound_worked (k := 0)) fun u hu => hu ▸ hc.worked

theorem commandEnds_drain (hsafe : Safe s) (hs : s.eng.state = .drainBusy) (hc : Calm s) : CommandEnds s := by
  induction hn : work s using Nat.strong_induction_on generalizing s with
  | _ n ih =>
    obtain ⟨t, ht, hfault | hdone | hworked⟩ := step_drain hsafe hs hc
    · exact .of_step ht (commandEnds_now (.inr (.inr hfault)))
    · exact .of_step ht (commandEnds_now (.inr (.inl hdone)))
    · have hless := hworked.less
      exact .of_step ht (ih (work t) (by omega) (stepKeepsSafety s t hsafe ht) (hworked.state.trans hs) hworked.calm rfl)

/-- The next code of a LINE takes a bit of the stream, or faults. -/
theorem step_code (hsafe : Safe s) (hs : s.eng.state = .lineBusy) (hc : Calm s) (hroom : s.eng.col < s.eng.curWidth)
    (hptr : s.eng.stackPtr = 0) : ∃ t, step s = .next t ∧ (t.eng.state = .fault ∨ Worked s (0 + 1) t) := by
  have hb : Busy s := by rw [Busy, hs]; rfl
  have hline := hsafe.inCommand hb hc.notInFlight
  rw [hs] at hline
  refine step_of_task hsafe hb hc ?_
  rw [taskActions, engineTask_code hs hroom hptr]
  exact keeps_pre (keeps_codeActions_worked (s := s) (k := 0)) (by
    rintro u rfl
    exact ⟨hc.worked, hline.mono fun _ => trivial⟩)

/-- What decreases in a LINE: the work of the reader, and then the pixels that are left over. -/
def lineWork (s : State) : Nat := 8192 * work s + s.eng.stackPtr.toNat

/-- Pixels left over are taken off the stack (R147). -/
theorem step_carryOver (hsafe : Safe s) (hs : s.eng.state = .lineBusy) (hc : Calm s) (hroom : s.eng.col < s.eng.curWidth)
    (hptr : s.eng.stackPtr ≠ 0) :
    ∃ t, step s = .next t ∧ t.eng.state = .lineBusy ∧ Calm t ∧ lineWork t < lineWork s := by
  have hle := (hsafe.ranges (hsafe.setUp (by rw [hs]; rfl))).stack_le
  obtain ⟨t, n, ht, hn, henv, -, heng, -, -, hports, -⟩ :=
    leftoverPixelsComeFirst s hs hroom hptr hle hc.quiet hc.fair.2 hc.request hc.offered
  refine ⟨t, ht, by rw [heng]; exact hs, hc.of_frame hports (by rw [henv]) (by rw [henv]) (by rw [henv]), ?_⟩
  have hwork : work t = work s := by simp only [work, unread, held, henv, heng]
  have hpopped : t.eng.stackPtr.toNat < s.eng.stackPtr.toNat := by
    rw [heng]
    bv_omega
  rw [lineWork, lineWork, hwork]
  omega

/-- The end of a LINE is READY, or the drain of the image's last line (R149). -/
theorem commandEnds_lineEnd (hsafe : Safe s) (hs : s.eng.state = .lineBusy) (hc : Calm s)
    (hfull : s.eng.col = s.eng.curWidth) : CommandEnds s := by
  obtain ⟨t, _, ht, -, -, hready, hdrain, -, henv, hports, -⟩ :=
    lineEndsReadyOrDraining s hs hfull hc.quiet hc.request hc.offered
  refine .of_step ht ?_
  cases hlast : s.eng.lastLine with
  | false => exact commandEnds_now (.inl (by rw [hready hlast]))
  | true =>
    exact commandEnds_drain (stepKeepsSafety s t hsafe ht) (by rw [hdrain hlast])
      (hc.of_frame hports (by rw [henv]) (by rw [henv]) (by rw [henv]))

theorem commandEnds_line (hsafe : Safe s) (hs : s.eng.state = .lineBusy) (hc : Calm s) : CommandEnds s := by
  induction hn : lineWork s using Nat.strong_induction_on generalizing s with
  | _ n ih =>
    have hcol := (hsafe.ranges (hsafe.setUp (by rw [hs]; rfl))).col_le
    by_cases hfull : s.eng.col = s.eng.curWidth
    · exact commandEnds_lineEnd hsafe hs hc hfull
    have hroom : s.eng.col < s.eng.curWidth := by bv_omega
    by_cases hptr : s.eng.stackPtr = 0
    · obtain ⟨t, ht, hfault | hworked⟩ := step_code hsafe hs hc hroom hptr
      · exact .of_step ht (commandEnds_now (.inr (.inr hfault)))
      · have hless := hworked.less
        have hstack := t.eng.stackPtr.isLt
        exact .of_step ht (ih (lineWork t) (by simp only [lineWork] at *; omega) (stepKeepsSafety s t hsafe ht)
          (hworked.state.trans hs) hworked.calm rfl)
    · obtain ⟨t, ht, hst, hct, hless⟩ := step_carryOver hsafe hs hc hroom hptr
      exact .of_step ht (ih (lineWork t) (hn ▸ hless) (stepKeepsSafety s t hsafe ht) hst hct rfl)

/-- INIT is one step, to READY, to the drain of an image without a pixel, or to a fault (R142, R143). -/
theorem commandEnds_init (hsafe : Safe s) (hs : s.eng.state = .initBusy) (hc : Calm s) : CommandEnds s := by
  obtain ⟨hexhausted, hbad⟩ := initFaultsOnTheCodeSizeByte s hs hc.quiet hc.fair hc.request hc.offered
  cases hleft : unread s with
  | nil =>
    obtain ⟨t, ht, heng, -⟩ := hexhausted hleft
    exact .of_step ht (commandEnds_now (.inr (.inr (by rw [heng]))))
  | cons m more =>
    by_cases hm : m.toNat ≤ 8
    · have ht := step_initialises hs hc.quiet hc.fair hc.request hc.offered hleft hm
      refine .of_step ht ?_
      have hstate : (initialised m s).eng.state =
          stateAfterInit (s.eng.curWidth.setWidth 32 * s.eng.curHeight.setWidth 32) := by rw [initialised_eng hm]
      rw [stateAfterInit] at hstate
      split_ifs at hstate
      · exact commandEnds_drain (stepKeepsSafety s _ hsafe ht) hstate ⟨hc.quiet, hc.fair, rfl, hc.offered⟩
      · exact commandEnds_now (.inl hstate)
    · obtain ⟨t, ht, heng, -⟩ := hbad m more hleft (by omega)
      exact .of_step ht (commandEnds_now (.inr (.inr (by rw [heng]))))

/-- Settles O56: INIT is one step (`commandEnds_init`); a LINE takes codes while the stream lasts and pixels while the stack does
(`commandEnds_line`); and the drain reads a byte in each round (`commandEnds_drain`). -/
theorem everyCommandEnds : Obligations.EveryCommandEnds := by
  unfold Obligations.EveryCommandEnds
  intro s hsafe hb hq hfair hreq hoff
  have hc : Calm s := ⟨hq, hfair, hreq, hoff⟩
  cases hs : s.eng.state with
  | initBusy => exact commandEnds_init hsafe hs hc
  | lineBusy => exact commandEnds_line hsafe hs hc
  | drainBusy => exact commandEnds_drain hsafe hs hc
  | idle | ready | done | fault => rw [hs] at hb; cases hb

end Progress
end Sys2Proof.Machine
